-- ==== Sys2Proof/Word.lean ====
section
/-!
DEFINITION. The word types of the block (spec/00_scope.md R12): bytes, samples and the unsigned widths of
the configuration record, and the silent sample sequence.
-/

namespace Sys2Proof

/-- A byte: `u8` of R12. -/
abbrev Byte := BitVec 8

/-- A Sample: a signed 16-bit two's-complement integer (R12); its value is `BitVec.toInt`. -/
abbrev Sample := BitVec 16

/-- `u16` of R12. -/
abbrev U16 := BitVec 16

/-- `u32` of R12. -/
abbrev U32 := BitVec 32

/-- `zeros(n)` of R12: `n` samples of value 0. -/
def zeros (n : Nat) : List Sample := List.replicate n 0#16

/-- `rep(n, t)` of R12: the sequence `t` repeated `n` times. -/
def rep (n : Nat) (t : List Sample) : List Sample := (List.replicate n t).flatten

end Sys2Proof
end

