-- ==== Sys2Proof/Config.lean ====
section
/-!
DEFINITION. The named protocol constants (spec/00_scope.md R8), the run-time configuration record (R9,
spec/10_state.md R40), the open parameters (R10) with their test defaults, and the free values.
-/

namespace Sys2Proof

namespace Config

/-- `MIN_WIN_SYMS` (R8): the minimum window, in symbol intervals. -/
abbrev minWinSyms : Nat := 20
/-- `THRESH` (R8) is 1/2 of normalized full scale; its numerator. -/
abbrev threshNum : Nat := 1
/-- The denominator of `THRESH` (R8). -/
abbrev threshDen : Nat := 2
/-- `BLOCK_BYTES` (R8): bytes per synchronization block. -/
abbrev blockBytes : Nat := 128
/-- `PRE_IDLE` (R8): idle symbols in the preamble. -/
abbrev preIdle : Nat := 6
/-- `PRE_START` (R8): start symbols in the preamble. -/
abbrev preStart : Nat := 1
/-- `N_TRAIL` (R8, spec/90_conflicts.md C2): trailing idle symbols. -/
abbrev nTrail : Nat := 2
/-- `TX_AMPL` (R8) is 9/10 of full scale; its numerator. -/
abbrev txAmplNum : Nat := 9
/-- The denominator of `TX_AMPL` (R8). -/
abbrev txAmplDen : Nat := 10
/-- `WORK_MIN` (R8): the worker threshold in samples. -/
abbrev workMin : Nat := 4096
/-- `HEADER_SIZE` (R8): the PacketHeader's size in bytes. -/
abbrev headerSize : Nat := 6
/-- `MAX_TOTAL` (R8): the largest declared total length. -/
abbrev maxTotal : Nat := 65535
/-- `MAX_PAYLOAD` (R8). -/
abbrev maxPayload : Nat := maxTotal - headerSize
/-- `FLAG_TEXT` (R8, R94) is bit 0 of the flags byte. -/
abbrev flagTextBit : Nat := 0
/-- `FLAG_FILE` (R8, R94) is bit 1 of the flags byte. -/
abbrev flagFileBit : Nat := 1
/-- `WORKER_SLEEP_MS` (R8, R264): the worker's back-off; timing only, no rule reads it. -/
abbrev workerSleepMs : Nat := 50

/-- FREE VALUE (spec/93_implementation_defined.md U7, log entry 5): what a cell of `RING_MEM` that was never
written holds, by its address `s × CHUNK + k`. No run reads one. -/
opaque unwrittenSample : Nat → Sample

/-- FREE VALUE (log entry 6): the sample that stands for an exact value outside the i16 range. R144 says the
value always fits; it does for the nominal tables, and tables loaded otherwise may leave the range. -/
opaque sampleOutOfRange : Int → Sample

end Config

/-- The two codec variants (R130, R150, R170). -/
inductive CodecType where
  | fsk
  | qpsk
  deriving DecidableEq, Repr

/-- The ModemConfig record (R40). `codecType` is the code number a caller sends, 0 FSK or 1 QPSK; the register
`config` holds 0 or 1 only (log entry 22). -/
structure ModemConfig where
  inDev      : U32
  outDev     : U32
  sampleRate : U32
  chunk      : U32
  baud       : U32
  codecType  : Nat
  inVol      : U16
  outVol     : U16
  deriving DecidableEq, Repr

/-- A tone or carrier frequency parameter (R10, D6): a fixed rational number of hertz, or a rational multiple of
`BAUD` (the form of the test defaults). -/
inductive Tone where
  | hz     (num den : Nat)
  | ofBaud (num den : Nat)
  deriving DecidableEq, Repr

/-- The names of the reference tables (R132). -/
inductive TableName where
  | cosL | sinL | cosH | sinH | cosC | sinC
  deriving DecidableEq, Repr

/-- Table contents loaded as data (R132, D8: "a model may load any tables"): the entries of one table for one
pair of rates. -/
structure RomTable where
  name       : TableName
  sampleRate : Nat
  baud       : Nat
  entries    : List Int
  deriving DecidableEq, Repr

/-- The open parameters (R10) and `RING_CAP` (R8, D19). They are fixed for a machine: no operation writes
them. A capacity of `none` is ∞. -/
structure Params where
  ringCap       : Nat
  fLow          : Tone
  fHigh         : Tone
  fC            : Tone
  fullScaleFsk  : Nat
  fullScaleQpsk : Nat
  tabOne        : Nat
  rom           : List RomTable
  qpskKNum      : Nat
  qpskKDen      : Nat
  outqDepth     : Option Nat
  workCap       : Option Nat
  pendCap       : Option Nat
  pktqDepth     : Option Nat
  cursorW       : Nat
  fileNameLen   : Nat
  config0       : ModemConfig
  deriving DecidableEq, Repr

namespace Config

/-- The configuration TC-A of spec/95_test_vectors.md, the spec's `CONFIG0` for its programs (log entry 4). -/
def testConfigA : ModemConfig :=
  { inDev := 0, outDev := 0, sampleRate := 8000, chunk := 512, baud := 1000, codecType := 0, inVol := 0,
    outVol := 0 }

/-- The test defaults of R10 (log entry 3). -/
def testParams : Params :=
  { ringCap := 128, fLow := .ofBaud 1 1, fHigh := .ofBaud 2 1, fC := .ofBaud 1 2, fullScaleFsk := 32767,
    fullScaleQpsk := 32767, tabOne := 32767, rom := [], qpskKNum := 7071, qpskKDen := 10000,
    outqDepth := none, workCap := none, pendCap := none, pktqDepth := none, cursorW := 32,
    fileNameLen := 64, config0 := testConfigA }

end Config

end Sys2Proof
end

