-- ==== Sys2Proof/Syntax.lean ====
section
/-!
DEFINITION. The 28 operations of the block with their typed operands (spec/30_encoding.md R81, R82). An operation
plays the part of an instruction (spec/00_scope.md R3).
-/

namespace Sys2Proof

/-- One constructor per row of the opcode table (R81), with the operands of R82's column "in". -/
inductive Instr where
  /-- `RING.PUSH c`, R110. -/
  | ringPush (c : List Sample)
  /-- `RING.POP`, R111. -/
  | ringPop
  /-- `RING.CLEAR`, R112. -/
  | ringClear
  /-- `OUTQ.PUSH s`, R114. -/
  | outqPush (x : List Sample)
  /-- `OUTQ.POP dst`, R115. -/
  | outqPop (dst : List Sample)
  /-- `OUTQ.CLEAR`, R116. -/
  | outqClear
  /-- `CODEC.SYNC x`, R140. -/
  | codecSync (x : List Sample)
  /-- `CODEC.DEMOD x, out`, R142. -/
  | codecDemod (x : List Sample) (out : List Byte)
  /-- `CODEC.MOD b`, R143. -/
  | codecMod (b : List Byte)
  /-- `CODEC.TYPE`, R136. -/
  | codecType
  /-- `CODEC.NEW t, sample_rate, baud`, R131: three integers without a stated width, which "are mathematical integers"
  (R12). -/
  | codecNew (t sampleRate baud : Int)
  /-- `PKT.PUSH bytes`, R192. -/
  | pktPush (b : List Byte)
  /-- `PKT.FINISHED`, R195. -/
  | pktFinished
  /-- `PKT.VALID`, R196. -/
  | pktValid
  /-- `PKT.CHECKSUM`, R197. -/
  | pktChecksum
  /-- `PKT.NEW`, R191. -/
  | pktNew
  /-- `PKT.BUILD id, flags, payload`, R194. -/
  | pktBuild (id flags : Byte) (payload : List Byte)
  /-- `PKTQ.PUSH p`, R199. -/
  | pktqPush (p : List Byte)
  /-- `PKTQ.POP`, R200. -/
  | pktqPop
  /-- `ENG.START_STREAM dev_ok, open_ok`, R220; the two Booleans come from the `DEV` port. -/
  | engStartStream (devOk openOk : Bool)
  /-- `ENG.STOP_STREAM`, R221. -/
  | engStopStream
  /-- `ENG.START_DEMOD`, R222. -/
  | engStartDemod
  /-- `ENG.STOP_DEMOD`, R223. -/
  | engStopDemod
  /-- `ENG.CALLBACK captured`, R224; the chunk comes from the `AUD_IN` port. -/
  | engCallback (captured : List Sample)
  /-- `ENG.WORKER_STEP`, R226. -/
  | engWorkerStep
  /-- `ENG.TRANSMIT b`, R228. -/
  | engTransmit (b : List Byte)
  /-- `ENG.SET_CONFIG new`, R231. -/
  | engSetConfig (new : ModemConfig)
  /-- `ENG.GET_CONFIG`, R229. -/
  | engGetConfig
  deriving DecidableEq, Repr

/-- A typed operand value on the `CMD` port (R80: operands "are typed values (sequences, integers, records), not
bit fields"; log entry 1). -/
inductive Value where
  | samples (x : List Sample)
  | bytes   (b : List Byte)
  | byte    (v : Byte)
  | int     (n : Int)
  | bool    (b : Bool)
  | config  (c : ModemConfig)
  deriving DecidableEq, Repr

/-- Format `CMD8` (R80): one opcode byte followed by the operation's operands. -/
structure Command where
  opcode   : Byte
  operands : List Value
  deriving DecidableEq, Repr

/-- The four agents (spec/60_exceptions.md R262). -/
inductive Agent where
  | callback
  | worker
  | caller
  | consumer
  deriving DecidableEq, Repr

end Sys2Proof
end

