-- ==== Sys2Proof/Machine/Header.lean ====
section
/-!
DEFINITION. The views of a packet buffer that its operand check reads (spec/10_state.md R38; spec/44_packet.md R195):
the header fields in their byte order (spec/20_memory.md R64), and whether the packet is complete.
-/

namespace Sys2Proof
namespace Machine

/-- The 16-bit value of two bytes, the byte at the lower offset less significant (R64). -/
def word16 (lo hi : Byte) : Nat := lo.toNat + 256 * hi.toNat

/-- Byte `k` of a buffer. -/
def byteAt (p : List Byte) (k : Nat) : Byte := p.getD k 0

/-- `has_header(p)` (R38). -/
def hasHeader (p : List Byte) : Bool := decide (Config.headerSize ≤ p.length)

/-- `p.total` (R38): the declared total length. -/
def totalOf (p : List Byte) : Nat := word16 (byteAt p 2) (byteAt p 3)

/-- `finished(p)` (R195): a complete packet buffer (R39). -/
def finished (p : List Byte) : Bool := hasHeader p && decide (p.length = totalOf p)

end Machine
end Sys2Proof
end

