-- ==== Sys2Proof/WellFormed.lean ====
section
/-!
DEFINITION. The operand checks that do not depend on the state but for the chunk length: the legal configuration
(spec/45_engine.md R230, spec/00_scope.md R9) and the type-and-size check of every operation
(spec/30_encoding.md R82, R83).
-/

namespace Sys2Proof

/-- The rates of R131 and R9: both at least 1, and `baud` divides `sample_rate`. -/
def ratesLegal (sampleRate baud : Int) : Bool :=
  decide (1 ≤ baud) && decide (1 ≤ sampleRate) && decide (sampleRate % baud = 0)

/-- R230: a legal configuration. -/
def ModemConfig.legal (c : ModemConfig) : Bool :=
  ratesLegal c.sampleRate.toNat c.baud.toNat && decide (1 ≤ c.chunk.toNat) && decide (c.codecType ≤ 1)

/-- R230: the same but for volume. -/
def ModemConfig.sameButVolume (a b : ModemConfig) : Bool :=
  decide (a.inDev = b.inDev ∧ a.outDev = b.outDev ∧ a.sampleRate = b.sampleRate ∧ a.chunk = b.chunk ∧
    a.baud = b.baud ∧ a.codecType = b.codecType)

/-- The operands have the size R82 asks for, where a chunk has `chunk` samples and a packet is complete (R83, R39, R68,
R230, R251). An operation that fails this check is answered `REFUSED`, or `OVERSIZE` for the two size limits of R251. -/
def Instr.wellFormed (chunk : Nat) : Instr → Bool
  | .ringPush c => decide (c.length = chunk)
  | .ringPop => true
  | .ringClear => true
  | .outqPush x => decide (1 ≤ x.length)
  | .outqPop dst => decide (dst.length = chunk)
  | .outqClear => true
  | .codecSync _ => true
  | .codecDemod _ _ => true
  | .codecMod _ => true
  | .codecType => true
  | .codecNew t sampleRate baud => decide (t = 0 ∨ t = 1) && ratesLegal sampleRate baud
  | .pktPush _ => true
  | .pktFinished => true
  | .pktValid => true
  | .pktChecksum => true
  | .pktNew => true
  | .pktBuild _ _ payload => decide (payload.length ≤ Config.maxPayload)
  | .pktqPush p => Machine.finished p
  | .pktqPop => true
  | .engStartStream _ _ => true
  | .engStopStream => true
  | .engStartDemod => true
  | .engStopDemod => true
  | .engCallback captured => decide (captured.length = chunk)
  | .engWorkerStep => true
  | .engTransmit b => decide (b.length ≤ Config.maxTotal)
  | .engSetConfig new => new.legal
  | .engGetConfig => true

end Sys2Proof
end

