-- ==== Sys2Proof/Decode.lean ====
section
/-!
DEFINITION. The command decoder, total on any opcode byte and operands, rejecting by name (spec/30_encoding.md
R80, R81, R83), and the encoder written from the same table.
-/

namespace Sys2Proof

/-- What the decoder answers: an operation; a reserved opcode byte; or a listed opcode with operands of the
wrong type (R83). -/
inductive Decoded where
  | instr       (i : Instr)
  | reserved    (opcode : Byte)
  | badOperands (opcode : Byte)
  deriving DecidableEq, Repr

/-- `opcode[7:4]`, the unit number (R80). -/
def unitOf (opcode : Byte) : Nat := opcode.toNat / 16

/-- `opcode[3:0]`, the operation number within the unit (R80). -/
def opOf (opcode : Byte) : Nat := opcode.toNat % 16

/-- Unit 0, RING (R81). -/
def decodeRing (c : Command) : Decoded :=
  match opOf c.opcode with
  | 0 => match c.operands with
    | [.samples x] => .instr (.ringPush x)
    | _ => .badOperands c.opcode
  | 1 => match c.operands with
    | [] => .instr .ringPop
    | _ => .badOperands c.opcode
  | 2 => match c.operands with
    | [] => .instr .ringClear
    | _ => .badOperands c.opcode
  | _ => .reserved c.opcode

/-- Unit 1, OUTQ (R81). -/
def decodeOutq (c : Command) : Decoded :=
  match opOf c.opcode with
  | 0 => match c.operands with
    | [.samples x] => .instr (.outqPush x)
    | _ => .badOperands c.opcode
  | 1 => match c.operands with
    | [.samples x] => .instr (.outqPop x)
    | _ => .badOperands c.opcode
  | 2 => match c.operands with
    | [] => .instr .outqClear
    | _ => .badOperands c.opcode
  | _ => .reserved c.opcode

/-- Unit 2, CODEC (R81). -/
def decodeCodec (c : Command) : Decoded :=
  match opOf c.opcode with
  | 0 => match c.operands with
    | [.samples x] => .instr (.codecSync x)
    | _ => .badOperands c.opcode
  | 1 => match c.operands with
    | [.samples x, .bytes b] => .instr (.codecDemod x b)
    | _ => .badOperands c.opcode
  | 2 => match c.operands with
    | [.bytes b] => .instr (.codecMod b)
    | _ => .badOperands c.opcode
  | 3 => match c.operands with
    | [] => .instr .codecType
    | _ => .badOperands c.opcode
  | 4 => match c.operands with
    | [.int t, .int r, .int b] => .instr (.codecNew t r b)
    | _ => .badOperands c.opcode
  | _ => .reserved c.opcode

/-- Unit 3, PKT (R81). -/
def decodePkt (c : Command) : Decoded :=
  match opOf c.opcode with
  | 0 => match c.operands with
    | [.bytes b] => .instr (.pktPush b)
    | _ => .badOperands c.opcode
  | 1 => match c.operands with
    | [] => .instr .pktFinished
    | _ => .badOperands c.opcode
  | 2 => match c.operands with
    | [] => .instr .pktValid
    | _ => .badOperands c.opcode
  | 3 => match c.operands with
    | [] => .instr .pktChecksum
    | _ => .badOperands c.opcode
  | 4 => match c.operands with
    | [] => .instr .pktNew
    | _ => .badOperands c.opcode
  | 5 => match c.operands with
    | [.byte i, .byte f, .bytes b] => .instr (.pktBuild i f b)
    | _ => .badOperands c.opcode
  | _ => .reserved c.opcode

/-- Unit 4, PKTQ (R81). -/
def decodePktq (c : Command) : Decoded :=
  match opOf c.opcode with
  | 0 => match c.operands with
    | [.bytes b] => .instr (.pktqPush b)
    | _ => .badOperands c.opcode
  | 1 => match c.operands with
    | [] => .instr .pktqPop
    | _ => .badOperands c.opcode
  | _ => .reserved c.opcode

/-- Unit 5, ENG (R81). -/
def decodeEng (c : Command) : Decoded :=
  match opOf c.opcode with
  | 0 => match c.operands with
    | [.bool d, .bool o] => .instr (.engStartStream d o)
    | _ => .badOperands c.opcode
  | 1 => match c.operands with
    | [] => .instr .engStopStream
    | _ => .badOperands c.opcode
  | 2 => match c.operands with
    | [] => .instr .engStartDemod
    | _ => .badOperands c.opcode
  | 3 => match c.operands with
    | [] => .instr .engStopDemod
    | _ => .badOperands c.opcode
  | 4 => match c.operands with
    | [.samples x] => .instr (.engCallback x)
    | _ => .badOperands c.opcode
  | 5 => match c.operands with
    | [] => .instr .engWorkerStep
    | _ => .badOperands c.opcode
  | 6 => match c.operands with
    | [.bytes b] => .instr (.engTransmit b)
    | _ => .badOperands c.opcode
  | 7 => match c.operands with
    | [.config n] => .instr (.engSetConfig n)
    | _ => .badOperands c.opcode
  | 8 => match c.operands with
    | [] => .instr .engGetConfig
    | _ => .badOperands c.opcode
  | _ => .reserved c.opcode

/-- The decoder: the unit selects the table, the operation number the row; "a decoder tells an operation from its
opcode byte alone" (R104), and the operands are then checked for type (R83). -/
def decode (c : Command) : Decoded :=
  match unitOf c.opcode with
  | 0 => decodeRing c
  | 1 => decodeOutq c
  | 2 => decodeCodec c
  | 3 => decodePkt c
  | 4 => decodePktq c
  | 5 => decodeEng c
  | _ => .reserved c.opcode

/-- The opcode byte of every operation (R81). -/
def Instr.opcode : Instr → Byte
  | .ringPush _ => 0x00
  | .ringPop => 0x01
  | .ringClear => 0x02
  | .outqPush _ => 0x10
  | .outqPop _ => 0x11
  | .outqClear => 0x12
  | .codecSync _ => 0x20
  | .codecDemod _ _ => 0x21
  | .codecMod _ => 0x22
  | .codecType => 0x23
  | .codecNew _ _ _ => 0x24
  | .pktPush _ => 0x30
  | .pktFinished => 0x31
  | .pktValid => 0x32
  | .pktChecksum => 0x33
  | .pktNew => 0x34
  | .pktBuild _ _ _ => 0x35
  | .pktqPush _ => 0x40
  | .pktqPop => 0x41
  | .engStartStream _ _ => 0x50
  | .engStopStream => 0x51
  | .engStartDemod => 0x52
  | .engStopDemod => 0x53
  | .engCallback _ => 0x54
  | .engWorkerStep => 0x55
  | .engTransmit _ => 0x56
  | .engSetConfig _ => 0x57
  | .engGetConfig => 0x58

/-- The operands of every operation in the order of R82's column "in". -/
def Instr.values : Instr → List Value
  | .ringPush c => [.samples c]
  | .outqPush x => [.samples x]
  | .outqPop dst => [.samples dst]
  | .codecSync x => [.samples x]
  | .codecDemod x out => [.samples x, .bytes out]
  | .codecMod b => [.bytes b]
  | .codecNew t r b => [.int t, .int r, .int b]
  | .pktPush b => [.bytes b]
  | .pktBuild i f b => [.byte i, .byte f, .bytes b]
  | .pktqPush p => [.bytes p]
  | .engStartStream d o => [.bool d, .bool o]
  | .engCallback x => [.samples x]
  | .engTransmit b => [.bytes b]
  | .engSetConfig n => [.config n]
  | .ringPop => []
  | .ringClear => []
  | .outqClear => []
  | .codecType => []
  | .pktFinished => []
  | .pktValid => []
  | .pktChecksum => []
  | .pktNew => []
  | .pktqPop => []
  | .engStopStream => []
  | .engStartDemod => []
  | .engStopDemod => []
  | .engWorkerStep => []
  | .engGetConfig => []

/-- The encoder (R81, R82). -/
def encode (i : Instr) : Command := { opcode := i.opcode, operands := i.values }

/-- The operands of all-zero bits that accompany an opcode byte named by number alone (log entry 24): a chunk of
`CHUNK` zero samples, with `CHUNK` that of the reset configuration; the shortest legal sequence of zeros; the
number 0; the Boolean false. -/
def zeroOperands (opcode : Byte) : List Value :=
  match opcode.toNat with
  | 0x00 => [.samples (zeros Config.testConfigA.chunk.toNat)]
  | 0x10 => [.samples (zeros 1)]
  | 0x11 => [.samples (zeros Config.testConfigA.chunk.toNat)]
  | 0x20 => [.samples []]
  | 0x21 => [.samples [], .bytes []]
  | 0x22 => [.bytes []]
  | 0x24 => [.int 0, .int 0, .int 0]
  | 0x30 => [.bytes []]
  | 0x35 => [.byte 0, .byte 0, .bytes []]
  | 0x40 => [.bytes []]
  | 0x50 => [.bool false, .bool false]
  | 0x54 => [.samples (zeros Config.testConfigA.chunk.toNat)]
  | 0x56 => [.bytes []]
  | 0x57 => [.config { inDev := 0, outDev := 0, sampleRate := 0, chunk := 0, baud := 0, codecType := 0,
                       inVol := 0, outVol := 0 }]
  | _ => []

/-- The command an opcode-table word stands for: its one byte, with operands of zeros. -/
def tableCommand (w : Nat) : Command :=
  { opcode := BitVec.ofNat 8 w, operands := zeroOperands (BitVec.ofNat 8 w) }

/-- The instruction the decoder reads from a row of the opcode table, whose word is one byte. -/
def decodeTableWord (nbits w : Nat) : Option Instr :=
  if nbits = 8 ∧ w < 256 then
    match decode (tableCommand w) with
    | .instr i => some i
    | .reserved _ => none
    | .badOperands _ => none
  else none

end Sys2Proof
end

