-- ==== Sys2Proof/Machine/Tables.lean ====
section
/-!
DEFINITION. The reference tables of a codec instance (spec/41_codec_common.md R132) and the construction of an
instance from a type and its rates (R131, spec/00_scope.md R11).
-/

namespace Sys2Proof
namespace Machine

/-- The fixed-point scale of the nominal tables' arithmetic, `2^128` (log entry 7). -/
def cosScale : Nat := 340282366920938463463374607431768211456

/-- One whole turn, `2π`, in units of `1 / cosScale`, rounded down (log entry 7). -/
def turnScaled : Nat := 2138057168129933495719360746323741566601

/-- The cosine series in nested form, from term `n` on, for a squared angle `t2 / cosScale`: `1 − t2/(2n(2n−1)) × (…)`. -/
def hornerCos (t2 : Nat) : Nat → Nat → Nat
  | 0, _ => cosScale
  | f + 1, n => cosScale - t2 * hornerCos t2 f (n + 1) / (cosScale * (2 * n * (2 * n - 1)))

/-- The sine series divided by the angle, in nested form: `1 − t2/(2n(2n+1)) × (…)`. -/
def hornerSin (t2 : Nat) : Nat → Nat → Nat
  | 0, _ => cosScale
  | f + 1, n => cosScale - t2 * hornerSin t2 f (n + 1) / (cosScale * (2 * n * (2 * n + 1)))

/-- `cosScale × cos(2π a/b)` for an angle of at most a quarter turn. A sixth of a turn, the one rational angle with
a cosine of exactly one half, is exact, so that a tie is rounded as R132 says. -/
def quarterCos (a b : Nat) : Nat :=
  if 6 * a = b then cosScale / 2
  else if 8 * a ≤ b then
    let t := turnScaled * a / b
    hornerCos (t * t / cosScale) 22 1
  else
    let t := turnScaled * (b - 4 * a) / (4 * b)
    t * hornerSin (t * t / cosScale) 22 1 / cosScale

/-- `round(tabOne × c / cosScale)`, to nearest, halves upward (R132; `c` is not negative). -/
def roundScaled (tabOne c : Nat) : Nat := (2 * tabOne * min c cosScale + cosScale) / (2 * cosScale)

/-- `round(tabOne × cos(2π a/b))`, to nearest, halves away from zero (R132). -/
def nominalCos (tabOne a b : Nat) : Int :=
  let r := a % b
  let h := if b < 2 * r then b - r else r
  if 4 * h ≤ b then (roundScaled tabOne (quarterCos h b) : Int)
  else -(roundScaled tabOne (quarterCos (b - 2 * h) (2 * b)) : Int)

/-- `round(tabOne × sin(2π a/b))`: the cosine a quarter turn earlier. -/
def nominalSin (tabOne a b : Nat) : Int := nominalCos tabOne (4 * a + 3 * b) (4 * b)

/-- The frequency of a tone as numerator and denominator, in hertz (R10). -/
def toneFreq (t : Tone) (baud : Nat) : Nat × Nat :=
  match t with
  | .hz num den => (num, den)
  | .ofBaud num den => (num * baud, den)

/-- Whether a table is one of the sine tables. -/
def TableName.isSine : TableName → Bool
  | .cosL => false
  | .sinL => true
  | .cosH => false
  | .sinH => true
  | .cosC => false
  | .sinC => true

/-- The tone parameter a table belongs to (R132). -/
def toneOf (P : Params) : TableName → Tone
  | .cosL => P.fLow
  | .sinL => P.fLow
  | .cosH => P.fHigh
  | .sinH => P.fHigh
  | .cosC => P.fC
  | .sinC => P.fC

/-- The nominal content of a table of `len` entries (R132). -/
def nominalTable (P : Params) (name : TableName) (sampleRate baud len : Nat) : List Int :=
  let f := toneFreq (toneOf P name) baud
  (List.range len).map fun k =>
    if TableName.isSine name then nominalSin P.tabOne (f.1 * k) (f.2 * sampleRate)
    else nominalCos P.tabOne (f.1 * k) (f.2 * sampleRate)

/-- The content of a table: what was loaded for these rates, else the nominal content (R132, log entry 8). -/
def tableOf (P : Params) (name : TableName) (sampleRate baud len : Nat) : List Int :=
  match P.rom.find? fun e => decide (e.name = name ∧ e.sampleRate = sampleRate ∧ e.baud = baud) with
  | some e => e.entries
  | none => nominalTable P name sampleRate baud len

/-- The tables of an instance (R132): four for FSK, two for QPSK; the other variant's are empty. -/
structure Tables where
  cosL : List Int
  sinL : List Int
  cosH : List Int
  sinH : List Int
  cosC : List Int
  sinC : List Int
  deriving DecidableEq, Repr

/-- A codec instance (spec/10_state.md R30 to R33): the constants fixed at construction, then the mutable part. -/
structure Codec where
  /-- `codec_type`. -/
  kind         : CodecType
  /-- `L`. -/
  symLen       : Nat
  /-- `MIN_WIN`. -/
  minWin       : Nat
  /-- `FS`. -/
  fullScale    : Nat
  /-- `BPS`. -/
  bps          : Nat
  tables       : Tables
  synchronized : Bool
  /-- `bitacc_val`. -/
  bitVal       : Byte
  /-- `bitacc_cnt`. -/
  bitCnt       : Nat
  /-- `bytecnt`. -/
  byteCnt      : Nat
  deriving DecidableEq, Repr

/-- The variant a legal type code names (R40, R136). -/
def kindOfCode (t : Nat) : CodecType :=
  match t with
  | 0 => .fsk
  | _ => .qpsk

/-- The code number of a variant (R136). -/
def codeOfKind : CodecType → Nat
  | .fsk => 0
  | .qpsk => 1

/-- `L` (R11, R131). -/
def symLenOf (k : CodecType) (sampleRate baud : Nat) : Nat :=
  match k with
  | .fsk => sampleRate / baud
  | .qpsk => 2 * sampleRate / baud

/-- `BPS` (R11, R131). -/
def bpsOf : CodecType → Nat
  | .fsk => 1
  | .qpsk => 2

/-- `FS` (R11, R131). -/
def fullScaleOf (P : Params) : CodecType → Nat
  | .fsk => P.fullScaleFsk
  | .qpsk => P.fullScaleQpsk

/-- The tables of R132 for a variant and its rates. -/
def tablesOf (P : Params) (k : CodecType) (sampleRate baud : Nat) : Tables :=
  let len := symLenOf k sampleRate baud
  match k with
  | .fsk =>
    { cosL := tableOf P .cosL sampleRate baud len, sinL := tableOf P .sinL sampleRate baud len,
      cosH := tableOf P .cosH sampleRate baud len, sinH := tableOf P .sinH sampleRate baud len,
      cosC := [], sinC := [] }
  | .qpsk =>
    { cosL := [], sinL := [], cosH := [], sinH := [],
      cosC := tableOf P .cosC sampleRate baud len, sinC := tableOf P .sinC sampleRate baud len }

/-- A fresh instance (R131): "a brand-new codec instance for the requested type/rates". The legality of the rates
is the caller's check. -/
def buildCodec (P : Params) (k : CodecType) (sampleRate baud : Nat) : Codec :=
  { kind := k, symLen := symLenOf k sampleRate baud, minWin := Config.minWinSyms * symLenOf k sampleRate baud,
    fullScale := fullScaleOf P k, bps := bpsOf k, tables := tablesOf P k sampleRate baud,
    synchronized := false, bitVal := 0, bitCnt := 0, byteCnt := 0 }

/-- The fresh instance for a configuration (R30, R231). -/
def codecOfConfig (P : Params) (c : ModemConfig) : Codec :=
  buildCodec P (kindOfCode c.codecType) c.sampleRate.toNat c.baud.toNat

end Machine
end Sys2Proof
end

