-- ==== Sys2Proof/Machine/State.lean ====
section
/-!
DEFINITION. The state of the block (spec/10_state.md R22), its ports (R48), the statuses and events
(spec/60_exceptions.md R252, R256), and the state after reset (R49, spec/70_reset_and_hazards.md R280).
-/

namespace Sys2Proof
namespace Machine

/-- No operation and no step of the block raises a fault: "All failures are reported via return status /
caller-visible state, never by aborting the process" (R250), and spec/93_implementation_defined.md says of the
treatment `fault`: "Not used". The type has no constructor (safe: nothing stops where the spec goes on). -/
inductive Fault
  deriving DecidableEq, Repr

/-- The reasons an instruction can have no meaning in the model. -/
inductive Refusal where
  /-- Raised by an arm of `exec` whose instruction has no meaning yet; no arm is left that raises it (safe). -/
  | notModelled (mnemonic : String)
  deriving DecidableEq, Repr

/-- Status codes on `RSP` (R252). -/
inductive Status where
  | ok
  | deviceUnavailable
  | hwStreamError
  | state
  | corrupt
  | oversize
  | refused
  deriving DecidableEq, Repr

/-- The numbers of R252. -/
def Status.code : Status → Nat
  | .ok => 0
  | .deviceUnavailable => 1
  | .hwStreamError => 2
  | .state => 3
  | .corrupt => 4
  | .oversize => 5
  | .refused => 6

/-- The events of the `EVT` port (R256). -/
inductive Event where
  | byteProgress (received total : U16)
  | packetReceived
  | packetLost
  | configChanged
  deriving DecidableEq, Repr

/-- The numbers of R256. -/
def Event.code : Event → Nat
  | .byteProgress _ _ => 1
  | .packetReceived => 2
  | .packetLost => 3
  | .configChanged => 4

/-- The results of an operation (R82, column "out"). -/
inductive Result where
  | none
  | flag     (b : Bool)
  | chunk    (present : Bool) (c : List Sample)
  | sync     (locked : Bool) (rest : List Sample)
  | demod    (syncLost : Bool) (rest : List Sample) (out : List Byte)
  | samples  (x : List Sample)
  | kind     (t : Nat)
  | bytes    (b : List Byte)
  | checksum (w : U16)
  | packet   (present : Bool) (p : List Byte)
  | config   (c : ModemConfig)
  deriving DecidableEq, Repr

/-- What `RSP` carries: a status and the operation's results (R48). -/
structure Response where
  status : Status
  result : Result
  deriving DecidableEq, Repr

/-- An entry of the schedule (R72): a command on `CMD` from an agent, with the number of the agent among those of its
kind, since CALLER and CONSUMER are "any number" (R262); a reset request on `RST` (R280); or the CALLBACK's turn to
make the second access of a callback in progress (R224, log entry 14). -/
inductive Request where
  | op    (agent : Agent) (who : Nat) (command : Command)
  | turn
  | reset
  deriving DecidableEq, Repr

/-- Values by number, for the numbers that have one. -/
abbrev Cells (α : Type) := List (Nat × α)

/-- The canonical form: numbers strictly rising. -/
def Cells.wf {α : Type} (m : Cells α) : Bool := decide (m.Pairwise fun a b => a.1 < b.1)

/-- `RING_MEM` (spec/20_memory.md R60, R23): the written slots by number; a slot not listed was never written. -/
abbrev Memory := Cells (List Sample)

/-- The canonical form of `RING_MEM`. -/
abbrev Memory.wf (m : Memory) : Bool := Cells.wf m

/-- The InboundRing (R23 to R26). The head is no register (R26, D19). -/
structure Ring where
  slots : Memory
  tail  : Nat
  size  : Nat
  deriving DecidableEq, Repr

/-- An OutboundQueue entry (R27, R28): the cursor is a register beside the data. -/
structure OutEntry where
  data   : List Sample
  cursor : Nat
  deriving DecidableEq, Repr

/-- The state. The elements of R22 are `ring` to `demodulating`. `params` holds the machine's fixed parameters
(log entry 3). The rest is the boundary of R48: the schedule not yet served (`cmd`), who issued the operation being
served (`issuer`, `who`, R262), the last response (`rsp`), the last output block (`audOut`), the event trace (`evt`,
R257), the volumes last driven (`mix`); the packet each CONSUMER got last (`held`, R262; log entry 11); and whether a
callback is in progress, its first access made and its second still to come (`playing`, R224; log entry 14). -/
structure State where
  params       : Params
  ring         : Ring
  outq         : List OutEntry
  codec        : Codec
  work         : List Sample
  pend         : List Byte
  pkt          : List Byte
  pktq         : List (List Byte)
  config       : ModemConfig
  streaming    : Bool
  demodulating : Bool
  cmd          : List Request
  issuer       : Agent
  who          : Nat
  rsp          : Option Response
  audOut       : Option (List Sample)
  evt          : List Event
  mix          : Option (U16 × U16)
  held         : Cells (List Byte)
  playing      : Bool
  deriving DecidableEq, Repr

/-- A newly constructed ring (R49, R118): no slot written. -/
def Ring.fresh : Ring := { slots := [], tail := 0, size := 0 }

/-- The state after reset of a machine with parameters `P` (R49, R280). -/
def State.init (P : Params) : State :=
  { params := P
    ring := Ring.fresh
    outq := []
    codec := codecOfConfig P P.config0
    work := []
    pend := []
    pkt := []
    pktq := []
    config := P.config0
    streaming := false
    demodulating := false
    cmd := []
    issuer := .caller
    who := 0
    rsp := none
    audOut := none
    evt := []
    mix := none
    held := []
    playing := false }

/-- The machine right after reset, at the test defaults of R10 with `CONFIG0` = TC-A (log entries 3 and 4). -/
def State.reset : State := State.init Config.testParams

end Machine
end Sys2Proof
end

