-- ==== Sys2Proof/Machine/Operands.lean ====
section
/-!
DEFINITION. Operand forms: byte and bit order (spec/20_memory.md R63, R64), the bit groups of a byte
(spec/30_encoding.md R87), the conversion of an exact value to a sample, the samples a sequence is padded with
(R91), and the agents with the right to each operation (spec/60_exceptions.md R263).
-/

namespace Sys2Proof
namespace Machine

/-- The less significant byte of a 16-bit value (R64, R194). -/
def lowByte (n : Nat) : Byte := BitVec.ofNat 8 n

/-- The more significant byte of a 16-bit value (R64, R194). -/
def highByte (n : Nat) : Byte := BitVec.ofNat 8 (n / 256)

/-- Bit group `g` of a byte in groups of `bps` bits, most significant first: the bits
`v[7 − g×BPS : 8 − (g+1)×BPS]` of R143. -/
def bitGroup (bps : Nat) (v : Byte) (g : Nat) : List Bool :=
  (List.range bps).map fun j => v.getLsbD (7 - (g * bps + j))

/-- All bit groups of a byte, most significant first (R87). -/
def bitGroups (bps : Nat) (v : Byte) : List (List Bool) :=
  (List.range (8 / bps)).map (bitGroup bps v)

/-- The sample of an exact integer (R144). A value outside the i16 range has none the spec states, and a free value
stands for it (log entry 6). -/
def toSample (v : Int) : Sample :=
  if -32768 ≤ v ∧ v ≤ 32767 then BitVec.ofInt 16 v else Config.sampleOutOfRange v

/-- `ceil(n / chunk)`, the number of windows of a sequence of `n` samples (R91). -/
def windowsOf (n chunk : Nat) : Nat := (n + chunk - 1) / chunk

/-- `s ++ zeros(m × CHUNK − n)` (R91, R114). -/
def padToChunk (x : List Sample) (chunk : Nat) : List Sample :=
  x ++ zeros (windowsOf x.length chunk * chunk - x.length)

/-- Whether `n` fits a capacity, `none` being ∞ (R10, D32). -/
def withinCap (cap : Option Nat) (n : Nat) : Bool :=
  match cap with
  | none => true
  | some c => decide (n ≤ c)

/-- The agents with the right to an operation (R263). -/
def holders : Instr → List Agent
  | .ringPush _ => [.callback]
  | .ringPop => [.worker]
  | .ringClear => [.caller]
  | .outqPush _ => [.caller]
  | .outqPop _ => [.callback]
  | .outqClear => [.caller]
  | .codecSync _ => [.worker]
  | .codecDemod _ _ => [.worker]
  | .codecMod _ => [.caller]
  | .codecType => [.caller]
  | .codecNew _ _ _ => [.caller]
  | .pktPush _ => [.worker]
  | .pktFinished => [.worker, .consumer]
  | .pktValid => [.worker, .consumer]
  | .pktChecksum => [.worker, .consumer]
  | .pktNew => [.worker]
  | .pktBuild _ _ _ => [.caller]
  | .pktqPush _ => [.worker]
  | .pktqPop => [.consumer]
  | .engStartStream _ _ => [.caller]
  | .engStopStream => [.caller]
  | .engStartDemod => [.caller]
  | .engStopDemod => [.caller]
  | .engCallback _ => [.callback]
  | .engWorkerStep => [.worker]
  | .engTransmit _ => [.caller]
  | .engSetConfig _ => [.caller]
  | .engGetConfig => [.caller]

/-- An agent with the right to the operation a command decodes to: the one a command named by number alone is
issued by (log entry 24). -/
def defaultAgent (c : Command) : Agent :=
  match decode c with
  | .instr i => (holders i).headD .caller
  | .reserved _ => .caller
  | .badOperands _ => .caller

end Machine
end Sys2Proof
end

