-- ==== Sys2Proof/Machine/Flags.lean ====
section
/-!
DEFINITION. The derived flags and views (spec/10_state.md R38, R44; spec/44_packet.md R196, R197) and the
consumer-side views of a packet (spec/30_encoding.md R93, R94; R204). None is a register.
-/

namespace Sys2Proof
namespace Machine

/-- `p.cksum` (R38): the stored checksum. -/
def storedCksum (p : List Byte) : Nat := word16 (byteAt p 4) (byteAt p 5)

/-- The buffer with the checksum field read as zero (R197). -/
def zeroCksumField (p : List Byte) : List Byte :=
  if Config.headerSize ≤ p.length then (p.set 4 0).set 5 0 else p

/-- The sum of a buffer's 16-bit words, an odd trailing byte added individually (R66, R197). -/
def sumWords : List Byte → Nat
  | [] => 0
  | [a] => a.toNat
  | a :: b :: r => word16 a b + sumWords r

/-- End-around carry (R197): `while sum ≥ 65536: sum <- (sum mod 65536) + floor(sum / 65536)`. Every turn makes the
sum smaller, so `sum` turns are enough. -/
def foldCarry : Nat → Nat → Nat
  | 0, sum => sum
  | f + 1, sum => if 65536 ≤ sum then foldCarry f (sum % 65536 + sum / 65536) else sum

/-- `cksum16(p)` (R197): the one's-complement checksum. -/
def cksum16 (p : List Byte) : Nat :=
  let sum := sumWords (zeroCksumField p)
  65535 - foldCarry sum sum

/-- `valid(p)` (R196). -/
def valid (p : List Byte) : Bool := hasHeader p && decide (storedCksum p = cksum16 p)

/-- Ring empty (R44). -/
def ringEmpty (r : Ring) : Bool := decide (r.size = 0)

/-- Outq empty (R44). -/
def outqEmpty (q : List OutEntry) : Bool := q.isEmpty

/-- A header that declares fewer bytes than the header itself has (R193). -/
def malformedLength (p : List Byte) : Bool := hasHeader p && decide (totalOf p < Config.headerSize)

/-- `p.id` (R38). -/
def idOf (p : List Byte) : Byte := byteAt p 0

/-- `p.flags` (R38). -/
def flagsOf (p : List Byte) : Byte := byteAt p 1

/-- `FLAG_TEXT` is set (R94). -/
def isText (p : List Byte) : Bool := (flagsOf p).getLsbD Config.flagTextBit

/-- `FLAG_FILE` is set (R94). -/
def isFile (p : List Byte) : Bool := (flagsOf p).getLsbD Config.flagFileBit

/-- The payload (R92). -/
def payloadOf (p : List Byte) : List Byte := p.drop Config.headerSize

/-- The name field of the FilePayloadHeader (R93). -/
def fileNameOf (P : Params) (p : List Byte) : List Byte := (payloadOf p).take P.fileNameLen

/-- The 32-bit data length of the FilePayloadHeader, little-endian (R93). -/
def fileDataLen (P : Params) (p : List Byte) : Nat :=
  let h := (payloadOf p).drop P.fileNameLen
  word16 (byteAt h 0) (byteAt h 1) + 65536 * word16 (byteAt h 2) (byteAt h 3)

/-- The consumer-side corrupted-payload condition (R204, R251): not valid, or a file payload that disagrees with its
own data length. The block never raises it. -/
def corruptPayload (P : Params) (p : List Byte) : Bool :=
  !valid p || (isFile p && decide ((payloadOf p).length ≠ P.fileNameLen + 4 + fileDataLen P p))

end Machine
end Sys2Proof
end

