-- ==== Sys2Proof/Machine/Signal.lean ====
section
/-!
DEFINITION. The variant primitives of the codec (spec/41_codec_common.md R133, R134, R137, R144;
spec/42_codec_fsk.md R151 to R156; spec/43_codec_qpsk.md R171 to R176). A primitive's argument `w` is the sample
sequence from the window's start on: `power2 c w` is the spec's `power2(x, p)` for `w = x[p..]`.
-/

namespace Sys2Proof
namespace Machine

/-- The inner product of samples and table entries, exact (R133). -/
def dot : List Sample → List Int → Int
  | x :: xs, t :: ts => x.toInt * t + dot xs ts
  | [], _ => 0
  | _ :: _, [] => 0

/-- The table entries against a window of `n` samples: entry `k mod L` for sample `k` (R133). -/
def cyclic (t : List Int) (n : Nat) : List Int := (List.range n).map fun k => t.getD (k % t.length) 0

/-- `corr(x, p, n, T)` (R133), with `w = x[p..]`. -/
def corr (w : List Sample) (n : Nat) (t : List Int) : Int := dot (w.take n) (cyclic t n)

/-- The square of an integer. -/
def sq (a : Int) : Int := a * a

/-- `ML2`, the squared low-tone magnitude (R151). -/
def lowMag2 (c : Codec) (w : List Sample) : Int :=
  sq (corr w c.symLen c.tables.cosL) + sq (corr w c.symLen c.tables.sinL)

/-- `MH2`, the squared high-tone magnitude (R151). -/
def highMag2 (c : Codec) (w : List Sample) : Int :=
  sq (corr w c.symLen c.tables.cosH) + sq (corr w c.symLen c.tables.sinH)

/-- `C`, the cosine component (R171). -/
def cosComp (c : Codec) (w : List Sample) : Int := corr w c.symLen c.tables.cosC

/-- `S`, the sine component (R171). -/
def sinComp (c : Codec) (w : List Sample) : Int := corr w c.symLen c.tables.sinC

/-- `power2` (R152, R172). -/
def power2 (c : Codec) (w : List Sample) : Int :=
  match c.kind with
  | .fsk => max (lowMag2 c w) (highMag2 c w)
  | .qpsk => sq (cosComp c w) + sq (sinComp c w)

/-- The square of full scale in the units of `power2`: `(L × FS × TAB_ONE)²` (R134). -/
def scale2 (P : Params) (c : Codec) : Int := sq ((c.symLen * c.fullScale * P.tabOne : Nat) : Int)

/-- `above` (R134): `16 × power2 > (L × FS × TAB_ONE)²`, `THRESH` being 1/2. -/
def above (P : Params) (c : Codec) (w : List Sample) : Bool :=
  decide (sq (Config.threshNum : Int) * scale2 P c < sq (2 * (Config.threshDen : Int)) * power2 c w)

/-- `below` (R134): `16 × power2 < (L × FS × TAB_ONE)²`. -/
def below (P : Params) (c : Codec) (w : List Sample) : Bool :=
  decide (sq (2 * (Config.threshDen : Int)) * power2 c w < sq (Config.threshNum : Int) * scale2 P c)

/-- `disc`, the refinement discriminant over a two-symbol window (R153, R173). -/
def disc (c : Codec) (w : List Sample) : Int :=
  match c.kind with
  | .fsk => corr w (2 * c.symLen) c.tables.cosL - |corr w (2 * c.symLen) c.tables.sinL|
  | .qpsk =>
    (corr w (2 * c.symLen) c.tables.cosC + corr w (2 * c.symLen) c.tables.sinC) -
      |corr w (2 * c.symLen) c.tables.cosC - corr w (2 * c.symLen) c.tables.sinC|

/-- `confirm`, the start-symbol test (R154, R174). -/
def confirm (c : Codec) (w : List Sample) : Bool :=
  match c.kind with
  | .fsk => decide (lowMag2 c w < highMag2 c w)
  | .qpsk => decide (cosComp c w < 0) && decide (sinComp c w < 0)

/-- `decide`, the symbol's bits, first bit first (R155, R175). -/
def decideBits (c : Codec) (w : List Sample) : List Bool :=
  match c.kind with
  | .fsk => [decide (lowMag2 c w < highMag2 c w)]
  | .qpsk => [decide (cosComp c w < 0), decide (sinComp c w < 0)]

/-- `σ` of R176: −1 for a bit 1, +1 for a bit 0. -/
def signOf (b : Bool) : Int := if b then -1 else 1

/-- One sample of the FSK waveform: `trunc0(9 × FS × T[k] / (10 × TAB_ONE))` (R156, R144). -/
def fskSample (P : Params) (c : Codec) (t : Int) : Sample :=
  toSample (((Config.txAmplNum * c.fullScale : Nat) * t).tdiv (Config.txAmplDen * P.tabOne : Nat))

/-- One sample of the QPSK waveform: `trunc0(TX_AMPL × FS × QPSK_K × (σ1 × COS + σ0 × SIN) / TAB_ONE)`
(R176, R144). -/
def qpskSample (P : Params) (c : Codec) (b1 b0 : Bool) (cosine sine : Int) : Sample :=
  toSample (((Config.txAmplNum * c.fullScale * P.qpskKNum : Nat) *
      (signOf b1 * cosine + signOf b0 * sine)).tdiv (Config.txAmplDen * P.qpskKDen * P.tabOne : Nat))

/-- `wave(bits)`, the `L` samples of a symbol (R156, R176). The FSK symbol carries one bit, the QPSK symbol the
pair `(b1, b0)`. -/
def wave (P : Params) (c : Codec) (bits : List Bool) : List Sample :=
  match c.kind with
  | .fsk =>
    (if bits.getD 0 false then c.tables.cosH else c.tables.cosL).map (fskSample P c)
  | .qpsk =>
    List.zipWith (qpskSample P c (bits.getD 0 false) (bits.getD 1 false)) c.tables.cosC c.tables.sinC

/-- `IDLE`: the symbol of all-zero bits (R86, R88, R89). -/
def idleSymbol (P : Params) (c : Codec) : List Sample := wave P c (List.replicate c.bps false)

/-- `START`: the symbol of all-one bits (R86, R88, R89). -/
def startSymbol (P : Params) (c : Codec) : List Sample := wave P c (List.replicate c.bps true)

end Machine
end Sys2Proof
end

