-- ==== Sys2Proof/Machine/Modem.lean ====
section
/-!
DEFINITION. The three signal algorithms common to FSK and QPSK: synchronize (spec/41_codec_common.md R140),
demodulate (R141, R142) and modulate (R143, spec/30_encoding.md R86). A scan offset of the spec's pseudocode is
here the remaining sample sequence: the argument `w` of a loop is `x[i..]`, `x[j..]` or `x[o..]`. Each loop is
bounded by the number of samples; with `L ≥ 1` it ends before the bound does (log entry 9).
-/

namespace Sys2Proof
namespace Machine

/-- What `CODEC.SYNC` answers: `locked`, and the samples not consumed. -/
structure SyncResult where
  locked : Bool
  rest   : List Sample
  deriving DecidableEq, Repr

/-- The least offset `d` in `[0, n]` at which `f` is maximal, with the value there (R140 phase 2). -/
def bestOffset (f : Nat → Int) : Nat → Nat × Int
  | 0 => (0, f 0)
  | n + 1 =>
    let best := bestOffset f n
    if best.2 < f (n + 1) then (n + 1, f (n + 1)) else best

/-- Phase 2 (R140): the least `d` in `[0, L−1]` for which `disc` is maximal. -/
def refine (c : Codec) (w : List Sample) : Nat :=
  (bestOffset (fun d => disc c (w.drop d)) (c.symLen - 1)).1

/-- Phase 3 (R140): confirmation, in steps of one symbol, while a whole symbol remains. -/
def confirmScan (c : Codec) : Nat → List Sample → SyncResult
  | 0, w => { locked := false, rest := w }
  | f + 1, w =>
    if c.symLen ≤ w.length then
      if confirm c w then { locked := true, rest := w.drop c.symLen } else confirmScan c f (w.drop c.symLen)
    else { locked := false, rest := w }

/-- Phases 1 to 3 (R140): coarse detection in steps of one symbol while more than `MIN_WIN` samples remain. -/
def syncScan (P : Params) (c : Codec) : Nat → List Sample → SyncResult
  | 0, w => { locked := false, rest := w }
  | f + 1, w =>
    if c.minWin < w.length then
      if above P c w then confirmScan c w.length (w.drop (refine c w)) else syncScan P c f (w.drop c.symLen)
    else { locked := false, rest := w }

/-- `CODEC.SYNC x` on an unsynchronized instance (R140). -/
def syncSamples (P : Params) (c : Codec) (x : List Sample) : SyncResult := syncScan P c x.length x

/-- The instance after a synchronize: the flag is set on lock, and nothing else is written (R140). -/
def codecAfterSync (c : Codec) (r : SyncResult) : Codec :=
  { c with synchronized := c.synchronized || r.locked }

/-- Accumulate one decoded bit (R141). -/
def accumulate (c : Codec) (b : Bool) : Codec :=
  { c with bitVal := (c.bitVal <<< 1) ||| (if b then 1 else 0), bitCnt := c.bitCnt + 1 }

/-- Accumulate the bits of one symbol, first bit first (R142). -/
def accumulateAll (c : Codec) (bits : List Bool) : Codec := bits.foldl accumulate c

/-- Sync loss or the end of a block: the flag, the accumulator and the byte counter are cleared (R142). -/
def clearSync (c : Codec) : Codec := { c with synchronized := false, bitVal := 0, bitCnt := 0, byteCnt := 0 }

/-- A byte is complete: the accumulator is emptied and the byte counted (R142). -/
def countByte (c : Codec) : Codec := { c with bitVal := 0, bitCnt := 0, byteCnt := c.byteCnt + 1 }

/-- What `CODEC.DEMOD` answers: sync-lost or ok, the instance, the samples not consumed, the byte sequence. -/
structure DemodResult where
  lost  : Bool
  codec : Codec
  rest  : List Sample
  out   : List Byte
  deriving DecidableEq, Repr

/-- The loop of R142. -/
def demodLoop (P : Params) : Nat → Codec → List Sample → List Byte → DemodResult
  | 0, c, w, out => { lost := false, codec := c, rest := w, out := out }
  | f + 1, c, w, out =>
    if c.minWin ≤ w.length then
      if below P c w then { lost := true, codec := clearSync c, rest := w, out := out }
      else
        let c1 := accumulateAll c (decideBits c w)
        let w1 := w.drop c.symLen
        if c1.bitCnt = 8 then
          if c1.byteCnt + 1 = Config.blockBytes then
            { lost := false, codec := clearSync c1, rest := w1, out := out ++ [c1.bitVal] }
          else demodLoop P f (countByte c1) w1 (out ++ [c1.bitVal])
        else demodLoop P f c1 w1 out
    else { lost := false, codec := c, rest := w, out := out }

/-- `CODEC.DEMOD x, out` on a synchronized instance (R142). -/
def demodSamples (P : Params) (c : Codec) (x : List Sample) (out : List Byte) : DemodResult :=
  demodLoop P (x.length + 1) c x out

/-- The preamble: `PRE_IDLE` idle symbols and `PRE_START` start symbols (R86). -/
def preamble (P : Params) (c : Codec) : List Sample :=
  rep Config.preIdle (idleSymbol P c) ++ rep Config.preStart (startSymbol P c)

/-- The symbols of one byte, most significant bit group first (R87). -/
def byteSymbols (P : Params) (c : Codec) (v : Byte) : List Sample :=
  ((bitGroups c.bps v).map (wave P c)).flatten

/-- The preambles and data symbols of the bytes from number `i` on (R86, R143). -/
def dataSymbols (P : Params) (c : Codec) : Nat → List Byte → List Sample
  | _, [] => []
  | i, v :: vs =>
    (if i % Config.blockBytes = 0 then preamble P c else []) ++ byteSymbols P c v ++ dataSymbols P c (i + 1) vs

/-- `CODEC.MOD b` (R143). -/
def modulate (P : Params) (c : Codec) (b : List Byte) : List Sample :=
  dataSymbols P c 0 b ++ rep Config.nTrail (idleSymbol P c)

end Machine
end Sys2Proof
end

