-- ==== Sys2Proof/Machine/Ops.lean ====
section
/-!
DEFINITION. The named operations over the buffers, the framer, the codec register group and the ports, once each.
What a processor's exception entry is to an ISA is here the failing answer of R250 and R260: a status on `RSP` and
nothing else (`State.fail`, `State.refuse`); a return from it does not exist (R261).
-/

namespace Sys2Proof
namespace Machine

/-- The answer of every operation. -/
abbrev Answer := Host.Outcome State Fault Refusal

/-- An operation completes: `RSP` carries its status and results (R48, R252). -/
def State.respond (s : State) (st : Status) (r : Result) : State := { s with rsp := some { status := st, result := r } }

/-- The operation completes with status `OK`. -/
def done (s : State) (r : Result) : Answer := .next (s.respond .ok r)

/-- `raise <Status>` (R12, R250, R260): the operation ends, changes no state, and returns the status; a Boolean
result is false (R252). -/
def State.fail (s : State) (st : Status) (r : Result) : State := s.respond st r

/-- `refuse` (R12): no state changes, and the status is `REFUSED`. -/
def State.refuse (s : State) : State := s.fail .refused .none

/-- The answer of a refused request. -/
def refuse (s : State) : Answer := .next s.refuse

/-- The answer of a failed switch or transmission: the result is false (R252). -/
def failWith (s : State) (st : Status) : Answer := .next (s.fail st (.flag false))

/-- The rights check (R263): "An operation from an agent not listed for it is refused". -/
def withRight (i : Instr) (s : State) (k : Answer) : Answer :=
  if s.issuer ∈ holders i then k else refuse s

/-- `emit e` (R257): the event is appended to the trace. -/
def State.emit (s : State) (e : Event) : State := { s with evt := s.evt ++ [e] }

/-- `CHUNK` (R9): the chunk length of the current configuration. -/
def State.chunkLen (s : State) : Nat := s.config.chunk.toNat

/-! ### Values by number, and `RING_MEM` -/

/-- The value of a number. -/
def Cells.find {α : Type} (m : Cells α) (k : Nat) : Option α :=
  match m with
  | [] => none
  | e :: r => if e.1 = k then some e.2 else Cells.find r k

/-- Give a number a value, keeping the canonical form. -/
def Cells.write {α : Type} (m : Cells α) (k : Nat) (c : α) : Cells α :=
  match m with
  | [] => [(k, c)]
  | e :: r =>
    if k < e.1 then (k, c) :: e :: r
    else if e.1 = k then (k, c) :: r
    else e :: Cells.write r k c

/-- The samples of a slot that was never written: any values (U7, log entry 5). -/
def unwrittenSlot (slot chunk : Nat) : List Sample :=
  (List.range chunk).map fun k => Config.unwrittenSample (slot * chunk + k)

/-- `MemRead(RING_MEM, slot × CHUNK, CHUNK)` (R12, R60). -/
def Memory.read (m : Memory) (slot chunk : Nat) : List Sample := (m.find slot).getD (unwrittenSlot slot chunk)

/-! ### InboundRing -/

/-- `ring_head = (ring_tail − ring_size) mod RING_CAP` (R26), for `ring_tail` and `ring_size` in range. -/
def ringHead (cap : Nat) (r : Ring) : Nat := (r.tail + cap - r.size) % cap

/-- The slot of the retained chunk number `m`, counted from the oldest (R26). -/
def retainedSlot (cap : Nat) (r : Ring) (m : Nat) : Nat := (r.tail + cap - r.size + m) % cap

/-- `RING.PUSH c` (R110). -/
def ringPushed (cap : Nat) (r : Ring) (c : List Sample) : Ring :=
  { slots := r.slots.write r.tail c, tail := (r.tail + 1) % cap, size := min (r.size + 1) cap }

/-- The chunk `RING.POP` returns (R111): absent on an empty ring. -/
def ringOldest (cap chunk : Nat) (r : Ring) : Option (List Sample) :=
  if r.size = 0 then none else some (r.slots.read (ringHead cap r) chunk)

/-- The ring after `RING.POP` (R111): the size falls, and an empty ring stays as it is. -/
def ringPopped (r : Ring) : Ring := { r with size := r.size - 1 }

/-- `RING.CLEAR` (R112): the slots are not written. -/
def ringCleared (r : Ring) : Ring := { r with tail := 0, size := 0 }

/-! ### OutboundQueue -/

/-- The entry `OUTQ.PUSH s` makes (R114, R91). -/
def outEntryOf (x : List Sample) (chunk : Nat) : OutEntry := { data := padToChunk x chunk, cursor := 0 }

/-- The cases in which `OUTQ.PUSH s` is refused, in the order of R114: empty input, cursor range, depth. -/
def outqRefuses (P : Params) (chunk : Nat) (q : List OutEntry) (x : List Sample) : Bool :=
  decide (x.length = 0) || decide (2 ^ P.cursorW ≤ windowsOf x.length chunk * chunk) ||
    decide (P.outqDepth = some q.length)

/-- `OUTQ.PUSH s` when it is not refused (R114). -/
def outqPushed (chunk : Nat) (q : List OutEntry) (x : List Sample) : List OutEntry := q ++ [outEntryOf x chunk]

/-- The destination after `OUTQ.POP dst` (R115): the head entry's window, or `dst` untouched. -/
def outqWindow (chunk : Nat) (q : List OutEntry) (dst : List Sample) : List Sample :=
  match q with
  | [] => dst
  | e :: _ => (e.data.drop e.cursor).take chunk

/-- The queue after `OUTQ.POP` (R115): the cursor advances, and a fully read entry is retired. -/
def outqPopped (chunk : Nat) (q : List OutEntry) : List OutEntry :=
  match q with
  | [] => []
  | e :: r => if e.cursor + chunk = e.data.length then r else { e with cursor := e.cursor + chunk } :: r

/-! ### Packet framer -/

/-- The body part of `PKT.PUSH` (R192): up to `total − |pkt|` bytes are appended, the difference saturating at 0
(R193); the rest stays with the caller. -/
def pktTakeBody (pkt bytes : List Byte) : List Byte × List Byte :=
  let t := min (totalOf pkt - pkt.length) bytes.length
  (pkt ++ bytes.take t, bytes.drop t)

/-- `PKT.PUSH bytes` (R192): the packet, and the bytes not taken. -/
def pktPushed (pkt bytes : List Byte) : List Byte × List Byte :=
  if pkt.length = 0 then
    if bytes.length < Config.headerSize then (pkt, bytes)
    else pktTakeBody (bytes.take Config.headerSize) (bytes.drop Config.headerSize)
  else pktTakeBody pkt bytes

/-- The packet with its checksum field still zero (R194). -/
def pktDraft (id flags : Byte) (payload : List Byte) : List Byte :=
  let total := Config.headerSize + payload.length
  [id, flags, lowByte total, highByte total, 0, 0] ++ payload

/-- The packet `PKT.BUILD` returns (R194). -/
def pktBuilt (id flags : Byte) (payload : List Byte) : List Byte :=
  let p := pktDraft id flags payload
  (p.set 4 (lowByte (cksum16 p))).set 5 (highByte (cksum16 p))

/-- The packet the packet predicates speak of (R263): the in-progress packet for the WORKER, "the packet it got" for
a CONSUMER (R262, log entry 11); no other agent has one. -/
def State.packetInView (s : State) : Option (List Byte) :=
  match s.issuer with
  | .worker => some s.pkt
  | .consumer => s.held.find s.who
  | .callback => none
  | .caller => none

/-- A pure read of the packet in view; without one there is nothing to read, and the request is refused. -/
def readPacket (s : State) (f : List Byte → Result) : Answer :=
  match s.packetInView with
  | some p => done s (f p)
  | none => refuse s

/-! ### Engine switches -/

/-- The effect of `ENG.STOP_DEMOD` (R223). -/
def State.stopDemod (s : State) : State := { s with demodulating := false, ring := ringCleared s.ring }

/-- The effect of `ENG.STOP_STREAM` while streaming (R221): both buffers are cleared. It cancels no callback (R267): one
in progress has ended before a step serves the stop (`State.waits`; log entry 14). -/
def State.stopStream (s : State) : State :=
  { s with streaming := false, ring := ringCleared s.ring, outq := [] }

/-- `ENG.STOP_STREAM` as `ENG.SET_CONFIG` uses it: "a no-op when not streaming" (R231). -/
def State.stopStreamIfOn (s : State) : State := if s.streaming then s.stopStream else s

/-- The effect of `ENG.START_DEMOD` (R222): the ring is cleared, and the worker's own state is created empty. -/
def State.startDemod (s : State) : State :=
  { s with ring := ringCleared s.ring, work := [], pend := [], pkt := [], demodulating := true }

/-- The volume part of `ENG.SET_CONFIG` (R231): the two fields and the `MIX` port. -/
def State.applyVolume (s : State) (new : ModemConfig) : State :=
  { s with config := { s.config with inVol := new.inVol, outVol := new.outVol },
           mix := some (new.inVol, new.outVol) }

/-- Replacement of the buffer pair (R118). -/
def State.replaceBuffers (s : State) : State := { s with ring := Ring.fresh, outq := [] }

/-- The part of `ENG.SET_CONFIG` that runs when a field other than volume differs (R231). -/
def State.reconfigure (s : State) (new : ModemConfig) : State :=
  let s1 := s.stopDemod.stopStreamIfOn
  let s2 := if new.chunk ≠ s1.config.chunk then s1.replaceBuffers else s1
  { s2 with config := { new with inVol := s2.config.inVol, outVol := s2.config.outVol },
            codec := codecOfConfig s2.params new }.emit .configChanged

/-! ### The audio callback -/

/-- The first access of `ENG.CALLBACK` (R224): the push. Nothing is answered before the second. -/
def State.callbackPush (s : State) (captured : List Sample) : State :=
  { s with ring := ringPushed s.params.ringCap s.ring captured, playing := true, rsp := none }

/-- The block the second access of `ENG.CALLBACK` puts out (R224): the next window, or silence. -/
def State.callbackBlock (s : State) : List Sample := outqWindow s.chunkLen s.outq (zeros s.chunkLen)

/-- The second access of `ENG.CALLBACK` (R224): the pop; the block goes to `AUD_OUT`, and the CALLBACK is answered. It is
made only while streaming, since a stop of the stream waits for it (`State.waits`, `Inv.callback`). -/
def State.callbackPop (s : State) : State :=
  { s with outq := outqPopped s.chunkLen s.outq, audOut := some s.callbackBlock, issuer := .callback,
           playing := false, rsp := some ⟨.ok, .samples s.callbackBlock⟩ }

/-! ### The worker iteration -/

/-- Access A of R226: one pop, appended to the working buffer. -/
def State.workerPop (s : State) : State :=
  { s with ring := ringPopped s.ring,
           work := s.work ++ (ringOldest s.params.ringCap s.chunkLen s.ring).getD [] }

/-- The iteration of an unsynchronized codec (R226): synchronize, the outcome ignored. -/
def State.workerSync (s : State) : State :=
  let r := syncSamples s.params s.codec s.work
  { s with codec := codecAfterSync s.codec r, work := r.rest }

/-- Demodulation and framing (R226): the recovered bytes are appended to `pend`, and one `PKT.PUSH` runs. -/
def State.workerFrame (s : State) (r : DemodResult) : State :=
  { s with codec := r.codec, work := r.rest, pkt := (pktPushed s.pkt r.out).1, pend := (pktPushed s.pkt r.out).2 }

/-- `BYTE_PROGRESS` once the header is known (R226). -/
def State.workerProgress (s : State) : State :=
  if hasHeader s.pkt then
    s.emit (.byteProgress (BitVec.ofNat 16 s.pkt.length) (BitVec.ofNat 16 (totalOf s.pkt)))
  else s

/-- Delivery of a finished packet (R226): push, notify, replace by a new packet. -/
def State.workerDeliver (s : State) : State :=
  if finished s.pkt then { { s with pktq := s.pktq ++ [s.pkt] }.emit .packetReceived with pkt := [] } else s

/-- The reaction to sync-lost (R226): the packet and the pending bytes are dropped. -/
def State.workerLoss (s : State) (lost : Bool) : State :=
  if lost then { (if hasHeader s.pkt then s.emit .packetLost else s) with pkt := [], pend := [] } else s

/-- The iteration of a synchronized codec (R226), given what demodulation answered. -/
def State.workerDemod (s : State) (r : DemodResult) : State :=
  ((s.workerFrame r).workerProgress.workerDeliver).workerLoss r.lost

/-- One pass of the worker loop while demodulating (R226); `none` when a finite capacity would be exceeded, and then
the whole operation is refused (D32, R252; log entry 15). -/
def State.workerStep (s : State) : Option State :=
  let s1 := s.workerPop
  if withinCap s.params.workCap s1.work.length then
    if s1.work.length < Config.workMin then some s1
    else if s1.codec.synchronized then
      let r := demodSamples s1.params s1.codec s1.work s1.pend
      let s2 := s1.workerDemod r
      if withinCap s.params.pendCap r.out.length && withinCap s.params.pktqDepth s2.pktq.length then some s2
      else none
    else some s1.workerSync
  else none

end Machine
end Sys2Proof
end

