-- ==== Sys2Proof/Machine/Buffers.lean ====
section
/-!
DEFINITION. Units 0 and 1: the InboundRing and the OutboundQueue (spec/40_buffers.md R110 to R116).
-/

namespace Sys2Proof
namespace Machine

/-- `RING.PUSH c` (R110). -/
def execRingPush (c : List Sample) (s : State) : Answer :=
  withRight (.ringPush c) s <|
    if c.length = s.chunkLen then done { s with ring := ringPushed s.params.ringCap s.ring c } .none
    else refuse s

/-- `RING.POP` (R111). -/
def execRingPop (s : State) : Answer :=
  withRight .ringPop s <|
    match ringOldest s.params.ringCap s.chunkLen s.ring with
    | none => done s (.chunk false [])
    | some c => done { s with ring := ringPopped s.ring } (.chunk true c)

/-- `RING.CLEAR` (R112). -/
def execRingClear (s : State) : Answer :=
  withRight .ringClear s <| done { s with ring := ringCleared s.ring } .none

/-- `OUTQ.PUSH s` (R114). -/
def execOutqPush (x : List Sample) (s : State) : Answer :=
  withRight (.outqPush x) s <|
    if outqRefuses s.params s.chunkLen s.outq x then refuse s
    else done { s with outq := outqPushed s.chunkLen s.outq x } .none

/-- `OUTQ.POP dst` (R115). A destination of another size than `CHUNK` is refused (R82, R83). -/
def execOutqPop (dst : List Sample) (s : State) : Answer :=
  withRight (.outqPop dst) s <|
    if dst.length = s.chunkLen then
      done { s with outq := outqPopped s.chunkLen s.outq }
        (.chunk (!outqEmpty s.outq) (outqWindow s.chunkLen s.outq dst))
    else refuse s

/-- `OUTQ.CLEAR` (R116). -/
def execOutqClear (s : State) : Answer :=
  withRight .outqClear s <| done { s with outq := [] } .none

end Machine
end Sys2Proof
end

