-- ==== Sys2Proof/Machine/CodecOps.lean ====
section
/-!
DEFINITION. Unit 2: the codec operations (spec/41_codec_common.md R131, R136, R140, R142, R143).
-/

namespace Sys2Proof
namespace Machine

/-- `CODEC.SYNC x` (R140). On a synchronized instance the source gives it no meaning, and it is refused (D18). -/
def execCodecSync (x : List Sample) (s : State) : Answer :=
  withRight (.codecSync x) s <|
    if s.codec.synchronized then refuse s
    else
      let r := syncSamples s.params s.codec x
      done { s with codec := codecAfterSync s.codec r } (.sync r.locked r.rest)

/-- `CODEC.DEMOD x, out` (R142). On an unsynchronized instance it is refused (D18). -/
def execCodecDemod (x : List Sample) (out : List Byte) (s : State) : Answer :=
  withRight (.codecDemod x out) s <|
    if s.codec.synchronized then
      let r := demodSamples s.params s.codec x out
      done { s with codec := r.codec } (.demod r.lost r.rest r.out)
    else refuse s

/-- `CODEC.MOD b` (R143): reads the constants of the instance and writes no state (R76). -/
def execCodecMod (b : List Byte) (s : State) : Answer :=
  withRight (.codecMod b) s <| done s (.samples (modulate s.params s.codec b))

/-- `CODEC.TYPE` (R136). -/
def execCodecType (s : State) : Answer :=
  withRight .codecType s <| done s (.kind (codeOfKind s.codec.kind))

/-- `CODEC.NEW t, sample_rate, baud` (R131). It "may be issued only while neither a worker nor a stream runs"
(R75, R263, U4; log entry 20). Its three operands are integers of any size (R12). -/
def execCodecNew (t sampleRate baud : Int) (s : State) : Answer :=
  withRight (.codecNew t sampleRate baud) s <|
    if s.streaming || s.demodulating then refuse s
    else if decide (t = 0 ∨ t = 1) && ratesLegal sampleRate baud then
      done { s with codec := buildCodec s.params (kindOfCode t.toNat) sampleRate.toNat baud.toNat } .none
    else refuse s

end Machine
end Sys2Proof
end

