-- ==== Sys2Proof/Machine/Engine.lean ====
section
/-!
DEFINITION. Unit 5: the sequencer (spec/45_engine.md R220 to R231).
-/

namespace Sys2Proof
namespace Machine

/-- `ENG.START_STREAM dev_ok, open_ok` (R220); the tests stand in the order of R259. -/
def execEngStartStream (devOk openOk : Bool) (s : State) : Answer :=
  withRight (.engStartStream devOk openOk) s <|
    if s.streaming then failWith s .state
    else if devOk then
      if openOk then done { s with streaming := true } (.flag true) else failWith s .hwStreamError
    else failWith s .deviceUnavailable

/-- `ENG.STOP_STREAM` (R221). A step serves it between two callbacks only (`State.waits`). -/
def execEngStopStream (s : State) : Answer :=
  withRight .engStopStream s <|
    if s.streaming then done s.stopStream (.flag true) else failWith s .state

/-- `ENG.START_DEMOD` (R222). -/
def execEngStartDemod (s : State) : Answer :=
  withRight .engStartDemod s <|
    if s.streaming then
      if s.demodulating then failWith s .state else done s.startDemod (.flag true)
    else failWith s .state

/-- `ENG.STOP_DEMOD` (R223): "allowed in any state". -/
def execEngStopDemod (s : State) : Answer :=
  withRight .engStopDemod s <| done s.stopDemod .none

/-- `ENG.CALLBACK captured` (R224): its two accesses "are two atomic operations in this order, not one". This is the
first; the second is a step of its own (`State.callbackPop`), and other agents' operations may fall between them. "A
callback cannot nest in a callback" (R261): inside one it is refused, and `step` lets it wait instead. -/
def execEngCallback (captured : List Sample) (s : State) : Answer :=
  withRight (.engCallback captured) s <|
    if s.streaming && !s.playing then
      if captured.length = s.chunkLen then .next (s.callbackPush captured) else refuse s
    else refuse s

/-- `ENG.WORKER_STEP` (R226). -/
def execEngWorkerStep (s : State) : Answer :=
  withRight .engWorkerStep s <|
    if s.demodulating then
      match s.workerStep with
      | some t => done t .none
      | none => refuse s
    else refuse s

/-- `ENG.TRANSMIT b` (R228). -/
def execEngTransmit (b : List Byte) (s : State) : Answer :=
  withRight (.engTransmit b) s <|
    if b.length ≤ Config.maxTotal then
      if outqRefuses s.params s.chunkLen s.outq (modulate s.params s.codec b) then failWith s .refused
      else
        done { s with outq := outqPushed s.chunkLen s.outq (modulate s.params s.codec b) } (.flag true)
    else failWith s .oversize

/-- `ENG.SET_CONFIG new` (R231). Where it stops a stream, a step serves it between two callbacks only (`State.waits`). -/
def execEngSetConfig (new : ModemConfig) (s : State) : Answer :=
  withRight (.engSetConfig new) s <|
    if new.legal then
      if new.sameButVolume s.config then done (s.applyVolume new) .none
      else done ((s.applyVolume new).reconfigure new) .none
    else refuse s

/-- `ENG.GET_CONFIG` (R229). -/
def execEngGetConfig (s : State) : Answer :=
  withRight .engGetConfig s <| done s (.config s.config)

end Machine
end Sys2Proof
end

