-- ==== Sys2Proof/Machine/Packet.lean ====
section
/-!
DEFINITION. Units 3 and 4: the packet framer and the delivery queue (spec/44_packet.md R191 to R200).
-/

namespace Sys2Proof
namespace Machine

/-- `PKT.PUSH bytes` (R192). -/
def execPktPush (b : List Byte) (s : State) : Answer :=
  withRight (.pktPush b) s <|
    done { s with pkt := (pktPushed s.pkt b).1 } (.bytes (pktPushed s.pkt b).2)

/-- `PKT.FINISHED` (R195). -/
def execPktFinished (s : State) : Answer :=
  withRight .pktFinished s <| readPacket s fun p => .flag (finished p)

/-- `PKT.VALID` (R196). -/
def execPktValid (s : State) : Answer :=
  withRight .pktValid s <| readPacket s fun p => .flag (valid p)

/-- `PKT.CHECKSUM` (R197). -/
def execPktChecksum (s : State) : Answer :=
  withRight .pktChecksum s <| readPacket s fun p => .checksum (BitVec.ofNat 16 (cksum16 p))

/-- `PKT.NEW` (R191). -/
def execPktNew (s : State) : Answer :=
  withRight .pktNew s <| done { s with pkt := [] } .none

/-- `PKT.BUILD id, flags, payload` (R194). -/
def execPktBuild (id flags : Byte) (payload : List Byte) (s : State) : Answer :=
  withRight (.pktBuild id flags payload) s <|
    if payload.length ≤ Config.maxPayload then done s (.bytes (pktBuilt id flags payload))
    else .next (s.fail .oversize .none)

/-- `PKTQ.PUSH p` (R199): refused at a finite `PKTQ_DEPTH` that is reached (D32). The operand is a packet (R82) and the
elements are complete packet buffers (R39); another byte sequence is refused (R83, log entry 19). -/
def execPktqPush (p : List Byte) (s : State) : Answer :=
  withRight (.pktqPush p) s <|
    if finished p && withinCap s.params.pktqDepth (s.pktq.length + 1) then done { s with pktq := s.pktq ++ [p] } .none
    else refuse s

/-- `PKTQ.POP` (R200). The packet goes to the CONSUMER that issued it, who holds it (log entry 11). -/
def execPktqPop (s : State) : Answer :=
  withRight .pktqPop s <|
    match s.pktq with
    | [] => done s (.packet false [])
    | p :: r => done { s with pktq := r, held := s.held.write s.who p } (.packet true p)

end Machine
end Sys2Proof
end

