-- ==== Sys2Proof/Machine/Dispatch.lean ====
section
/-!
DEFINITION. One arm per operation of spec/30_encoding.md R81.
-/

namespace Sys2Proof
namespace Machine

def exec (i : Instr) (s : State) : Host.Outcome State Fault Refusal :=
  match i with
  | .ringPush c => Sys2Proof.Machine.execRingPush c s
  | .ringPop => Sys2Proof.Machine.execRingPop s
  | .ringClear => Sys2Proof.Machine.execRingClear s
  | .outqPush x => Sys2Proof.Machine.execOutqPush x s
  | .outqPop dst => Sys2Proof.Machine.execOutqPop dst s
  | .outqClear => Sys2Proof.Machine.execOutqClear s
  | .codecSync x => Sys2Proof.Machine.execCodecSync x s
  | .codecDemod x out => Sys2Proof.Machine.execCodecDemod x out s
  | .codecMod b => Sys2Proof.Machine.execCodecMod b s
  | .codecType => Sys2Proof.Machine.execCodecType s
  | .codecNew t sampleRate baud => Sys2Proof.Machine.execCodecNew t sampleRate baud s
  | .pktPush b => Sys2Proof.Machine.execPktPush b s
  | .pktFinished => Sys2Proof.Machine.execPktFinished s
  | .pktValid => Sys2Proof.Machine.execPktValid s
  | .pktChecksum => Sys2Proof.Machine.execPktChecksum s
  | .pktNew => Sys2Proof.Machine.execPktNew s
  | .pktBuild id flags payload => Sys2Proof.Machine.execPktBuild id flags payload s
  | .pktqPush p => Sys2Proof.Machine.execPktqPush p s
  | .pktqPop => Sys2Proof.Machine.execPktqPop s
  | .engStartStream devOk openOk => Sys2Proof.Machine.execEngStartStream devOk openOk s
  | .engStopStream => Sys2Proof.Machine.execEngStopStream s
  | .engStartDemod => Sys2Proof.Machine.execEngStartDemod s
  | .engStopDemod => Sys2Proof.Machine.execEngStopDemod s
  | .engCallback captured => Sys2Proof.Machine.execEngCallback captured s
  | .engWorkerStep => Sys2Proof.Machine.execEngWorkerStep s
  | .engTransmit b => Sys2Proof.Machine.execEngTransmit b s
  | .engSetConfig new => Sys2Proof.Machine.execEngSetConfig new s
  | .engGetConfig => Sys2Proof.Machine.execEngGetConfig s

end Machine
end Sys2Proof
end

