-- ==== Sys2Proof/Machine/Requests.lean ====
section
/-!
DEFINITION. The `CMD` and `RST` ports: accepting a request, the reset request (spec/70_reset_and_hazards.md R280),
and placing a request for the next step.
-/

namespace Sys2Proof
namespace Machine

/-- A command is accepted: it leaves the list of pending requests, and its agent is the issuer (R262). -/
def State.accept (s : State) (agent : Agent) (who : Nat) (rest : List Request) : State :=
  { s with cmd := rest, issuer := agent, who := who }

/-- The operation stops a running stream: `ENG.STOP_STREAM` (R221), and `ENG.SET_CONFIG` of a legal configuration in
which a field other than volume differs (R231). -/
def State.stopsStream (s : State) : Instr → Bool
  | .ringPush _ => false
  | .ringPop => false
  | .ringClear => false
  | .outqPush _ => false
  | .outqPop _ => false
  | .outqClear => false
  | .codecSync _ => false
  | .codecDemod _ _ => false
  | .codecMod _ => false
  | .codecType => false
  | .codecNew _ _ _ => false
  | .pktPush _ => false
  | .pktFinished => false
  | .pktValid => false
  | .pktChecksum => false
  | .pktNew => false
  | .pktBuild _ _ _ => false
  | .pktqPush _ => false
  | .pktqPop => false
  | .engStartStream _ _ => false
  | .engStopStream => true
  | .engStartDemod => false
  | .engStopDemod => false
  | .engCallback _ => false
  | .engWorkerStep => false
  | .engTransmit _ => false
  | .engSetConfig new => new.legal && !new.sameButVolume s.config
  | .engGetConfig => false

/-- What finds a callback in progress ended (log entry 14): the CALLBACK's own requests, whose operations take effect in
the order it issues them (R72, R261), and its turn; a stop of the stream, since no operation is cancellable in its middle
(R267) and no callback occurs after the stop (R221); and a reset request (log entry 13). -/
def State.waits (s : State) : Request → Bool
  | .op agent _ command =>
    decide (agent = .callback) ||
      match decode command with
      | .instr i => decide (agent ∈ holders i) && s.stopsStream i
      | .reserved _ => false
      | .badOperands _ => false
  | .turn => true
  | .reset => true

/-- The next step is the second access of a callback in progress (R224): the schedule gives the CALLBACK its turn, has
nothing else, or has a request that waits for it. -/
def State.callbackDue (s : State) : Bool :=
  s.playing && match s.cmd with
    | [] => true
    | r :: _ => s.waits r

/-- The schedule after a turn of the CALLBACK. -/
def afterTurn : List Request → List Request
  | [] => []
  | .turn :: rest => rest
  | .op agent who command :: rest => .op agent who command :: rest
  | .reset :: rest => .reset :: rest

/-- The step in which a callback in progress ends. -/
def State.finishCallback (s : State) : State := { s.callbackPop with cmd := afterTurn s.cmd }

/-- A reset request (R280): "every state element has the value of the table" R49; requests behind it are still
pending, and the event trace, which the outside has seen, is kept (log entry 13). -/
def State.resetWith (s : State) (rest : List Request) : State :=
  { State.init s.params with cmd := rest, evt := s.evt }

/-- A request becomes the oldest pending one. -/
def State.placeRequest (s : State) (r : Request) : State := { s with cmd := r :: s.cmd }

/-- The request an opcode-table word stands for (log entry 24). -/
def tableRequest (w : Nat) : Request := .op (defaultAgent (tableCommand w)) 0 (tableCommand w)

/-- The state whose very next step serves the request of an opcode-table word: the request is the oldest pending one,
and no callback it would wait for is in progress (log entry 24). -/
def State.fetchWord (s : State) (w : Nat) : State :=
  { s.placeRequest (tableRequest w) with playing := s.playing && !s.waits (tableRequest w) }

end Machine
end Sys2Proof
end

