-- ==== Sys2Proof/Machine/Step.lean ====
section
/-!
DEFINITION. One step of the block: the oldest pending request is served (log entry 2).
-/

namespace Sys2Proof
namespace Machine

/-- One step: the second access of a callback in progress when it is due, else the oldest request. With nothing
pending "the block does nothing until an operation is issued" (R280), and the state stays. A turn of the CALLBACK with
no callback in progress passes. -/
def step (s : State) : Host.Outcome State Fault Refusal :=
  if s.callbackDue then .next s.finishCallback
  else
    match s.cmd with
    | [] => .next s
    | .reset :: rest => .next (s.resetWith rest)
    | .turn :: rest => .next { s with cmd := rest }
    | .op agent who command :: rest =>
      match decode command with
      | .instr i => exec i (s.accept agent who rest)
      | .reserved _ => refuse (s.accept agent who rest)
      | .badOperands _ => refuse (s.accept agent who rest)

/-- The state with the command of an opcode-table word as its oldest pending request, from an agent with the right
to it. -/
def State.withFetchWord (s : State) (_nbits w : Nat) : State := s.fetchWord w

end Machine
end Sys2Proof
end

