-- ==== Sys2Proof/Safety.lean ====
section
/-!
DEFINITION. What the claims are stated in: the legal parameters (spec/00_scope.md R10), the invariants of the state
(spec/10_state.md R22 to R40), a careful state (spec/93_implementation_defined.md U1 to U6), and the obligations on
the tone parameters that the round trip needs (spec/42_codec_fsk.md R157, spec/43_codec_qpsk.md R177).
-/

namespace Sys2Proof
namespace Machine

/-- A finite capacity is positive (R10). -/
abbrev CapLegal (cap : Option Nat) : Prop := cap ≠ some 0

/-- `0 < f < SAMPLE_RATE/2` for the frequency `f = num/den` hertz (R10). -/
abbrev FreqLegal (f : Nat × Nat) (sampleRate : Nat) : Prop := 0 < f.1 ∧ 0 < f.2 ∧ 2 * f.1 < sampleRate * f.2

/-- The frequency parameters are legal at these rates (R10): each in range, and the two FSK tones distinct. -/
abbrev TonesLegal (P : Params) (sampleRate baud : Nat) : Prop :=
  FreqLegal (toneFreq P.fLow baud) sampleRate ∧ FreqLegal (toneFreq P.fHigh baud) sampleRate ∧
  FreqLegal (toneFreq P.fC baud) sampleRate ∧
  (toneFreq P.fLow baud).1 * (toneFreq P.fHigh baud).2 ≠ (toneFreq P.fHigh baud).1 * (toneFreq P.fLow baud).2

/-- The variant a table belongs to (R132). -/
def kindOfTable : TableName → CodecType
  | .cosL => .fsk
  | .sinL => .fsk
  | .cosH => .fsk
  | .sinH => .fsk
  | .cosC => .qpsk
  | .sinC => .qpsk

/-- A table has `len` entries in `[−TAB_ONE, TAB_ONE]` (R132). -/
abbrev TableLegal (tabOne len : Nat) (t : List Int) : Prop :=
  t.length = len ∧ ∀ v ∈ t, -(tabOne : Int) ≤ v ∧ v ≤ (tabOne : Int)

/-- The legal values of the parameters (R8, R10), the tones at the rates of `CONFIG0` (log entry 3). -/
abbrev ParamsLegal (P : Params) : Prop :=
  1 ≤ P.ringCap ∧ TonesLegal P P.config0.sampleRate.toNat P.config0.baud.toNat ∧
  (P.fullScaleFsk = 32767 ∨ P.fullScaleFsk = 32768) ∧ (P.fullScaleQpsk = 32767 ∨ P.fullScaleQpsk = 32768) ∧
  1 ≤ P.tabOne ∧
  (∀ e ∈ P.rom, TableLegal P.tabOne (symLenOf (kindOfTable e.name) e.sampleRate e.baud) e.entries) ∧
  1 ≤ P.qpskKNum ∧ 1 ≤ P.qpskKDen ∧ 10000 * P.qpskKNum ≤ 7071 * P.qpskKDen ∧
  CapLegal P.outqDepth ∧ CapLegal P.workCap ∧ CapLegal P.pendCap ∧ CapLegal P.pktqDepth ∧
  1 ≤ P.cursorW ∧ 1 ≤ P.fileNameLen ∧ P.config0.legal = true

/-- The InboundRing (R24 to R26): the ranges of tail and size, slots of `CHUNK` samples in canonical form, and every
retained slot written, so that no slot is read before it is written. -/
abbrev RingWf (cap chunk : Nat) (r : Ring) : Prop :=
  Memory.wf r.slots = true ∧ r.tail < cap ∧ r.size ≤ cap ∧
  (∀ e ∈ r.slots, e.1 < cap ∧ e.2.length = chunk) ∧
  ∀ m < r.size, (r.slots.find (retainedSlot cap r m)).isSome = true

/-- An OutboundQueue entry (R29): whole windows, a cursor at a window's start inside the data, indexable in
`CURSOR_W` bits. -/
abbrev EntryWf (cursorW chunk : Nat) (e : OutEntry) : Prop :=
  e.data.length % chunk = 0 ∧ chunk ≤ e.data.length ∧ e.cursor % chunk = 0 ∧ e.cursor < e.data.length ∧
  e.data.length < 2 ^ cursorW

/-- The OutboundQueue (R29): only the head entry has a non-zero cursor, and the depth is within its limit. -/
abbrev OutqWf (P : Params) (chunk : Nat) (q : List OutEntry) : Prop :=
  (∀ e ∈ q, EntryWf P.cursorW chunk e) ∧ (∀ e ∈ q.tail, e.cursor = 0) ∧ withinCap P.outqDepth q.length = true

/-- The tables of an instance (R132). -/
abbrev TablesWf (P : Params) (c : Codec) : Prop :=
  match c.kind with
  | .fsk =>
    TableLegal P.tabOne c.symLen c.tables.cosL ∧ TableLegal P.tabOne c.symLen c.tables.sinL ∧
    TableLegal P.tabOne c.symLen c.tables.cosH ∧ TableLegal P.tabOne c.symLen c.tables.sinH
  | .qpsk => TableLegal P.tabOne c.symLen c.tables.cosC ∧ TableLegal P.tabOne c.symLen c.tables.sinC

/-- The constants of an instance (R11, R30). -/
abbrev CodecConstWf (P : Params) (c : Codec) : Prop :=
  1 ≤ c.symLen ∧ c.minWin = Config.minWinSyms * c.symLen ∧ c.bps = bpsOf c.kind ∧
  c.fullScale = fullScaleOf P c.kind ∧ TablesWf P c

/-- Two instances have the same constant part (R30). -/
abbrev SameConst (a b : Codec) : Prop :=
  a.kind = b.kind ∧ a.symLen = b.symLen ∧ a.minWin = b.minWin ∧ a.fullScale = b.fullScale ∧ a.bps = b.bps ∧
    a.tables = b.tables

/-- The mutable registers of an instance (R32 to R34): fewer than 8 bits held, the value below `2^count`, whole
symbols only, the byte counter below `BLOCK_BYTES`, and both counters 0 when not synchronized. -/
abbrev CodecRegsWf (c : Codec) : Prop :=
  c.bitCnt < 8 ∧ c.bitVal.toNat < 2 ^ c.bitCnt ∧ c.bitCnt % bpsOf c.kind = 0 ∧ c.byteCnt < Config.blockBytes ∧
  (c.synchronized = false → c.bitCnt = 0 ∧ c.byteCnt = 0)

/-- The in-progress packet (R37, R190): empty or with its header, at most 65535 bytes, and never past both its
header and its declared length (R195). -/
abbrev PktWf (p : List Byte) : Prop :=
  p.length = 0 ∨ (Config.headerSize ≤ p.length ∧ p.length ≤ max Config.headerSize (totalOf p))

/-- The invariant of the block's state. -/
structure Inv (s : State) : Prop where
  params  : ParamsLegal s.params
  config  : s.config.legal = true
  ring    : RingWf s.params.ringCap s.chunkLen s.ring
  outq    : OutqWf s.params s.chunkLen s.outq
  codec   : CodecConstWf s.params s.codec
  regs    : CodecRegsWf s.codec
  pkt     : PktWf s.pkt
  work    : withinCap s.params.workCap s.work.length = true
  pend    : withinCap s.params.pendCap s.pend.length = true
  pktq    : withinCap s.params.pktqDepth s.pktq.length = true
  packets : ∀ p ∈ s.pktq, finished p = true
  held    : Cells.wf s.held = true ∧ ∀ e ∈ s.held, finished e.2 = true
  /-- A callback is in progress only while streaming (R221, R258, R262): a stop of the stream waits for its end. -/
  callback : s.playing = true → s.streaming = true

/-- The chunks the ring retains, oldest first (R26). -/
def ringContents (cap chunk : Nat) (r : Ring) : List (List Sample) :=
  (List.range r.size).map fun m => r.slots.read (retainedSlot cap r m) chunk

/-- What `n` pops of the queue deliver, in order, and the queue they leave (R117). -/
def playOut (chunk : Nat) : Nat → List OutEntry → List Sample × List OutEntry
  | 0, q => ([], q)
  | n + 1, q =>
    (outqWindow chunk q (zeros chunk) ++ (playOut chunk n (outqPopped chunk q)).1,
      (playOut chunk n (outqPopped chunk q)).2)

/-- The framer fed a byte stream in fragments: each is appended to the caller's buffer, and `PKT.PUSH` is called on
that buffer (R201). The packet and the buffer after the last fragment. -/
def feedFragments : List Byte × List Byte → List (List Byte) → List Byte × List Byte
  | s, [] => s
  | s, f :: fs => feedFragments (pktPushed s.1 (s.2 ++ f)) fs

/-- A receiver over a finite sample sequence (R145): in every round the instance synchronizes if it is not
synchronized and demodulates if it is. The bytes after `n` rounds. -/
def receive (P : Params) : Nat → Codec → List Sample → List Byte → List Byte
  | 0, _, _, out => out
  | n + 1, c, x, out =>
    if c.synchronized then
      receive P n (demodSamples P c x out).codec (demodSamples P c x out).rest (demodSamples P c x out).out
    else receive P n (codecAfterSync c (syncSamples P c x)) (syncSamples P c x).rest out

/-- The frequency parameters are legal at the rates in force (R10). No rule refuses a configuration at whose rates
they are not (R230), and no rule then promises anything of the link. -/
abbrev State.TonesInRange (s : State) : Prop :=
  TonesLegal s.params s.config.sampleRate.toNat s.config.baud.toNat

/-- The event reports a header that declares a length below its own (R256, R193). -/
def Event.malformed : Event → Bool
  | .byteProgress _ total => decide (total.toNat < Config.headerSize)
  | .packetReceived => false
  | .packetLost => false
  | .configChanged => false

/-- The run has taken a header that declares a length below its own (R193, U6): the in-progress packet has one, or a
worker iteration took one. An iteration reports every header it ends with, also one it then drops for a sync loss
(R226), and the event trace keeps the report, so that "the run proves nothing from that point". -/
def State.tookMalformed (s : State) : Bool := malformedLength s.pkt || s.evt.any Event.malformed

/-- A careful state: the last request was not refused, the run has taken no header that declares a length below its own
(U1 to U6; log entry 16), and the tones are in range (R10). A run through a state that is not careful proves nothing
about the source's block. -/
def Careful (s : State) : Prop :=
  (∀ r, s.rsp = some r → r.status ≠ .refused) ∧ s.tookMalformed = false ∧ s.TonesInRange

/-- The obligations on an instance's tones or tables that the round trip needs (R157, R177): (a) every bit group's
waveform decides to itself, and for FSK the low tone's magnitude is strictly the larger on `wave(0)`, as the high tone's
is on `wave(1)` by its decision; (b) every waveform is above the threshold; (c) inside a run of idle symbols the
discriminant over one symbol interval has its only maximum at the symbol boundary. -/
structure Suitable (P : Params) (c : Codec) : Prop where
  apart     : c.kind = .fsk → highMag2 c (wave P c [false]) < lowMag2 c (wave P c [false])
  decides   : ∀ bits : List Bool, bits.length = c.bps → decideBits c (wave P c bits) = bits
  loud      : ∀ bits : List Bool, bits.length = c.bps → above P c (wave P c bits) = true
  aligned   : ∀ d, 1 ≤ d → d < c.symLen →
                disc c ((rep 3 (idleSymbol P c)).drop d) < disc c (rep 3 (idleSymbol P c))

end Machine
end Sys2Proof
end

