-- ==== Sys2Proof/Certificates/Slice0/Obligations.lean ====
section
/-!
DEFINITION. The statements of this package, one `def Obligations.<Name> : Prop` each. OBLIGATIONS.json lists them.
-/

open Sys2Proof
open Sys2Proof.Machine

/-! ### InboundRing -/

/-- R110: a push of a chunk of `CHUNK` samples writes the tail's slot and no other, advances the tail modulo
`RING_CAP` and raises the size up to `RING_CAP`; a chunk of another length is refused. Nothing else changes. -/
def Obligations.RingPushStoresAtTail : Prop :=
  ∀ (s : State) (c : List Sample), s.issuer = .callback →
    (encode (.ringPush c)).opcode = 0x00 ∧
    (c.length ≠ s.chunkLen → exec (.ringPush c) s = .next { s with rsp := some ⟨.refused, .none⟩ }) ∧
    (c.length = s.chunkLen → ∃ m : Memory,
      exec (.ringPush c) s = .next
        { s with ring := { slots := m, tail := (s.ring.tail + 1) % s.params.ringCap,
                           size := min (s.ring.size + 1) s.params.ringCap },
                 rsp := some ⟨.ok, .none⟩ } ∧
      m.find s.ring.tail = some c ∧ ∀ k, k ≠ s.ring.tail → m.find k = s.ring.slots.find k)

/-- R111: a pop of an empty ring answers absent and changes nothing; otherwise it answers the slot
`(ring_tail − ring_size) mod RING_CAP` and lowers the size; tail and slots stay. -/
def Obligations.RingPopReturnsOldest : Prop :=
  ∀ (s : State) (h : Nat), s.issuer = .worker → s.ring.size ≤ s.params.ringCap → 1 ≤ s.params.ringCap →
    (h : Int) = ((s.ring.tail : Int) - (s.ring.size : Int)) % (s.params.ringCap : Int) →
    (encode .ringPop).opcode = 0x01 ∧
    (s.ring.size = 0 → exec .ringPop s = .next { s with rsp := some ⟨.ok, .chunk false []⟩ }) ∧
    (s.ring.size ≠ 0 → exec .ringPop s = .next
      { s with ring := { s.ring with size := s.ring.size - 1 },
               rsp := some ⟨.ok, .chunk true (s.ring.slots.read h s.chunkLen)⟩ })

/-- R112: clear sets size and tail to 0 and writes no slot; nothing else changes. -/
def Obligations.RingClearEmpties : Prop :=
  ∀ s : State, s.issuer = .caller →
    (encode .ringClear).opcode = 0x02 ∧
    exec .ringClear s = .next { s with ring := { s.ring with size := 0, tail := 0 }, rsp := some ⟨.ok, .none⟩ }

/-- R113: after any pushes the retained chunks are the last `RING_CAP` of the old contents followed by the pushed
chunks; a pop returns the oldest and retains the others. -/
def Obligations.RingKeepsTheNewestInOrder : Prop :=
  ∀ (cap chunk : Nat) (r : Ring) (cs : List (List Sample)), r.tail < cap → r.size ≤ cap →
    ringContents cap chunk (cs.foldl (ringPushed cap) r) =
      (ringContents cap chunk r ++ cs).drop ((ringContents cap chunk r ++ cs).length - cap) ∧
    ringOldest cap chunk r = (ringContents cap chunk r).head? ∧
    ringContents cap chunk (ringPopped r) = (ringContents cap chunk r).tail

/-! ### OutboundQueue -/

/-- R114: with `m = ceil(n / CHUNK)`, a push appends one entry of the samples and `m × CHUNK − n` zeros with cursor 0,
or is refused with nothing changed: empty input, an entry the cursor cannot index, a full queue. -/
def Obligations.OutqPushPadsAndAppends : Prop :=
  ∀ (s : State) (x : List Sample) (m : Nat), s.issuer = .caller → 1 ≤ s.chunkLen →
    x.length ≤ m * s.chunkLen → m * s.chunkLen < x.length + s.chunkLen →
    (encode (.outqPush x)).opcode = 0x10 ∧
    (x.length = 0 ∨ 2 ^ s.params.cursorW ≤ m * s.chunkLen ∨ s.params.outqDepth = some s.outq.length →
      exec (.outqPush x) s = .next { s with rsp := some ⟨.refused, .none⟩ }) ∧
    (x.length ≠ 0 → m * s.chunkLen < 2 ^ s.params.cursorW → s.params.outqDepth ≠ some s.outq.length →
      exec (.outqPush x) s = .next
        { s with outq := s.outq ++ [{ data := x ++ zeros (m * s.chunkLen - x.length), cursor := 0 }],
                 rsp := some ⟨.ok, .none⟩ })

/-- R115: a pop of an empty queue leaves the destination untouched; otherwise it delivers the head entry's window,
advances its cursor, and retires it when the cursor reaches the end. A destination of another size is refused. -/
def Obligations.OutqPopDeliversTheHeadWindow : Prop :=
  ∀ (s : State) (dst : List Sample), s.issuer = .callback →
    (encode (.outqPop dst)).opcode = 0x11 ∧
    (dst.length ≠ s.chunkLen → exec (.outqPop dst) s = .next { s with rsp := some ⟨.refused, .none⟩ }) ∧
    (dst.length = s.chunkLen → s.outq = [] →
      exec (.outqPop dst) s = .next { s with rsp := some ⟨.ok, .chunk false dst⟩ }) ∧
    (∀ (e : OutEntry) (r : List OutEntry), dst.length = s.chunkLen → s.outq = e :: r →
      exec (.outqPop dst) s = .next
        { s with outq := if e.cursor + s.chunkLen = e.data.length then r
                         else { data := e.data, cursor := e.cursor + s.chunkLen } :: r,
                 rsp := some ⟨.ok, .chunk true ((e.data.drop e.cursor).take s.chunkLen)⟩ })

/-- R116: clear drops every entry, and nothing else changes. -/
def Obligations.OutqClearDropsEveryEntry : Prop :=
  ∀ s : State, s.issuer = .caller →
    (encode .outqClear).opcode = 0x12 ∧
    exec .outqClear s = .next { s with outq := [], rsp := some ⟨.ok, .none⟩ }

/-- R117: `ceil(n / CHUNK)` pops of a pushed sequence deliver it followed by zero padding and leave the entries behind
it; a pop of an empty queue leaves the destination unchanged. -/
def Obligations.OutqReplaysPushedSamples : Prop :=
  ∀ (chunk : Nat) (x : List Sample) (q : List OutEntry) (dst : List Sample), 1 ≤ chunk → 1 ≤ x.length →
    playOut chunk (windowsOf x.length chunk) (outEntryOf x chunk :: q) =
      (x ++ zeros (windowsOf x.length chunk * chunk - x.length), q) ∧
    outqWindow chunk [] dst = dst ∧ outqPopped chunk [] = []

/-! ### Codec -/

/-- R131: a new instance has the constants of its type and rates and cleared registers; illegal operands are refused.
R132: each of its tables holds what was loaded for these rates, where something was, and else the cosine or sine of its
frequency, rounded to nearest (up to `10^-18` of `TAB_ONE` at a tie: log entries 7 and 8). That a construction while a
stream or a worker runs is answered `REFUSED` is log entry 20, the model's reading of R131 with R263 and U4. The operands
are integers of any size (R12). -/
def Obligations.CodecNewBuildsAFreshInstance : Prop :=
  ∀ (s : State) (t sr bd : Int), s.issuer = .caller →
    (encode (.codecNew t sr bd)).opcode = 0x24 ∧
    (s.streaming = true ∨ s.demodulating = true ∨
        (t ≠ 0 ∧ t ≠ 1) ∨ bd < 1 ∨ sr < 1 ∨ sr % bd ≠ 0 →
      exec (.codecNew t sr bd) s = .next { s with rsp := some ⟨.refused, .none⟩ }) ∧
    (s.streaming = false → s.demodulating = false →
      t = 0 ∨ t = 1 → 1 ≤ bd → 1 ≤ sr → sr % bd = 0 → ∃ c : Codec,
      exec (.codecNew t sr bd) s = .next { s with codec := c, rsp := some ⟨.ok, .none⟩ } ∧
      (t = 0 → c.kind = .fsk ∧ c.symLen * bd = sr ∧ c.bps = 1 ∧
        c.fullScale = s.params.fullScaleFsk) ∧
      (t = 1 → c.kind = .qpsk ∧ c.symLen * bd = 2 * sr ∧ c.bps = 2 ∧
        c.fullScale = s.params.fullScaleQpsk) ∧
      c.minWin = 20 * c.symLen ∧
      c.synchronized = false ∧ c.bitVal = 0 ∧ c.bitCnt = 0 ∧ c.byteCnt = 0 ∧
      ∀ (name : TableName) (table : List Int) (tone : Tone) (g : ℝ → ℝ),
        (name, table, tone, g) ∈
          (if t = 0 then
            [(.cosL, c.tables.cosL, s.params.fLow, Real.cos), (.sinL, c.tables.sinL, s.params.fLow, Real.sin),
             (.cosH, c.tables.cosH, s.params.fHigh, Real.cos), (.sinH, c.tables.sinH, s.params.fHigh, Real.sin)]
          else [(.cosC, c.tables.cosC, s.params.fC, Real.cos), (.sinC, c.tables.sinC, s.params.fC, Real.sin)]) →
        (∀ e : RomTable, s.params.rom.find? (fun e => decide (e.name = name ∧ e.sampleRate = sr.toNat ∧
            e.baud = bd.toNat)) = some e → table = e.entries) ∧
        (ParamsLegal s.params →
          (∀ e ∈ s.params.rom, ¬ (e.name = name ∧ e.sampleRate = sr.toNat ∧ e.baud = bd.toNat)) →
          table.length = c.symLen ∧ ∀ (k : Nat) (f : ℝ), k < c.symLen →
            f = (match tone with
              | .hz num den => (num : ℝ) / den
              | .ofBaud num den => (num : ℝ) * bd.toNat / den) →
            |((table.getD k 0 : Int) : ℝ) - s.params.tabOne * g (2 * Real.pi * (f * k / sr.toNat))| ≤
              1 / 2 + s.params.tabOne / 10 ^ 18))

/-- R136: describe-type answers 0 for FSK and 1 for QPSK and changes nothing. -/
def Obligations.CodecTypeAnswersTheVariant : Prop :=
  ∀ s : State, s.issuer = .caller →
    (encode .codecType).opcode = 0x23 ∧
    (s.codec.kind = .fsk → exec .codecType s = .next { s with rsp := some ⟨.ok, .kind 0⟩ }) ∧
    (s.codec.kind = .qpsk → exec .codecType s = .next { s with rsp := some ⟨.ok, .kind 1⟩ })

/-- R140: what a synchronize computes of a window, spelled out in the sums `S n T` of R133 (R134: strictly above the
threshold; R152, R172: the power; R154, R174: the start symbol; R153, R173: the discriminant); and its three phases, in
the offsets of the spec's pseudocode: `i = k × L` is the first scanned offset above the threshold, `d` the first maximum
of the discriminant, `j = i + d + q × L` the first confirmed one. -/
def Obligations.SyncRunsTheThreePhases : Prop :=
  (∀ (P : Params) (c : Codec) (x : List Sample) (S : Nat → List Int → Int), CodecConstWf P c →
    (∀ n T, S n T = ((List.range n).map fun k => (x.getD k 0).toInt * T.getD (k % c.symLen) 0).sum) →
    (c.kind = .fsk →
      (c.symLen ≤ x.length →
        (above P c x = true ↔ ((c.symLen * c.fullScale * P.tabOne : Nat) : Int) ^ 2 <
          16 * max (S c.symLen c.tables.cosL ^ 2 + S c.symLen c.tables.sinL ^ 2)
            (S c.symLen c.tables.cosH ^ 2 + S c.symLen c.tables.sinH ^ 2)) ∧
        (confirm c x = true ↔ S c.symLen c.tables.cosL ^ 2 + S c.symLen c.tables.sinL ^ 2 <
          S c.symLen c.tables.cosH ^ 2 + S c.symLen c.tables.sinH ^ 2)) ∧
      (2 * c.symLen ≤ x.length →
        disc c x = S (2 * c.symLen) c.tables.cosL - |S (2 * c.symLen) c.tables.sinL|)) ∧
    (c.kind = .qpsk →
      (c.symLen ≤ x.length →
        (above P c x = true ↔ ((c.symLen * c.fullScale * P.tabOne : Nat) : Int) ^ 2 <
          16 * (S c.symLen c.tables.cosC ^ 2 + S c.symLen c.tables.sinC ^ 2)) ∧
        (confirm c x = true ↔ S c.symLen c.tables.cosC < 0 ∧ S c.symLen c.tables.sinC < 0)) ∧
      (2 * c.symLen ≤ x.length →
        disc c x = (S (2 * c.symLen) c.tables.cosC + S (2 * c.symLen) c.tables.sinC) -
          |S (2 * c.symLen) c.tables.cosC - S (2 * c.symLen) c.tables.sinC|))) ∧
  ∀ (P : Params) (c : Codec) (x : List Sample) (k : Nat), 1 ≤ c.symLen → c.minWin = 20 * c.symLen →
    (∀ k', k' < k → above P c (x.drop (k' * c.symLen)) = false) →
    (x.length ≤ k * c.symLen + c.minWin → (∀ k', k' < k → k' * c.symLen + c.minWin < x.length) →
      syncSamples P c x = { locked := false, rest := x.drop (k * c.symLen) }) ∧
    (∀ d q : Nat, k * c.symLen + c.minWin < x.length → above P c (x.drop (k * c.symLen)) = true →
      d < c.symLen →
      (∀ d', d' < c.symLen → disc c (x.drop (k * c.symLen + d')) ≤ disc c (x.drop (k * c.symLen + d))) →
      (∀ d', d' < d → disc c (x.drop (k * c.symLen + d')) < disc c (x.drop (k * c.symLen + d))) →
      (∀ q', q' < q → confirm c (x.drop (k * c.symLen + d + q' * c.symLen)) = false) →
      (k * c.symLen + d + q * c.symLen + c.symLen ≤ x.length →
        confirm c (x.drop (k * c.symLen + d + q * c.symLen)) = true →
        syncSamples P c x = { locked := true, rest := x.drop (k * c.symLen + d + q * c.symLen + c.symLen) }) ∧
      (k * c.symLen + d + q * c.symLen ≤ x.length →
        x.length < k * c.symLen + d + q * c.symLen + c.symLen →
        syncSamples P c x = { locked := false, rest := x.drop (k * c.symLen + d + q * c.symLen) }))

/-- R140: on an unsynchronized instance the operation completes; it sets the flag exactly on lock, writes neither the
accumulator nor the byte counter, and answers a rest of its input. On a synchronized one it is refused. -/
def Obligations.CodecSyncSetsTheFlagOnLock : Prop :=
  ∀ (s : State) (x : List Sample), s.issuer = .worker →
    (encode (.codecSync x)).opcode = 0x20 ∧
    (s.codec.synchronized = true →
      exec (.codecSync x) s = .next { s with rsp := some ⟨.refused, .none⟩ }) ∧
    (s.codec.synchronized = false → ∃ r : SyncResult, r = syncSamples s.params s.codec x ∧ r.rest <:+ x ∧
      exec (.codecSync x) s = .next
        { s with codec := { s.codec with synchronized := r.locked }, rsp := some ⟨.ok, .sync r.locked r.rest⟩ })

/-- R146: silence never locks, whatever its length, and what is consumed is the scanned multiple of `L`. -/
def Obligations.SilenceNeverLocks : Prop :=
  ∀ (P : Params) (c : Codec) (n : Nat), CodecConstWf P c →
    ∃ k : Nat, syncSamples P c (zeros n) = { locked := false, rest := zeros (n - k * c.symLen) } ∧
      n ≤ k * c.symLen + c.minWin ∧ ∀ k', k' < k → k' * c.symLen + c.minWin < n

/-- R141: a decoded bit is shifted in from the right modulo 256, and the eight bits of a byte, most significant first,
make that byte. -/
def Obligations.BitAccumulatorShiftsFromTheRight : Prop :=
  (∀ (c : Codec) (b : Bool),
    (accumulate c b).bitVal.toNat = (2 * c.bitVal.toNat + b.toNat) % 256 ∧
    (accumulate c b).bitCnt = c.bitCnt + 1) ∧
  ∀ (c : Codec) (v : Byte), c.bitCnt = 0 →
    (accumulateAll c ((List.range 8).map fun j => v.getLsbD (7 - j))).bitVal = v ∧
    (accumulateAll c ((List.range 8).map fun j => v.getLsbD (7 - j))).bitCnt = 8

/-- R142: what a demodulation computes of a symbol's window, spelled out in the sums `S T` of R133 (R134: strictly below
the threshold, so that neither test holds at equality; R155, R175: the decision, where a tie or a zero component gives
0); and one turn of the loop, for an instance with the constants of R30: too few samples end it; a window below the
threshold loses sync before that window; otherwise the decided bits are accumulated, a full byte is appended and
counted, and the 128th clears the instance. -/
def Obligations.DemodRunsSymbolBySymbol : Prop :=
  (∀ (P : Params) (c : Codec) (x : List Sample) (S : List Int → Int), CodecConstWf P c → c.symLen ≤ x.length →
    (∀ T, S T = ((List.range c.symLen).map fun k => (x.getD k 0).toInt * T.getD k 0).sum) →
    (c.kind = .fsk →
      (below P c x = true ↔
        16 * max (S c.tables.cosL ^ 2 + S c.tables.sinL ^ 2) (S c.tables.cosH ^ 2 + S c.tables.sinH ^ 2) <
          ((c.symLen * c.fullScale * P.tabOne : Nat) : Int) ^ 2) ∧
      decideBits c x =
        [if S c.tables.cosL ^ 2 + S c.tables.sinL ^ 2 < S c.tables.cosH ^ 2 + S c.tables.sinH ^ 2 then true
         else false]) ∧
    (c.kind = .qpsk →
      (below P c x = true ↔ 16 * (S c.tables.cosC ^ 2 + S c.tables.sinC ^ 2) <
          ((c.symLen * c.fullScale * P.tabOne : Nat) : Int) ^ 2) ∧
      decideBits c x = [if S c.tables.cosC < 0 then true else false, if S c.tables.sinC < 0 then true else false])) ∧
  ∀ (P : Params) (c : Codec) (x : List Sample) (out : List Byte), 1 ≤ c.symLen → c.minWin = 20 * c.symLen →
    (x.length < c.minWin → demodSamples P c x out = { lost := false, codec := c, rest := x, out := out }) ∧
    (c.minWin ≤ x.length → below P c x = true →
      demodSamples P c x out =
        { lost := true, codec := { c with synchronized := false, bitVal := 0, bitCnt := 0, byteCnt := 0 },
          rest := x, out := out }) ∧
    (∀ c1 : Codec, c.minWin ≤ x.length → below P c x = false → c1 = (decideBits c x).foldl accumulate c →
      (c1.bitCnt ≠ 8 → demodSamples P c x out = demodSamples P c1 (x.drop c.symLen) out) ∧
      (c1.bitCnt = 8 → c1.byteCnt + 1 ≠ 128 →
        demodSamples P c x out =
          demodSamples P { c1 with bitVal := 0, bitCnt := 0, byteCnt := c1.byteCnt + 1 } (x.drop c.symLen)
            (out ++ [c1.bitVal])) ∧
      (c1.bitCnt = 8 → c1.byteCnt + 1 = 128 →
        demodSamples P c x out =
          { lost := false, codec := { c1 with synchronized := false, bitVal := 0, bitCnt := 0, byteCnt := 0 },
            rest := x.drop c.symLen, out := out ++ [c1.bitVal] }))

/-- R142, R253: on a synchronized instance the operation completes with status `OK`; the constants stay, bytes are only
appended, the rest is a rest of the input, and after a sync loss the flag, the accumulator and the counter are
cleared and the failing window is still there. On an unsynchronized instance it is refused. -/
def Obligations.CodecDemodAppendsAndClearsOnLoss : Prop :=
  ∀ (s : State) (x : List Sample) (out : List Byte), s.issuer = .worker →
    (encode (.codecDemod x out)).opcode = 0x21 ∧
    (s.codec.synchronized = false →
      exec (.codecDemod x out) s = .next { s with rsp := some ⟨.refused, .none⟩ }) ∧
    (s.codec.synchronized = true → ∃ r : DemodResult, r = demodSamples s.params s.codec x out ∧
      exec (.codecDemod x out) s = .next { s with codec := r.codec, rsp := some ⟨.ok, .demod r.lost r.rest r.out⟩ } ∧
      SameConst r.codec s.codec ∧ r.rest <:+ x ∧ out <+: r.out ∧
      (r.lost = true → r.codec.synchronized = false ∧ r.codec.bitVal = 0 ∧ r.codec.bitCnt = 0 ∧
        r.codec.byteCnt = 0 ∧ s.codec.minWin ≤ r.rest.length ∧ below s.params s.codec r.rest = true))

/-- R143: the operation answers the modulated samples and writes no state; the samples are the trailer alone for no
byte, preamble, data symbols and trailer for up to 128 bytes, and a full block in front of the rest otherwise; their
number is `(ceil(n / 128) × 7 + n × 8 / BPS + N_TRAIL) × L`. The data symbols of a byte carry its bit groups, most
significant first. -/
def Obligations.CodecModEmitsTheFrame : Prop :=
  ∀ (s : State) (b : List Byte), s.issuer = .caller →
    (encode (.codecMod b)).opcode = 0x22 ∧
    exec (.codecMod b) s = .next { s with rsp := some ⟨.ok, .samples (modulate s.params s.codec b)⟩ } ∧
    modulate s.params s.codec [] = rep 2 (idleSymbol s.params s.codec) ∧
    (1 ≤ b.length → b.length ≤ 128 →
      modulate s.params s.codec b =
        rep 6 (idleSymbol s.params s.codec) ++ startSymbol s.params s.codec ++
          (b.map (byteSymbols s.params s.codec)).flatten ++ rep 2 (idleSymbol s.params s.codec)) ∧
    (∀ b' : List Byte, b.length = 128 →
      modulate s.params s.codec (b ++ b') =
        rep 6 (idleSymbol s.params s.codec) ++ startSymbol s.params s.codec ++
          (b.map (byteSymbols s.params s.codec)).flatten ++ modulate s.params s.codec b') ∧
    (∀ v : Byte, byteSymbols s.params s.codec v = ((List.range (8 / s.codec.bps)).map fun g =>
      wave s.params s.codec ((List.range s.codec.bps).map fun j => v.getLsbD (7 - (g * s.codec.bps + j)))).flatten) ∧
    (CodecConstWf s.params s.codec →
      (modulate s.params s.codec b).length =
        ((b.length + 127) / 128 * 7 + b.length * 8 / s.codec.bps + 2) * s.codec.symLen)

/-- R87: FSK sends `v[7]` to `v[0]`, one bit a symbol; QPSK sends the pairs `(v[7], v[6])` to `(v[1], v[0])`. -/
def Obligations.BytesGoOutMostSignificantBitFirst : Prop :=
  ∀ (P : Params) (c : Codec) (v : Byte),
    (c.bps = 1 → byteSymbols P c v =
      wave P c [v.getLsbD 7] ++ wave P c [v.getLsbD 6] ++ wave P c [v.getLsbD 5] ++ wave P c [v.getLsbD 4] ++
      wave P c [v.getLsbD 3] ++ wave P c [v.getLsbD 2] ++ wave P c [v.getLsbD 1] ++ wave P c [v.getLsbD 0]) ∧
    (c.bps = 2 → byteSymbols P c v =
      wave P c [v.getLsbD 7, v.getLsbD 6] ++ wave P c [v.getLsbD 5, v.getLsbD 4] ++
      wave P c [v.getLsbD 3, v.getLsbD 2] ++ wave P c [v.getLsbD 1, v.getLsbD 0])

/-- R144, R156, R176: a waveform sample is the exact product truncated toward zero, and it fits: its magnitude is below
29492. For QPSK this takes the combination of the tables to stay in `[−1, 1]`, up to one part in 40000 for the rounding
of the table entries. -/
def Obligations.WaveSamplesAreTruncatedAndFit : Prop :=
  ∀ (P : Params) (c : Codec), ParamsLegal P → CodecConstWf P c →
    (c.kind = .fsk → ∀ (b : Bool) (k : Nat) (t : Int),
      (if b then c.tables.cosH else c.tables.cosL)[k]? = some t → ∃ z : Sample, (wave P c [b])[k]? = some z ∧
        z.toInt = (9 * (c.fullScale : Int) * t).tdiv (10 * (P.tabOne : Int)) ∧ |z.toInt| < 29492) ∧
    (c.kind = .qpsk → ∀ (b1 b0 : Bool) (k : Nat) (u v : Int),
      c.tables.cosC[k]? = some u → c.tables.sinC[k]? = some v →
      40000 * (P.qpskKNum : Int) * |(if b1 then -1 else 1) * u + (if b0 then -1 else 1) * v| ≤
        40001 * P.qpskKDen * P.tabOne →
      ∃ z : Sample, (wave P c [b1, b0])[k]? = some z ∧
        z.toInt = (9 * (c.fullScale : Int) * P.qpskKNum *
          ((if b1 then -1 else 1) * u + (if b0 then -1 else 1) * v)).tdiv (10 * (P.qpskKDen : Int) * P.tabOne) ∧
        |z.toInt| < 29492)

/-- R145 (the loop of R142 alone): for an instance whose waveforms decide to themselves and are loud (R157, R177 (a)
and (b)), the data symbols of fewer than 128 bytes, followed by just enough samples, demodulate to those bytes. -/
def Obligations.DataSymbolsDemodulateToTheirBytes : Prop :=
  ∀ (P : Params) (c : Codec) (b out : List Byte) (rest : List Sample), CodecConstWf P c → Suitable P c →
    c.synchronized = true → c.bitCnt = 0 → c.byteCnt + b.length < 128 →
    c.minWin ≤ rest.length + c.symLen → rest.length < c.minWin →
    (demodSamples P c ((b.map (byteSymbols P c)).flatten ++ rest) out).lost = false ∧
    (demodSamples P c ((b.map (byteSymbols P c)).flatten ++ rest) out).rest = rest ∧
    (demodSamples P c ((b.map (byteSymbols P c)).flatten ++ rest) out).out = out ++ b ∧
    (demodSamples P c ((b.map (byteSymbols P c)).flatten ++ rest) out).codec.byteCnt = c.byteCnt + b.length

/-- R145 at a lead of no samples, for the premises R157 and R177: what a fresh instance modulates, followed by at least
`MIN_WIN` samples of silence, is received as the same bytes, in two rounds a block. -/
def Obligations.ModulatedBytesAreReceived : Prop :=
  ∀ (P : Params) (c : Codec) (b : List Byte) (z : Nat), ParamsLegal P → CodecConstWf P c → Suitable P c →
    c.synchronized = false → c.bitCnt = 0 → c.byteCnt = 0 → 1 ≤ b.length → c.minWin ≤ z →
    receive P (2 * ((b.length + 127) / 128)) c (modulate P c b ++ zeros z) [] = b

/-! ### Packet framer and delivery queue -/

/-- R192: an empty packet takes its header in one piece or nothing; then up to the declared total is appended in the
same call; the surplus stays with the caller. -/
def Obligations.PktPushTakesTheMissingBytes : Prop :=
  ∀ (s : State) (b : List Byte), s.issuer = .worker →
    (encode (.pktPush b)).opcode = 0x30 ∧
    (s.pkt = [] → b.length < 6 → exec (.pktPush b) s = .next { s with rsp := some ⟨.ok, .bytes b⟩ }) ∧
    (s.pkt = [] → 6 ≤ b.length → ∃ t : Nat, t = max 6 ((b.getD 2 0).toNat + 256 * (b.getD 3 0).toNat) ∧
      exec (.pktPush b) s = .next { s with pkt := b.take t, rsp := some ⟨.ok, .bytes (b.drop t)⟩ }) ∧
    (s.pkt ≠ [] → ∃ t : Nat, t = (s.pkt.getD 2 0).toNat + 256 * (s.pkt.getD 3 0).toNat - s.pkt.length ∧
      exec (.pktPush b) s = .next { s with pkt := s.pkt ++ b.take t, rsp := some ⟨.ok, .bytes (b.drop t)⟩ })

/-- R193's executable rule (log entry 16: the spec's own choice D22, after which a careful run proves nothing): a packet
whose header declares fewer than 6 bytes takes no further byte and is not finished. U6: whichever operation takes such a
header, `PKT.PUSH` or a worker iteration, also one that drops it again for a sync loss, no careful state follows. -/
def Obligations.MalformedLengthTakesNothing : Prop :=
  (∀ (s : State) (b : List Byte), s.issuer = .worker → s.pkt.length = 6 →
    (s.pkt.getD 2 0).toNat + 256 * (s.pkt.getD 3 0).toNat < 6 →
    exec (.pktPush b) s = .next { s with rsp := some ⟨.ok, .bytes b⟩ } ∧
    exec .pktFinished s = .next { s with rsp := some ⟨.ok, .flag false⟩ }) ∧
  (∀ (s t : State) (b p rest : List Byte), s.issuer = .worker → (p, rest) = pktPushed s.pkt b → 6 ≤ p.length →
    (p.getD 2 0).toNat + 256 * (p.getD 3 0).toNat < 6 → exec (.pktPush b) s = .next t → ¬ Careful t) ∧
  ∀ (s t : State) (w : List Sample) (p rest : List Byte), s.issuer = .worker → s.demodulating = true →
    w = s.work ++ (ringOldest s.params.ringCap s.chunkLen s.ring).getD [] → 4096 ≤ w.length →
    s.codec.synchronized = true → (p, rest) = pktPushed s.pkt (demodSamples s.params s.codec w s.pend).out →
    6 ≤ p.length → (p.getD 2 0).toNat + 256 * (p.getD 3 0).toNat < 6 → exec .engWorkerStep s = .next t → ¬ Careful t

/-- R191: a new packet is empty, and nothing else changes. -/
def Obligations.PktNewEmptiesThePacket : Prop :=
  ∀ s : State, s.issuer = .worker →
    (encode .pktNew).opcode = 0x34 ∧
    exec .pktNew s = .next { s with pkt := [], rsp := some ⟨.ok, .none⟩ }

/-- R194: build answers id, flags, total, checksum and payload, or `OVERSIZE`, and changes nothing; pushing exactly what it
answered to an empty framer gives a finished, valid packet. -/
def Obligations.PktBuildMakesAFinishedValidPacket : Prop :=
  ∀ (s : State) (i f : Byte) (x : List Byte), s.issuer = .caller →
    (encode (.pktBuild i f x)).opcode = 0x35 ∧
    (65529 < x.length → exec (.pktBuild i f x) s = .next { s with rsp := some ⟨.oversize, .none⟩ }) ∧
    (x.length ≤ 65529 → ∃ p : List Byte,
      exec (.pktBuild i f x) s = .next { s with rsp := some ⟨.ok, .bytes p⟩ } ∧
      p.getD 0 0 = i ∧ p.getD 1 0 = f ∧ p.drop 6 = x ∧ p.length = 6 + x.length ∧
      (p.getD 2 0).toNat + 256 * (p.getD 3 0).toNat = 6 + x.length ∧
      (p.getD 4 0).toNat + 256 * (p.getD 5 0).toNat = cksum16 p ∧
      pktPushed [] p = (p, []) ∧ finished p = true ∧ valid p = true)

/-- R195, R196 on the in-progress packet: finished answers whether it has a header and its declared length, valid whether
it has a header that stores its checksum. Nothing changes. -/
def Obligations.PktPredicatesReadThePacket : Prop :=
  ∀ s : State, s.issuer = .worker →
    (encode .pktFinished).opcode = 0x31 ∧ (encode .pktValid).opcode = 0x32 ∧
    exec .pktFinished s = .next
      { s with rsp := some ⟨.ok, .flag (decide (6 ≤ s.pkt.length ∧
        s.pkt.length = (s.pkt.getD 2 0).toNat + 256 * (s.pkt.getD 3 0).toNat))⟩ } ∧
    exec .pktValid s = .next
      { s with rsp := some ⟨.ok, .flag (decide (6 ≤ s.pkt.length ∧
        (s.pkt.getD 4 0).toNat + 256 * (s.pkt.getD 5 0).toNat = cksum16 s.pkt))⟩ }

/-- R262, R263 by log entry 11 (the model's own field `held`): a packet popped is the one the CONSUMER that popped it
holds, whatever others hold; the three packet reads of a CONSUMER are of the packet it holds itself, and are refused
while it holds none. Nothing else changes. -/
def Obligations.ConsumerReadsThePacketItGot : Prop :=
  ∀ s : State, s.issuer = .consumer →
    (∀ p r, s.pktq = p :: r → ∃ t, exec .pktqPop s = .next t ∧ t.held.find s.who = some p ∧
      ∀ k, k ≠ s.who → t.held.find k = s.held.find k) ∧
    (∀ p, s.held.find s.who = some p →
      exec .pktFinished s = .next { s with rsp := some ⟨.ok, .flag (finished p)⟩ } ∧
      exec .pktValid s = .next { s with rsp := some ⟨.ok, .flag (valid p)⟩ } ∧
      exec .pktChecksum s = .next { s with rsp := some ⟨.ok, .checksum (BitVec.ofNat 16 (cksum16 p))⟩ }) ∧
    (s.held.find s.who = none → ∀ i, i = .pktFinished ∨ i = .pktValid ∨ i = .pktChecksum →
      exec i s = .next { s with rsp := some ⟨.refused, .none⟩ })

/-- R197: checksum answers the complement of the end-around-carry sum of the little-endian words of the in-progress
packet, its checksum field read as zero and an odd trailing byte added by itself. Nothing changes. -/
def Obligations.PktChecksumIsTheOnesComplementSum : Prop :=
  ∀ (s : State) (p q : List Byte) (sum : Nat), s.issuer = .worker → s.pkt = p →
    q = (if 6 ≤ p.length then (p.set 4 0).set 5 0 else p) →
    sum = ((List.range (p.length / 2)).map fun w => (q.getD (2 * w) 0).toNat + 256 * (q.getD (2 * w + 1) 0).toNat).sum
      + (if p.length % 2 = 1 then (q.getD (p.length - 1) 0).toNat else 0) →
    (encode .pktChecksum).opcode = 0x33 ∧ ∃ w : U16,
      exec .pktChecksum s = .next { s with rsp := some ⟨.ok, .checksum w⟩ } ∧
      (sum = 0 → w.toNat = 65535) ∧ (0 < sum → w.toNat < 65535 ∧ (65535 - w.toNat) % 65535 = sum % 65535)

/-- R198 (b) and (c): the checksum of a packet whose header declares at least 6 bytes is at most 65534, and the checksum
of a packet with a header does not depend on the bytes at offsets 4 and 5. -/
def Obligations.ChecksumIgnoresItsOwnField : Prop :=
  ∀ (p : List Byte) (a b : Byte), 6 ≤ p.length →
    cksum16 ((p.set 4 a).set 5 b) = cksum16 p ∧
    (6 ≤ (p.getD 2 0).toNat + 256 * (p.getD 3 0).toNat → cksum16 p ≤ 65534)

/-- R198 (d): changing one byte outside offsets 4 and 5 always changes the checksum. -/
def Obligations.ChecksumDetectsEverySingleByteChange : Prop :=
  ∀ (p : List Byte) (k : Nat) (a : Byte), 6 ≤ p.length → k < p.length → k ≠ 4 → k ≠ 5 → p.getD k 0 ≠ a →
    cksum16 (p.set k a) ≠ cksum16 p

/-- R201, R202: a packet fed in fragments is finished exactly when its last byte has been fed, and a surplus stays in
the caller's buffer. -/
def Obligations.FragmentsFinishThePacketOnce : Prop :=
  ∀ (p surplus : List Byte) (frags : List (List Byte)), finished p = true →
    (∀ k, k ≤ p.length → frags.flatten = p.take k →
      finished (feedFragments ([], []) frags).1 = decide (k = p.length)) ∧
    (frags.flatten = p ++ surplus → feedFragments ([], []) frags = (p, surplus))

/-- R199: a packet is appended to the delivery queue; a finite full queue refuses it. A byte sequence that is no complete
packet (R39) is refused: log entry 19, the model's reading of R82 and R83. Nothing else changes. -/
def Obligations.PktqPushAppends : Prop :=
  ∀ (s : State) (p : List Byte), s.issuer = .worker →
    (encode (.pktqPush p)).opcode = 0x40 ∧
    (6 ≤ p.length → p.length = (p.getD 2 0).toNat + 256 * (p.getD 3 0).toNat →
      (∀ d, s.params.pktqDepth = some d → s.pktq.length < d) →
      exec (.pktqPush p) s = .next { s with pktq := s.pktq ++ [p], rsp := some ⟨.ok, .none⟩ }) ∧
    (p.length < 6 ∨ p.length ≠ (p.getD 2 0).toNat + 256 * (p.getD 3 0).toNat ∨
        (∃ d, s.params.pktqDepth = some d ∧ d ≤ s.pktq.length) →
      exec (.pktqPush p) s = .next { s with rsp := some ⟨.refused, .none⟩ })

/-- R200: a pop of an empty delivery queue answers absent and changes nothing; otherwise it removes and answers the
oldest packet; but for what that CONSUMER holds outside the block, nothing else changes. -/
def Obligations.PktqPopReturnsTheOldest : Prop :=
  ∀ s : State, s.issuer = .consumer →
    (encode .pktqPop).opcode = 0x41 ∧
    (s.pktq = [] → exec .pktqPop s = .next { s with rsp := some ⟨.ok, .packet false []⟩ }) ∧
    (∀ p r, s.pktq = p :: r → ∃ t, exec .pktqPop s = .next t ∧
      t = { s with pktq := r, held := t.held, rsp := some ⟨.ok, .packet true p⟩ })

/-! ### Engine -/

/-- R220: the stream starts when it is not running and both answers of the `DEV` port are good; each failure has its
status, tested in this order, and changes nothing. -/
def Obligations.StartStreamTestsInOrder : Prop :=
  ∀ (s : State) (devOk openOk : Bool), s.issuer = .caller →
    (encode (.engStartStream devOk openOk)).opcode = 0x50 ∧
    exec (.engStartStream devOk openOk) s = .next
      (if s.streaming = true then { s with rsp := some ⟨.state, .flag false⟩ }
       else if devOk = false then { s with rsp := some ⟨.deviceUnavailable, .flag false⟩ }
       else if openOk = false then { s with rsp := some ⟨.hwStreamError, .flag false⟩ }
       else { s with streaming := true, rsp := some ⟨.ok, .flag true⟩ })

/-- R221: stopping a running stream clears both buffers and leaves the demodulation switch; otherwise nothing changes.
"No callback occurs after the operation has taken effect": a stop waits for a callback in progress
(`SwitchesMoveOnlyByTheirOperations`; log entry 14), and with no stream no step begins a callback, puts a block out or
plays from the queue (R228): its entries stay, in order, at its front, unless the step is a reset, a reconfiguration, or
the unit-level `OUTQ.CLEAR` or `OUTQ.POP`. -/
def Obligations.StopStreamClearsBothBuffers : Prop :=
  (∀ s : State, s.issuer = .caller →
    (encode .engStopStream).opcode = 0x51 ∧
    exec .engStopStream s = .next
      (if s.streaming = false then { s with rsp := some ⟨.state, .flag false⟩ }
       else { s with streaming := false, ring := { s.ring with size := 0, tail := 0 }, outq := [],
                     rsp := some ⟨.ok, .flag true⟩ })) ∧
  ∀ s t : State, s.streaming = false → s.playing = false → step s = .next t →
    t.playing = false ∧ (t.audOut = s.audOut ∨ ∃ rest, s.cmd = .reset :: rest) ∧
    (s.outq <+: t.outq ∨ (∃ rest, s.cmd = .reset :: rest) ∨
      ∃ a w cmd rest i, s.cmd = .op a w cmd :: rest ∧ decode cmd = .instr i ∧
        (i = .outqClear ∨ (∃ dst, i = .outqPop dst) ∨ ∃ n, i = .engSetConfig n))

/-- R222: demodulation starts when streaming and not yet demodulating: the ring is cleared and the worker's own state is
empty; the codec instance is not touched. Otherwise nothing changes. -/
def Obligations.StartDemodGivesTheWorkerFreshState : Prop :=
  ∀ s : State, s.issuer = .caller →
    (encode .engStartDemod).opcode = 0x52 ∧
    exec .engStartDemod s = .next
      (if s.streaming = false ∨ s.demodulating = true then { s with rsp := some ⟨.state, .flag false⟩ }
       else { s with ring := { s.ring with size := 0, tail := 0 }, work := [], pend := [], pkt := [],
                     demodulating := true, rsp := some ⟨.ok, .flag true⟩ })

/-- R223: stopping demodulation clears the switch and the ring, in any state, and nothing else. -/
def Obligations.StopDemodClearsSwitchAndRing : Prop :=
  ∀ s : State, s.issuer = .caller →
    (encode .engStopDemod).opcode = 0x53 ∧
    exec .engStopDemod s = .next
      { s with demodulating := false, ring := { s.ring with size := 0, tail := 0 }, rsp := some ⟨.ok, .none⟩ }

/-- R224, R72: the callback's two accesses are two atomic operations. The first pushes the captured chunk, and nothing is
answered yet; it is refused when not streaming, for a captured chunk of another size, and inside a callback (R261). The
second (log entry 14: a step of its own, when the schedule gives the CALLBACK its turn or holds nothing more) pops into
silence, puts the block out and answers; what else the schedule holds waits. It is made while streaming; the invariant
says that a callback is in progress only then. R267: nothing cancels a callback in progress, a stop of the stream and a
reset request waiting for it (log entries 13 and 14): it stays in progress until a step makes the second access. -/
def Obligations.CallbackPushesThenPlays : Prop :=
  (∀ (s : State) (c : List Sample), s.issuer = .callback →
    (encode (.engCallback c)).opcode = 0x54 ∧
    (s.streaming = false ∨ c.length ≠ s.chunkLen ∨ s.playing = true →
      exec (.engCallback c) s = .next { s with rsp := some ⟨.refused, .none⟩ }) ∧
    (s.streaming = true → c.length = s.chunkLen → s.playing = false → ∃ m : Memory,
      exec (.engCallback c) s = .next
        { s with ring := { slots := m, tail := (s.ring.tail + 1) % s.params.ringCap,
                           size := min (s.ring.size + 1) s.params.ringCap }
                 playing := true, rsp := none } ∧
      m.find s.ring.tail = some c ∧ ∀ k, k ≠ s.ring.tail → m.find k = s.ring.slots.find k)) ∧
  (∀ (s : State) (rest : List Request), s.streaming = true → s.playing = true →
    (s.cmd = [] ∧ rest = [] ∨ s.cmd = .turn :: rest) →
    (s.outq = [] →
      step s = .next
        { s with cmd := rest, issuer := .callback, playing := false, audOut := some (zeros s.chunkLen),
                 rsp := some ⟨.ok, .samples (zeros s.chunkLen)⟩ }) ∧
    ∀ (e : OutEntry) (r : List OutEntry), s.outq = e :: r →
      step s = .next
        { s with cmd := rest, issuer := .callback, playing := false,
                 outq := if e.cursor + s.chunkLen = e.data.length then r
                         else { data := e.data, cursor := e.cursor + s.chunkLen } :: r,
                 audOut := some ((e.data.drop e.cursor).take s.chunkLen),
                 rsp := some ⟨.ok, .samples ((e.data.drop e.cursor).take s.chunkLen)⟩ }) ∧
  ∀ s t : State, s.playing = true → step s = .next t →
    t.playing = true ∨ (t.playing = false ∧ step { s with cmd := [] } = .next { t with cmd := [] })

/-- R226 up to demodulation: a worker that is not demodulating is refused; one pop is appended to `work`; with fewer than
4096 samples the iteration ends there; with an unsynchronized codec it runs one synchronize on `work`, whatever its
outcome, and ends. -/
def Obligations.WorkerIdlesOrSynchronizes : Prop :=
  ∀ (s : State) (w : List Sample), s.issuer = .worker →
    w = s.work ++ (ringOldest s.params.ringCap s.chunkLen s.ring).getD [] →
    (encode .engWorkerStep).opcode = 0x55 ∧
    (s.demodulating = false → exec .engWorkerStep s = .next { s with rsp := some ⟨.refused, .none⟩ }) ∧
    (s.demodulating = true → withinCap s.params.workCap w.length = true → w.length < 4096 →
      exec .engWorkerStep s = .next
        { s with ring := { s.ring with size := s.ring.size - 1 }, work := w, rsp := some ⟨.ok, .none⟩ }) ∧
    (s.demodulating = true → withinCap s.params.workCap w.length = true → 4096 ≤ w.length →
      s.codec.synchronized = false →
      exec .engWorkerStep s = .next
        { s with ring := { s.ring with size := s.ring.size - 1 }, work := (syncSamples s.params s.codec w).rest,
                 codec := { s.codec with synchronized := (syncSamples s.params s.codec w).locked },
                 rsp := some ⟨.ok, .none⟩ })

/-- R226 with a synchronized codec: the recovered bytes are framed by one push, progress is reported once the header is
known, a finished packet is delivered and replaced, and then a sync loss drops the packet and the pending bytes, with
`PACKET_LOST` if the packet then in progress has a header. -/
def Obligations.WorkerFramesDeliversThenDrops : Prop :=
  ∀ (s : State) (w : List Sample) (r : DemodResult) (p rest : List Byte), s.issuer = .worker →
    s.demodulating = true → w = s.work ++ (ringOldest s.params.ringCap s.chunkLen s.ring).getD [] →
    withinCap s.params.workCap w.length = true → 4096 ≤ w.length → s.codec.synchronized = true →
    r = demodSamples s.params s.codec w s.pend → withinCap s.params.pendCap r.out.length = true →
    (p, rest) = pktPushed s.pkt r.out →
    withinCap s.params.pktqDepth (if finished p then s.pktq.length + 1 else s.pktq.length) = true →
    exec .engWorkerStep s = .next
      { s with
        ring := { s.ring with size := s.ring.size - 1 }, work := r.rest, codec := r.codec,
        pkt := if r.lost || finished p then [] else p,
        pend := if r.lost then [] else rest,
        pktq := if finished p then s.pktq ++ [p] else s.pktq,
        evt := s.evt ++
          (if 6 ≤ p.length then [.byteProgress (BitVec.ofNat 16 p.length)
            (BitVec.ofNat 16 ((p.getD 2 0).toNat + 256 * (p.getD 3 0).toNat))] else []) ++
          (if finished p then [.packetReceived] else []) ++
          (if r.lost && !finished p && decide (6 ≤ p.length) then [.packetLost] else []),
        rsp := some ⟨.ok, .none⟩ }

/-- D32 (log entry 15, the model's reading): an iteration that would exceed a finite capacity of `work`, `pend` or the
delivery queue is refused as a whole. -/
def Obligations.WorkerOverCapacityIsRefused : Prop :=
  ∀ (s : State) (w : List Sample) (r : DemodResult), s.issuer = .worker → s.demodulating = true →
    w = s.work ++ (ringOldest s.params.ringCap s.chunkLen s.ring).getD [] →
    r = demodSamples s.params s.codec w s.pend →
    (withinCap s.params.workCap w.length = false →
      exec .engWorkerStep s = .next { s with rsp := some ⟨.refused, .none⟩ }) ∧
    (4096 ≤ w.length → s.codec.synchronized = true →
      withinCap s.params.pendCap r.out.length = false ∨
        (finished (pktPushed s.pkt r.out).1 = true ∧
          withinCap s.params.pktqDepth (s.pktq.length + 1) = false) →
      exec .engWorkerStep s = .next { s with rsp := some ⟨.refused, .none⟩ })

/-- R228: transmit modulates and enqueues the bytes as they are; more than 65535 bytes are `OVERSIZE`, a refused
enqueue is `REFUSED`, both with result false and nothing changed. -/
def Obligations.TransmitModulatesAndEnqueues : Prop :=
  ∀ (s : State) (b : List Byte) (x : List Sample) (m : Nat), s.issuer = .caller → 1 ≤ s.chunkLen →
    x = modulate s.params s.codec b → x.length ≤ m * s.chunkLen → m * s.chunkLen < x.length + s.chunkLen →
    (encode (.engTransmit b)).opcode = 0x56 ∧
    (65535 < b.length → exec (.engTransmit b) s = .next { s with rsp := some ⟨.oversize, .flag false⟩ }) ∧
    (b.length ≤ 65535 →
      x.length = 0 ∨ 2 ^ s.params.cursorW ≤ m * s.chunkLen ∨ s.params.outqDepth = some s.outq.length →
      exec (.engTransmit b) s = .next { s with rsp := some ⟨.refused, .flag false⟩ }) ∧
    (b.length ≤ 65535 → x.length ≠ 0 → m * s.chunkLen < 2 ^ s.params.cursorW →
      s.params.outqDepth ≠ some s.outq.length →
      exec (.engTransmit b) s = .next
        { s with outq := s.outq ++ [{ data := x ++ zeros (m * s.chunkLen - x.length), cursor := 0 }],
                 rsp := some ⟨.ok, .flag true⟩ })

/-- R229: get config answers a copy of the configuration and changes nothing. -/
def Obligations.GetConfigReadsTheConfiguration : Prop :=
  ∀ s : State, s.issuer = .caller →
    (encode .engGetConfig).opcode = 0x58 ∧
    exec .engGetConfig s = .next { s with rsp := some ⟨.ok, .config s.config⟩ }

/-- R231, R118: an illegal configuration is refused; the volumes are always applied; when another field differs both
switches go off, the ring is cleared (or the buffer pair replaced when the chunk size changed), the configuration is
adopted, a fresh codec is built and the change is notified. -/
def Obligations.SetConfigReconfigures : Prop :=
  ∀ (s : State) (new : ModemConfig), s.issuer = .caller →
    (encode (.engSetConfig new)).opcode = 0x57 ∧
    (new.legal = false → exec (.engSetConfig new) s = .next { s with rsp := some ⟨.refused, .none⟩ }) ∧
    (new.legal = true → new = { s.config with inVol := new.inVol, outVol := new.outVol } →
      exec (.engSetConfig new) s = .next
        { s with config := new, mix := some (new.inVol, new.outVol), rsp := some ⟨.ok, .none⟩ }) ∧
    (new.legal = true → new ≠ { s.config with inVol := new.inVol, outVol := new.outVol } →
      exec (.engSetConfig new) s = .next
        { s with
          config := new, mix := some (new.inVol, new.outVol), streaming := false, demodulating := false,
          ring := if new.chunk = s.config.chunk then { s.ring with size := 0, tail := 0 }
                  else { slots := [], tail := 0, size := 0 },
          outq := if s.streaming = true ∨ new.chunk ≠ s.config.chunk then [] else s.outq,
          codec := buildCodec s.params (if new.codecType = 0 then .fsk else .qpsk) new.sampleRate.toNat
            new.baud.toNat,
          evt := s.evt ++ [.configChanged], rsp := some ⟨.ok, .none⟩ })

/-! ### The whole machine -/

/-- R250: every operation's meaning answers a next state, with a response; there is no fault and no refusal of the model.
A callback's first access gives none: its response is that of its second (R224), which no stop of the stream cancels
(R267; `CallbackPushesThenPlays`). That the second comes when nothing else is pending is log entry 14, the model's own
choice of the schedule. -/
def Obligations.EveryOperationAnswers : Prop :=
  (∀ (i : Instr) (s : State), ∃ t : State, exec i s = .next t ∧
    (t.rsp.isSome = true ∨ ∃ c, i = .engCallback c ∧ s.playing = false ∧ t.playing = true)) ∧
  ∀ s : State, s.playing = true → s.cmd = [] → ∃ t : State, step s = .next t ∧ t.playing = false ∧ t.rsp.isSome = true

/-- R252: a status other than `OK` leaves every state element unchanged, and a Boolean result with it is false; the status
`CORRUPT` is never produced. -/
def Obligations.FailuresChangeNothing : Prop :=
  ∀ (i : Instr) (s t : State) (r : Response), exec i s = .next t → t.rsp = some r →
    r.status ≠ .corrupt ∧
    (r.status ≠ .ok → t = { s with rsp := some r } ∧ r.result ≠ .flag true)

/-- R263: the agents with the right to each operation; a request from any other is refused with nothing changed. -/
def Obligations.OnlyTheListedAgentsAreServed : Prop :=
  ∀ (i : Instr) (s : State),
    (match i with
      | .ringPush _ | .outqPop _ | .engCallback _ => s.issuer ≠ .callback
      | .ringPop | .codecSync _ | .codecDemod _ _ | .pktPush _ | .pktNew | .pktqPush _ | .engWorkerStep =>
        s.issuer ≠ .worker
      | .pktqPop => s.issuer ≠ .consumer
      | .pktFinished | .pktValid | .pktChecksum => s.issuer ≠ .worker ∧ s.issuer ≠ .consumer
      | .ringClear | .outqPush _ | .outqClear | .codecMod _ | .codecType | .codecNew _ _ _ | .pktBuild _ _ _
      | .engStartStream _ _ | .engStopStream | .engStartDemod | .engStopDemod | .engTransmit _ | .engSetConfig _
      | .engGetConfig => s.issuer ≠ .caller) →
    exec i s = .next { s with rsp := some ⟨.refused, .none⟩ }

/-- R83: a request whose opcode byte is none of the 28 is answered `REFUSED`, whatever its operands, and changes
nothing but that the request is taken; so is a request with a listed opcode whose operands are not of R82's types. A
request of the CALLBACK's own waits for a callback in progress (log entry 14). -/
def Obligations.UndecodableRequestsAreRefused : Prop :=
  ∀ (s : State) (a : Agent) (w : Nat) (cmd : Command) (rest : List Request), s.cmd = .op a w cmd :: rest →
    (s.playing = false ∨ a ≠ .callback) →
    (∀ i : Instr, encode i ≠ cmd) →
    step s = .next { s with cmd := rest, issuer := a, who := w, rsp := some ⟨.refused, .none⟩ }

/-- R81, R82: decoding the command of an operation gives that operation with every operand, and a command that decodes
to an operation is the command of that operation: no two commands stand for one operation. -/
def Obligations.DecodeAndEncodeAgree : Prop :=
  (∀ i : Instr, decode (encode i) = .instr i) ∧ ∀ (cmd : Command) (i : Instr), decode cmd = .instr i → encode i = cmd

/-- R81: the opcode bytes of nine operations, two of the busiest units and one of each other, and three reserved
bytes. -/
def Obligations.OpcodeBytesDecode : Prop :=
  decode ⟨0b00000001, []⟩ = .instr .ringPop ∧
  decode ⟨0b00010000, [.samples [5]]⟩ = .instr (.outqPush [5]) ∧
  decode ⟨0b00100001, [.samples [7], .bytes [9]]⟩ = .instr (.codecDemod [7] [9]) ∧
  decode ⟨0b00100100, [.int 1, .int 8000, .int 1000]⟩ = .instr (.codecNew 1 8000 1000) ∧
  decode ⟨0b00110101, [.byte 1, .byte 2, .bytes [3]]⟩ = .instr (.pktBuild 1 2 [3]) ∧
  decode ⟨0b01000001, []⟩ = .instr .pktqPop ∧
  decode ⟨0b01010000, [.bool true, .bool false]⟩ = .instr (.engStartStream true false) ∧
  decode ⟨0b01010110, [.bytes [4]]⟩ = .instr (.engTransmit [4]) ∧
  decode ⟨0b01011000, []⟩ = .instr .engGetConfig ∧
  decode ⟨0b00000011, []⟩ = .reserved 0x03 ∧
  decode ⟨0b01011001, []⟩ = .reserved 0x59 ∧
  decode ⟨0b01100000, []⟩ = .reserved 0x60

/-- Log entries 2 and 14 (the model's own): a step serves the oldest pending request. A command that decodes runs its
operation, issued by its agent, with the request taken from the list; a reset request gives the reset state, the later
requests still pending and the event trace kept (log entry 13); a turn of the CALLBACK without a callback in progress
passes; with no request the state stays. While a callback is in progress the operations of the other agents are served
between its two accesses, but for one that stops the stream: before that, before one of the CALLBACK's own, and before a
reset request, the step is the second access, and the request stays pending. -/
def Obligations.StepServesTheOldestRequest : Prop :=
  (∀ (s : State) (a : Agent) (w : Nat) (cmd : Command) (rest : List Request) (i : Instr),
    s.cmd = .op a w cmd :: rest → decode cmd = .instr i → ∀ waits : Prop,
    (waits ↔ a = .callback ∨ a = .caller ∧ (i = .engStopStream ∨
      ∃ n, i = .engSetConfig n ∧ n.legal = true ∧ n ≠ { s.config with inVol := n.inVol, outVol := n.outVol })) →
    (s.playing = false ∨ ¬ waits → step s = exec i { s with cmd := rest, issuer := a, who := w }) ∧
    (s.playing = true → waits → ∃ t : State, step s = .next t ∧ t.playing = false ∧ t.cmd = s.cmd ∧
        step { s with cmd := [] } = .next { t with cmd := [] })) ∧
  (∀ (s : State) (rest : List Request), s.cmd = .reset :: rest →
    (s.playing = false → step s = .next { State.init s.params with cmd := rest, evt := s.evt }) ∧
    (s.playing = true → ∃ t : State, step s = .next t ∧ t.playing = false ∧ t.cmd = s.cmd ∧
        step { s with cmd := [] } = .next { t with cmd := [] })) ∧
  (∀ (s : State) (rest : List Request), s.playing = false → s.cmd = .turn :: rest →
    step s = .next { s with cmd := rest }) ∧
  (∀ s : State, s.playing = false → s.cmd = [] → step s = .next s)

/-- R26, R29, R32 to R34, R37, R39, R221, R230: every step keeps the invariant, from every state that has it. -/
def Obligations.EveryStepKeepsTheInvariant : Prop :=
  ∀ s t : State, Inv s → step s = .next t → Inv t

/-- The state after reset has the invariant, for every legal choice of the parameters. -/
def Obligations.ResetHasTheInvariant : Prop :=
  (∀ P : Params, ParamsLegal P → Inv (State.init P)) ∧ Inv State.reset

/-- R49: the state after reset, for every choice of the parameters. -/
def Obligations.ResetValues : Prop :=
  ∀ P : Params,
    (State.init P).ring.tail = 0 ∧ (State.init P).ring.size = 0 ∧ (State.init P).outq = [] ∧
    SameConst (State.init P).codec (buildCodec P (if P.config0.codecType = 0 then .fsk else .qpsk)
      P.config0.sampleRate.toNat P.config0.baud.toNat) ∧
    (State.init P).codec.synchronized = false ∧ (State.init P).codec.bitVal = 0 ∧
    (State.init P).codec.bitCnt = 0 ∧ (State.init P).codec.byteCnt = 0 ∧ (State.init P).work = [] ∧
    (State.init P).pend = [] ∧ (State.init P).pkt = [] ∧ (State.init P).pktq = [] ∧
    (State.init P).config = P.config0 ∧ (State.init P).streaming = false ∧ (State.init P).demodulating = false

/-- R30, R104, R47: the parameters never change, and the constant part of the codec changes only at `CODEC.NEW` and
`ENG.SET_CONFIG`. -/
def Obligations.ConstantsChangeOnlyByConstruction : Prop :=
  ∀ (i : Instr) (s t : State), exec i s = .next t →
    t.params = s.params ∧
    (SameConst t.codec s.codec ∨ (∃ k r b, i = .codecNew k r b) ∨ ∃ n, i = .engSetConfig n)

/-- R233 (a), R43: every transition of the two switches. R221, R267: a step in which the stream goes down finds no callback
in progress, since the stop waits for its end (log entries 13 and 14), and leaves none. -/
def Obligations.SwitchesMoveOnlyByTheirOperations : Prop :=
  (∀ (i : Instr) (s t : State), exec i s = .next t →
    (t.streaming = s.streaming ∨
      (s.streaming = false ∧ t.streaming = true ∧ t.demodulating = s.demodulating ∧ i = .engStartStream true true) ∨
      (s.streaming = true ∧ t.streaming = false ∧
        ((i = .engStopStream ∧ t.demodulating = s.demodulating) ∨
          ∃ n, i = .engSetConfig n ∧ t.demodulating = false))) ∧
    (t.demodulating = s.demodulating ∨
      (s.demodulating = false ∧ t.demodulating = true ∧ s.streaming = true ∧ t.streaming = true ∧
        i = .engStartDemod) ∨
      (s.demodulating = true ∧ t.demodulating = false ∧
        ((i = .engStopDemod ∧ t.streaming = s.streaming) ∨ ∃ n, i = .engSetConfig n ∧ t.streaming = false)))) ∧
  ∀ s t : State, step s = .next t → s.streaming = true → t.streaming = false → s.playing = false ∧ t.playing = false

/-- R31, R233 (b): the flag goes up only by a synchronize and down only by a demodulation or a construction. -/
def Obligations.SynchronizedMovesOnlyByTheCodec : Prop :=
  ∀ (i : Instr) (s t : State), exec i s = .next t →
    (s.codec.synchronized = false → t.codec.synchronized = true → (∃ x, i = .codecSync x) ∨ i = .engWorkerStep) ∧
    (s.codec.synchronized = true → t.codec.synchronized = false →
      (∃ x o, i = .codecDemod x o) ∨ i = .engWorkerStep ∨ (∃ k r b, i = .codecNew k r b) ∨
        ∃ n, i = .engSetConfig n)

/-- R257, R263: the event trace only grows, by at most three events a step, and only a worker iteration or a
reconfiguration emits. -/
def Obligations.EventsAreOnlyAppended : Prop :=
  (∀ s t : State, step s = .next t → ∃ e : List Event, t.evt = s.evt ++ e ∧ e.length ≤ 3) ∧
  ∀ (i : Instr) (s t : State), exec i s = .next t →
    t.evt = s.evt ∨ i = .engWorkerStep ∨ ∃ n, i = .engSetConfig n ∧ t.evt = s.evt ++ [.configChanged]

/-- R281: "Nothing but `RST` and `PKTQ.POP` removes a packet from `pktq`". -/
def Obligations.DeliveredPacketsSurvive : Prop :=
  ∀ s t : State, step s = .next t →
    s.pktq <+: t.pktq ∨ (∃ rest, s.cmd = .reset :: rest) ∨
      ∃ a w cmd rest p, s.cmd = .op a w cmd :: rest ∧ decode cmd = .instr .pktqPop ∧ s.pktq = p :: t.pktq

/-- R46: the worker's buffers and the codec's registers are hidden: from every agent but the WORKER, an operation answers
and emits the same whatever they hold. -/
def Obligations.HiddenStateIsNotObservable : Prop :=
  ∀ (i : Instr) (s t t' : State) (c : Codec) (w : List Sample) (p : List Byte), s.issuer ≠ .worker →
    SameConst c s.codec → exec i s = .next t → exec i { s with codec := c, work := w, pend := p } = .next t' →
    t'.rsp = t.rsp ∧ t'.audOut = t.audOut ∧ t'.evt = t.evt ∧ t'.mix = t.mix ∧ t'.pktq = t.pktq ∧
      t'.outq = t.outq ∧ t'.ring = t.ring ∧ t'.config = t.config ∧ t'.held = t.held ∧ t'.playing = t.playing
end

