-- ==== Sys2Proof/Laws/State.lean ====
section
/-!
SUPPORT. One lemma per field per update of the state, true by `rfl`, so that no later proof unfolds a record update.
-/

namespace Sys2Proof
namespace Machine

variable (s : State)

@[simp] theorem State.fail_eq (st : Status) (r : Result) : s.fail st r = s.respond st r := rfl
@[simp] theorem State.refuse_eq : s.refuse = s.respond .refused .none := rfl

@[simp] theorem State.respond_params (st : Status) (r : Result) : (s.respond st r).params = s.params := rfl
@[simp] theorem State.respond_ring (st : Status) (r : Result) : (s.respond st r).ring = s.ring := rfl
@[simp] theorem State.respond_outq (st : Status) (r : Result) : (s.respond st r).outq = s.outq := rfl
@[simp] theorem State.respond_codec (st : Status) (r : Result) : (s.respond st r).codec = s.codec := rfl
@[simp] theorem State.respond_work (st : Status) (r : Result) : (s.respond st r).work = s.work := rfl
@[simp] theorem State.respond_pend (st : Status) (r : Result) : (s.respond st r).pend = s.pend := rfl
@[simp] theorem State.respond_pkt (st : Status) (r : Result) : (s.respond st r).pkt = s.pkt := rfl
@[simp] theorem State.respond_pktq (st : Status) (r : Result) : (s.respond st r).pktq = s.pktq := rfl
@[simp] theorem State.respond_config (st : Status) (r : Result) : (s.respond st r).config = s.config := rfl
@[simp] theorem State.respond_streaming (st : Status) (r : Result) : (s.respond st r).streaming = s.streaming := rfl
@[simp] theorem State.respond_demodulating (st : Status) (r : Result) : (s.respond st r).demodulating = s.demodulating := rfl
@[simp] theorem State.respond_cmd (st : Status) (r : Result) : (s.respond st r).cmd = s.cmd := rfl
@[simp] theorem State.respond_issuer (st : Status) (r : Result) : (s.respond st r).issuer = s.issuer := rfl
@[simp] theorem State.respond_who (st : Status) (r : Result) : (s.respond st r).who = s.who := rfl
@[simp] theorem State.respond_playing (st : Status) (r : Result) : (s.respond st r).playing = s.playing := rfl
@[simp] theorem State.respond_rsp (st : Status) (r : Result) : (s.respond st r).rsp = some ⟨st, r⟩ := rfl
@[simp] theorem State.respond_audOut (st : Status) (r : Result) : (s.respond st r).audOut = s.audOut := rfl
@[simp] theorem State.respond_evt (st : Status) (r : Result) : (s.respond st r).evt = s.evt := rfl
@[simp] theorem State.respond_mix (st : Status) (r : Result) : (s.respond st r).mix = s.mix := rfl
@[simp] theorem State.respond_held (st : Status) (r : Result) : (s.respond st r).held = s.held := rfl

@[simp] theorem State.emit_params (e : Event) : (s.emit e).params = s.params := rfl
@[simp] theorem State.emit_ring (e : Event) : (s.emit e).ring = s.ring := rfl
@[simp] theorem State.emit_outq (e : Event) : (s.emit e).outq = s.outq := rfl
@[simp] theorem State.emit_codec (e : Event) : (s.emit e).codec = s.codec := rfl
@[simp] theorem State.emit_work (e : Event) : (s.emit e).work = s.work := rfl
@[simp] theorem State.emit_pend (e : Event) : (s.emit e).pend = s.pend := rfl
@[simp] theorem State.emit_pkt (e : Event) : (s.emit e).pkt = s.pkt := rfl
@[simp] theorem State.emit_pktq (e : Event) : (s.emit e).pktq = s.pktq := rfl
@[simp] theorem State.emit_config (e : Event) : (s.emit e).config = s.config := rfl
@[simp] theorem State.emit_streaming (e : Event) : (s.emit e).streaming = s.streaming := rfl
@[simp] theorem State.emit_demodulating (e : Event) : (s.emit e).demodulating = s.demodulating := rfl
@[simp] theorem State.emit_cmd (e : Event) : (s.emit e).cmd = s.cmd := rfl
@[simp] theorem State.emit_issuer (e : Event) : (s.emit e).issuer = s.issuer := rfl
@[simp] theorem State.emit_who (e : Event) : (s.emit e).who = s.who := rfl
@[simp] theorem State.emit_playing (e : Event) : (s.emit e).playing = s.playing := rfl
@[simp] theorem State.emit_rsp (e : Event) : (s.emit e).rsp = s.rsp := rfl
@[simp] theorem State.emit_audOut (e : Event) : (s.emit e).audOut = s.audOut := rfl
@[simp] theorem State.emit_evt (e : Event) : (s.emit e).evt = s.evt ++ [e] := rfl
@[simp] theorem State.emit_mix (e : Event) : (s.emit e).mix = s.mix := rfl
@[simp] theorem State.emit_held (e : Event) : (s.emit e).held = s.held := rfl

@[simp] theorem State.accept_params (a : Agent) (w : Nat) (rest : List Request) : (s.accept a w rest).params = s.params := rfl
@[simp] theorem State.accept_ring (a : Agent) (w : Nat) (rest : List Request) : (s.accept a w rest).ring = s.ring := rfl
@[simp] theorem State.accept_outq (a : Agent) (w : Nat) (rest : List Request) : (s.accept a w rest).outq = s.outq := rfl
@[simp] theorem State.accept_codec (a : Agent) (w : Nat) (rest : List Request) : (s.accept a w rest).codec = s.codec := rfl
@[simp] theorem State.accept_work (a : Agent) (w : Nat) (rest : List Request) : (s.accept a w rest).work = s.work := rfl
@[simp] theorem State.accept_pend (a : Agent) (w : Nat) (rest : List Request) : (s.accept a w rest).pend = s.pend := rfl
@[simp] theorem State.accept_pkt (a : Agent) (w : Nat) (rest : List Request) : (s.accept a w rest).pkt = s.pkt := rfl
@[simp] theorem State.accept_pktq (a : Agent) (w : Nat) (rest : List Request) : (s.accept a w rest).pktq = s.pktq := rfl
@[simp] theorem State.accept_config (a : Agent) (w : Nat) (rest : List Request) : (s.accept a w rest).config = s.config := rfl
@[simp] theorem State.accept_streaming (a : Agent) (w : Nat) (rest : List Request) : (s.accept a w rest).streaming = s.streaming := rfl
@[simp] theorem State.accept_demodulating (a : Agent) (w : Nat) (rest : List Request) : (s.accept a w rest).demodulating = s.demodulating := rfl
@[simp] theorem State.accept_cmd (a : Agent) (w : Nat) (rest : List Request) : (s.accept a w rest).cmd = rest := rfl
@[simp] theorem State.accept_issuer (a : Agent) (w : Nat) (rest : List Request) : (s.accept a w rest).issuer = a := rfl
@[simp] theorem State.accept_who (a : Agent) (w : Nat) (rest : List Request) : (s.accept a w rest).who = w := rfl
@[simp] theorem State.accept_playing (a : Agent) (w : Nat) (rest : List Request) : (s.accept a w rest).playing = s.playing := rfl
@[simp] theorem State.accept_rsp (a : Agent) (w : Nat) (rest : List Request) : (s.accept a w rest).rsp = s.rsp := rfl
@[simp] theorem State.accept_audOut (a : Agent) (w : Nat) (rest : List Request) : (s.accept a w rest).audOut = s.audOut := rfl
@[simp] theorem State.accept_evt (a : Agent) (w : Nat) (rest : List Request) : (s.accept a w rest).evt = s.evt := rfl
@[simp] theorem State.accept_mix (a : Agent) (w : Nat) (rest : List Request) : (s.accept a w rest).mix = s.mix := rfl
@[simp] theorem State.accept_held (a : Agent) (w : Nat) (rest : List Request) : (s.accept a w rest).held = s.held := rfl

@[simp] theorem State.placeRequest_params (r : Request) : (s.placeRequest r).params = s.params := rfl
@[simp] theorem State.placeRequest_ring (r : Request) : (s.placeRequest r).ring = s.ring := rfl
@[simp] theorem State.placeRequest_outq (r : Request) : (s.placeRequest r).outq = s.outq := rfl
@[simp] theorem State.placeRequest_codec (r : Request) : (s.placeRequest r).codec = s.codec := rfl
@[simp] theorem State.placeRequest_work (r : Request) : (s.placeRequest r).work = s.work := rfl
@[simp] theorem State.placeRequest_pend (r : Request) : (s.placeRequest r).pend = s.pend := rfl
@[simp] theorem State.placeRequest_pkt (r : Request) : (s.placeRequest r).pkt = s.pkt := rfl
@[simp] theorem State.placeRequest_pktq (r : Request) : (s.placeRequest r).pktq = s.pktq := rfl
@[simp] theorem State.placeRequest_config (r : Request) : (s.placeRequest r).config = s.config := rfl
@[simp] theorem State.placeRequest_streaming (r : Request) : (s.placeRequest r).streaming = s.streaming := rfl
@[simp] theorem State.placeRequest_demodulating (r : Request) : (s.placeRequest r).demodulating = s.demodulating := rfl
@[simp] theorem State.placeRequest_cmd (r : Request) : (s.placeRequest r).cmd = r :: s.cmd := rfl
@[simp] theorem State.placeRequest_issuer (r : Request) : (s.placeRequest r).issuer = s.issuer := rfl
@[simp] theorem State.placeRequest_who (r : Request) : (s.placeRequest r).who = s.who := rfl
@[simp] theorem State.placeRequest_playing (r : Request) : (s.placeRequest r).playing = s.playing := rfl
@[simp] theorem State.placeRequest_rsp (r : Request) : (s.placeRequest r).rsp = s.rsp := rfl
@[simp] theorem State.placeRequest_audOut (r : Request) : (s.placeRequest r).audOut = s.audOut := rfl
@[simp] theorem State.placeRequest_evt (r : Request) : (s.placeRequest r).evt = s.evt := rfl
@[simp] theorem State.placeRequest_mix (r : Request) : (s.placeRequest r).mix = s.mix := rfl
@[simp] theorem State.placeRequest_held (r : Request) : (s.placeRequest r).held = s.held := rfl

@[simp] theorem State.stopDemod_params : s.stopDemod.params = s.params := rfl
@[simp] theorem State.stopDemod_ring : s.stopDemod.ring = ringCleared s.ring := rfl
@[simp] theorem State.stopDemod_outq : s.stopDemod.outq = s.outq := rfl
@[simp] theorem State.stopDemod_codec : s.stopDemod.codec = s.codec := rfl
@[simp] theorem State.stopDemod_work : s.stopDemod.work = s.work := rfl
@[simp] theorem State.stopDemod_pend : s.stopDemod.pend = s.pend := rfl
@[simp] theorem State.stopDemod_pkt : s.stopDemod.pkt = s.pkt := rfl
@[simp] theorem State.stopDemod_pktq : s.stopDemod.pktq = s.pktq := rfl
@[simp] theorem State.stopDemod_config : s.stopDemod.config = s.config := rfl
@[simp] theorem State.stopDemod_streaming : s.stopDemod.streaming = s.streaming := rfl
@[simp] theorem State.stopDemod_demodulating : s.stopDemod.demodulating = false := rfl
@[simp] theorem State.stopDemod_cmd : s.stopDemod.cmd = s.cmd := rfl
@[simp] theorem State.stopDemod_issuer : s.stopDemod.issuer = s.issuer := rfl
@[simp] theorem State.stopDemod_who : s.stopDemod.who = s.who := rfl
@[simp] theorem State.stopDemod_playing : s.stopDemod.playing = s.playing := rfl
@[simp] theorem State.stopDemod_rsp : s.stopDemod.rsp = s.rsp := rfl
@[simp] theorem State.stopDemod_audOut : s.stopDemod.audOut = s.audOut := rfl
@[simp] theorem State.stopDemod_evt : s.stopDemod.evt = s.evt := rfl
@[simp] theorem State.stopDemod_mix : s.stopDemod.mix = s.mix := rfl
@[simp] theorem State.stopDemod_held : s.stopDemod.held = s.held := rfl

@[simp] theorem State.stopStream_params : s.stopStream.params = s.params := rfl
@[simp] theorem State.stopStream_ring : s.stopStream.ring = ringCleared s.ring := rfl
@[simp] theorem State.stopStream_outq : s.stopStream.outq = [] := rfl
@[simp] theorem State.stopStream_codec : s.stopStream.codec = s.codec := rfl
@[simp] theorem State.stopStream_work : s.stopStream.work = s.work := rfl
@[simp] theorem State.stopStream_pend : s.stopStream.pend = s.pend := rfl
@[simp] theorem State.stopStream_pkt : s.stopStream.pkt = s.pkt := rfl
@[simp] theorem State.stopStream_pktq : s.stopStream.pktq = s.pktq := rfl
@[simp] theorem State.stopStream_config : s.stopStream.config = s.config := rfl
@[simp] theorem State.stopStream_streaming : s.stopStream.streaming = false := rfl
@[simp] theorem State.stopStream_demodulating : s.stopStream.demodulating = s.demodulating := rfl
@[simp] theorem State.stopStream_cmd : s.stopStream.cmd = s.cmd := rfl
@[simp] theorem State.stopStream_issuer : s.stopStream.issuer = s.issuer := rfl
@[simp] theorem State.stopStream_who : s.stopStream.who = s.who := rfl
@[simp] theorem State.stopStream_playing : s.stopStream.playing = s.playing := rfl
@[simp] theorem State.stopStream_rsp : s.stopStream.rsp = s.rsp := rfl
@[simp] theorem State.stopStream_audOut : s.stopStream.audOut = s.audOut := rfl
@[simp] theorem State.stopStream_evt : s.stopStream.evt = s.evt := rfl
@[simp] theorem State.stopStream_mix : s.stopStream.mix = s.mix := rfl
@[simp] theorem State.stopStream_held : s.stopStream.held = s.held := rfl

@[simp] theorem State.startDemod_params : s.startDemod.params = s.params := rfl
@[simp] theorem State.startDemod_ring : s.startDemod.ring = ringCleared s.ring := rfl
@[simp] theorem State.startDemod_outq : s.startDemod.outq = s.outq := rfl
@[simp] theorem State.startDemod_codec : s.startDemod.codec = s.codec := rfl
@[simp] theorem State.startDemod_work : s.startDemod.work = [] := rfl
@[simp] theorem State.startDemod_pend : s.startDemod.pend = [] := rfl
@[simp] theorem State.startDemod_pkt : s.startDemod.pkt = [] := rfl
@[simp] theorem State.startDemod_pktq : s.startDemod.pktq = s.pktq := rfl
@[simp] theorem State.startDemod_config : s.startDemod.config = s.config := rfl
@[simp] theorem State.startDemod_streaming : s.startDemod.streaming = s.streaming := rfl
@[simp] theorem State.startDemod_demodulating : s.startDemod.demodulating = true := rfl
@[simp] theorem State.startDemod_cmd : s.startDemod.cmd = s.cmd := rfl
@[simp] theorem State.startDemod_issuer : s.startDemod.issuer = s.issuer := rfl
@[simp] theorem State.startDemod_who : s.startDemod.who = s.who := rfl
@[simp] theorem State.startDemod_playing : s.startDemod.playing = s.playing := rfl
@[simp] theorem State.startDemod_rsp : s.startDemod.rsp = s.rsp := rfl
@[simp] theorem State.startDemod_audOut : s.startDemod.audOut = s.audOut := rfl
@[simp] theorem State.startDemod_evt : s.startDemod.evt = s.evt := rfl
@[simp] theorem State.startDemod_mix : s.startDemod.mix = s.mix := rfl
@[simp] theorem State.startDemod_held : s.startDemod.held = s.held := rfl

@[simp] theorem State.applyVolume_params (new : ModemConfig) : (s.applyVolume new).params = s.params := rfl
@[simp] theorem State.applyVolume_ring (new : ModemConfig) : (s.applyVolume new).ring = s.ring := rfl
@[simp] theorem State.applyVolume_outq (new : ModemConfig) : (s.applyVolume new).outq = s.outq := rfl
@[simp] theorem State.applyVolume_codec (new : ModemConfig) : (s.applyVolume new).codec = s.codec := rfl
@[simp] theorem State.applyVolume_work (new : ModemConfig) : (s.applyVolume new).work = s.work := rfl
@[simp] theorem State.applyVolume_pend (new : ModemConfig) : (s.applyVolume new).pend = s.pend := rfl
@[simp] theorem State.applyVolume_pkt (new : ModemConfig) : (s.applyVolume new).pkt = s.pkt := rfl
@[simp] theorem State.applyVolume_pktq (new : ModemConfig) : (s.applyVolume new).pktq = s.pktq := rfl
@[simp] theorem State.applyVolume_config (new : ModemConfig) : (s.applyVolume new).config = { s.config with inVol := new.inVol, outVol := new.outVol } := rfl
@[simp] theorem State.applyVolume_streaming (new : ModemConfig) : (s.applyVolume new).streaming = s.streaming := rfl
@[simp] theorem State.applyVolume_demodulating (new : ModemConfig) : (s.applyVolume new).demodulating = s.demodulating := rfl
@[simp] theorem State.applyVolume_cmd (new : ModemConfig) : (s.applyVolume new).cmd = s.cmd := rfl
@[simp] theorem State.applyVolume_issuer (new : ModemConfig) : (s.applyVolume new).issuer = s.issuer := rfl
@[simp] theorem State.applyVolume_who (new : ModemConfig) : (s.applyVolume new).who = s.who := rfl
@[simp] theorem State.applyVolume_playing (new : ModemConfig) : (s.applyVolume new).playing = s.playing := rfl
@[simp] theorem State.applyVolume_rsp (new : ModemConfig) : (s.applyVolume new).rsp = s.rsp := rfl
@[simp] theorem State.applyVolume_audOut (new : ModemConfig) : (s.applyVolume new).audOut = s.audOut := rfl
@[simp] theorem State.applyVolume_evt (new : ModemConfig) : (s.applyVolume new).evt = s.evt := rfl
@[simp] theorem State.applyVolume_mix (new : ModemConfig) : (s.applyVolume new).mix = some (new.inVol, new.outVol) := rfl
@[simp] theorem State.applyVolume_held (new : ModemConfig) : (s.applyVolume new).held = s.held := rfl

@[simp] theorem State.replaceBuffers_params : s.replaceBuffers.params = s.params := rfl
@[simp] theorem State.replaceBuffers_ring : s.replaceBuffers.ring = Ring.fresh := rfl
@[simp] theorem State.replaceBuffers_outq : s.replaceBuffers.outq = [] := rfl
@[simp] theorem State.replaceBuffers_codec : s.replaceBuffers.codec = s.codec := rfl
@[simp] theorem State.replaceBuffers_work : s.replaceBuffers.work = s.work := rfl
@[simp] theorem State.replaceBuffers_pend : s.replaceBuffers.pend = s.pend := rfl
@[simp] theorem State.replaceBuffers_pkt : s.replaceBuffers.pkt = s.pkt := rfl
@[simp] theorem State.replaceBuffers_pktq : s.replaceBuffers.pktq = s.pktq := rfl
@[simp] theorem State.replaceBuffers_config : s.replaceBuffers.config = s.config := rfl
@[simp] theorem State.replaceBuffers_streaming : s.replaceBuffers.streaming = s.streaming := rfl
@[simp] theorem State.replaceBuffers_demodulating : s.replaceBuffers.demodulating = s.demodulating := rfl
@[simp] theorem State.replaceBuffers_cmd : s.replaceBuffers.cmd = s.cmd := rfl
@[simp] theorem State.replaceBuffers_issuer : s.replaceBuffers.issuer = s.issuer := rfl
@[simp] theorem State.replaceBuffers_who : s.replaceBuffers.who = s.who := rfl
@[simp] theorem State.replaceBuffers_playing : s.replaceBuffers.playing = s.playing := rfl
@[simp] theorem State.replaceBuffers_rsp : s.replaceBuffers.rsp = s.rsp := rfl
@[simp] theorem State.replaceBuffers_audOut : s.replaceBuffers.audOut = s.audOut := rfl
@[simp] theorem State.replaceBuffers_evt : s.replaceBuffers.evt = s.evt := rfl
@[simp] theorem State.replaceBuffers_mix : s.replaceBuffers.mix = s.mix := rfl
@[simp] theorem State.replaceBuffers_held : s.replaceBuffers.held = s.held := rfl

@[simp] theorem State.workerPop_params : s.workerPop.params = s.params := rfl
@[simp] theorem State.workerPop_ring : s.workerPop.ring = ringPopped s.ring := rfl
@[simp] theorem State.workerPop_outq : s.workerPop.outq = s.outq := rfl
@[simp] theorem State.workerPop_codec : s.workerPop.codec = s.codec := rfl
@[simp] theorem State.workerPop_work : s.workerPop.work = s.work ++ (ringOldest s.params.ringCap s.chunkLen s.ring).getD [] := rfl
@[simp] theorem State.workerPop_pend : s.workerPop.pend = s.pend := rfl
@[simp] theorem State.workerPop_pkt : s.workerPop.pkt = s.pkt := rfl
@[simp] theorem State.workerPop_pktq : s.workerPop.pktq = s.pktq := rfl
@[simp] theorem State.workerPop_config : s.workerPop.config = s.config := rfl
@[simp] theorem State.workerPop_streaming : s.workerPop.streaming = s.streaming := rfl
@[simp] theorem State.workerPop_demodulating : s.workerPop.demodulating = s.demodulating := rfl
@[simp] theorem State.workerPop_cmd : s.workerPop.cmd = s.cmd := rfl
@[simp] theorem State.workerPop_issuer : s.workerPop.issuer = s.issuer := rfl
@[simp] theorem State.workerPop_who : s.workerPop.who = s.who := rfl
@[simp] theorem State.workerPop_playing : s.workerPop.playing = s.playing := rfl
@[simp] theorem State.workerPop_rsp : s.workerPop.rsp = s.rsp := rfl
@[simp] theorem State.workerPop_audOut : s.workerPop.audOut = s.audOut := rfl
@[simp] theorem State.workerPop_evt : s.workerPop.evt = s.evt := rfl
@[simp] theorem State.workerPop_mix : s.workerPop.mix = s.mix := rfl
@[simp] theorem State.workerPop_held : s.workerPop.held = s.held := rfl

@[simp] theorem State.workerSync_params : s.workerSync.params = s.params := rfl
@[simp] theorem State.workerSync_ring : s.workerSync.ring = s.ring := rfl
@[simp] theorem State.workerSync_outq : s.workerSync.outq = s.outq := rfl
@[simp] theorem State.workerSync_codec : s.workerSync.codec = codecAfterSync s.codec (syncSamples s.params s.codec s.work) := rfl
@[simp] theorem State.workerSync_work : s.workerSync.work = (syncSamples s.params s.codec s.work).rest := rfl
@[simp] theorem State.workerSync_pend : s.workerSync.pend = s.pend := rfl
@[simp] theorem State.workerSync_pkt : s.workerSync.pkt = s.pkt := rfl
@[simp] theorem State.workerSync_pktq : s.workerSync.pktq = s.pktq := rfl
@[simp] theorem State.workerSync_config : s.workerSync.config = s.config := rfl
@[simp] theorem State.workerSync_streaming : s.workerSync.streaming = s.streaming := rfl
@[simp] theorem State.workerSync_demodulating : s.workerSync.demodulating = s.demodulating := rfl
@[simp] theorem State.workerSync_cmd : s.workerSync.cmd = s.cmd := rfl
@[simp] theorem State.workerSync_issuer : s.workerSync.issuer = s.issuer := rfl
@[simp] theorem State.workerSync_who : s.workerSync.who = s.who := rfl
@[simp] theorem State.workerSync_playing : s.workerSync.playing = s.playing := rfl
@[simp] theorem State.workerSync_rsp : s.workerSync.rsp = s.rsp := rfl
@[simp] theorem State.workerSync_audOut : s.workerSync.audOut = s.audOut := rfl
@[simp] theorem State.workerSync_evt : s.workerSync.evt = s.evt := rfl
@[simp] theorem State.workerSync_mix : s.workerSync.mix = s.mix := rfl
@[simp] theorem State.workerSync_held : s.workerSync.held = s.held := rfl

@[simp] theorem State.workerFrame_params (r : DemodResult) : (s.workerFrame r).params = s.params := rfl
@[simp] theorem State.workerFrame_ring (r : DemodResult) : (s.workerFrame r).ring = s.ring := rfl
@[simp] theorem State.workerFrame_outq (r : DemodResult) : (s.workerFrame r).outq = s.outq := rfl
@[simp] theorem State.workerFrame_codec (r : DemodResult) : (s.workerFrame r).codec = r.codec := rfl
@[simp] theorem State.workerFrame_work (r : DemodResult) : (s.workerFrame r).work = r.rest := rfl
@[simp] theorem State.workerFrame_pend (r : DemodResult) : (s.workerFrame r).pend = (pktPushed s.pkt r.out).2 := rfl
@[simp] theorem State.workerFrame_pkt (r : DemodResult) : (s.workerFrame r).pkt = (pktPushed s.pkt r.out).1 := rfl
@[simp] theorem State.workerFrame_pktq (r : DemodResult) : (s.workerFrame r).pktq = s.pktq := rfl
@[simp] theorem State.workerFrame_config (r : DemodResult) : (s.workerFrame r).config = s.config := rfl
@[simp] theorem State.workerFrame_streaming (r : DemodResult) : (s.workerFrame r).streaming = s.streaming := rfl
@[simp] theorem State.workerFrame_demodulating (r : DemodResult) : (s.workerFrame r).demodulating = s.demodulating := rfl
@[simp] theorem State.workerFrame_cmd (r : DemodResult) : (s.workerFrame r).cmd = s.cmd := rfl
@[simp] theorem State.workerFrame_issuer (r : DemodResult) : (s.workerFrame r).issuer = s.issuer := rfl
@[simp] theorem State.workerFrame_who (r : DemodResult) : (s.workerFrame r).who = s.who := rfl
@[simp] theorem State.workerFrame_playing (r : DemodResult) : (s.workerFrame r).playing = s.playing := rfl
@[simp] theorem State.workerFrame_rsp (r : DemodResult) : (s.workerFrame r).rsp = s.rsp := rfl
@[simp] theorem State.workerFrame_audOut (r : DemodResult) : (s.workerFrame r).audOut = s.audOut := rfl
@[simp] theorem State.workerFrame_evt (r : DemodResult) : (s.workerFrame r).evt = s.evt := rfl
@[simp] theorem State.workerFrame_mix (r : DemodResult) : (s.workerFrame r).mix = s.mix := rfl
@[simp] theorem State.workerFrame_held (r : DemodResult) : (s.workerFrame r).held = s.held := rfl

@[simp] theorem State.callbackPush_params (c : List Sample) : (s.callbackPush c).params = s.params := rfl
@[simp] theorem State.callbackPush_ring (c : List Sample) : (s.callbackPush c).ring = ringPushed s.params.ringCap s.ring c := rfl
@[simp] theorem State.callbackPush_outq (c : List Sample) : (s.callbackPush c).outq = s.outq := rfl
@[simp] theorem State.callbackPush_codec (c : List Sample) : (s.callbackPush c).codec = s.codec := rfl
@[simp] theorem State.callbackPush_work (c : List Sample) : (s.callbackPush c).work = s.work := rfl
@[simp] theorem State.callbackPush_pend (c : List Sample) : (s.callbackPush c).pend = s.pend := rfl
@[simp] theorem State.callbackPush_pkt (c : List Sample) : (s.callbackPush c).pkt = s.pkt := rfl
@[simp] theorem State.callbackPush_pktq (c : List Sample) : (s.callbackPush c).pktq = s.pktq := rfl
@[simp] theorem State.callbackPush_config (c : List Sample) : (s.callbackPush c).config = s.config := rfl
@[simp] theorem State.callbackPush_streaming (c : List Sample) : (s.callbackPush c).streaming = s.streaming := rfl
@[simp] theorem State.callbackPush_demodulating (c : List Sample) : (s.callbackPush c).demodulating = s.demodulating := rfl
@[simp] theorem State.callbackPush_cmd (c : List Sample) : (s.callbackPush c).cmd = s.cmd := rfl
@[simp] theorem State.callbackPush_issuer (c : List Sample) : (s.callbackPush c).issuer = s.issuer := rfl
@[simp] theorem State.callbackPush_who (c : List Sample) : (s.callbackPush c).who = s.who := rfl
@[simp] theorem State.callbackPush_rsp (c : List Sample) : (s.callbackPush c).rsp = none := rfl
@[simp] theorem State.callbackPush_audOut (c : List Sample) : (s.callbackPush c).audOut = s.audOut := rfl
@[simp] theorem State.callbackPush_evt (c : List Sample) : (s.callbackPush c).evt = s.evt := rfl
@[simp] theorem State.callbackPush_mix (c : List Sample) : (s.callbackPush c).mix = s.mix := rfl
@[simp] theorem State.callbackPush_held (c : List Sample) : (s.callbackPush c).held = s.held := rfl
@[simp] theorem State.callbackPush_playing (c : List Sample) : (s.callbackPush c).playing = true := rfl

@[simp] theorem State.callbackPop_params : s.callbackPop.params = s.params := rfl
@[simp] theorem State.callbackPop_ring : s.callbackPop.ring = s.ring := rfl
@[simp] theorem State.callbackPop_outq : s.callbackPop.outq = outqPopped s.chunkLen s.outq := rfl
@[simp] theorem State.callbackPop_codec : s.callbackPop.codec = s.codec := rfl
@[simp] theorem State.callbackPop_work : s.callbackPop.work = s.work := rfl
@[simp] theorem State.callbackPop_pend : s.callbackPop.pend = s.pend := rfl
@[simp] theorem State.callbackPop_pkt : s.callbackPop.pkt = s.pkt := rfl
@[simp] theorem State.callbackPop_pktq : s.callbackPop.pktq = s.pktq := rfl
@[simp] theorem State.callbackPop_config : s.callbackPop.config = s.config := rfl
@[simp] theorem State.callbackPop_streaming : s.callbackPop.streaming = s.streaming := rfl
@[simp] theorem State.callbackPop_demodulating : s.callbackPop.demodulating = s.demodulating := rfl
@[simp] theorem State.callbackPop_cmd : s.callbackPop.cmd = s.cmd := rfl
@[simp] theorem State.callbackPop_issuer : s.callbackPop.issuer = .callback := rfl
@[simp] theorem State.callbackPop_who : s.callbackPop.who = s.who := rfl
@[simp] theorem State.callbackPop_rsp : s.callbackPop.rsp = some ⟨.ok, .samples s.callbackBlock⟩ := rfl
@[simp] theorem State.callbackPop_audOut : s.callbackPop.audOut = some s.callbackBlock := rfl
@[simp] theorem State.callbackPop_evt : s.callbackPop.evt = s.evt := rfl
@[simp] theorem State.callbackPop_mix : s.callbackPop.mix = s.mix := rfl
@[simp] theorem State.callbackPop_held : s.callbackPop.held = s.held := rfl
@[simp] theorem State.callbackPop_playing : s.callbackPop.playing = false := rfl

@[simp] theorem State.finishCallback_params : s.finishCallback.params = s.params := rfl
@[simp] theorem State.finishCallback_ring : s.finishCallback.ring = s.ring := rfl
@[simp] theorem State.finishCallback_outq : s.finishCallback.outq = outqPopped s.chunkLen s.outq := rfl
@[simp] theorem State.finishCallback_codec : s.finishCallback.codec = s.codec := rfl
@[simp] theorem State.finishCallback_work : s.finishCallback.work = s.work := rfl
@[simp] theorem State.finishCallback_pend : s.finishCallback.pend = s.pend := rfl
@[simp] theorem State.finishCallback_pkt : s.finishCallback.pkt = s.pkt := rfl
@[simp] theorem State.finishCallback_pktq : s.finishCallback.pktq = s.pktq := rfl
@[simp] theorem State.finishCallback_config : s.finishCallback.config = s.config := rfl
@[simp] theorem State.finishCallback_streaming : s.finishCallback.streaming = s.streaming := rfl
@[simp] theorem State.finishCallback_demodulating : s.finishCallback.demodulating = s.demodulating := rfl
@[simp] theorem State.finishCallback_cmd : s.finishCallback.cmd = afterTurn s.cmd := rfl
@[simp] theorem State.finishCallback_issuer : s.finishCallback.issuer = .callback := rfl
@[simp] theorem State.finishCallback_who : s.finishCallback.who = s.who := rfl
@[simp] theorem State.finishCallback_rsp : s.finishCallback.rsp = some ⟨.ok, .samples s.callbackBlock⟩ := rfl
@[simp] theorem State.finishCallback_audOut : s.finishCallback.audOut = some s.callbackBlock := rfl
@[simp] theorem State.finishCallback_evt : s.finishCallback.evt = s.evt := rfl
@[simp] theorem State.finishCallback_mix : s.finishCallback.mix = s.mix := rfl
@[simp] theorem State.finishCallback_held : s.finishCallback.held = s.held := rfl
@[simp] theorem State.finishCallback_playing : s.finishCallback.playing = false := rfl

end Machine
end Sys2Proof
end

