-- ==== Sys2Proof/Laws/Buffers.lean ====
section
/-!
SUPPORT. What the operations over `RING_MEM`, the InboundRing and the OutboundQueue do, once each.
-/

namespace Sys2Proof
namespace Machine

/-! ### Values by number, and `RING_MEM` -/

variable {α : Type}

theorem Cells.find_write_self (m : Cells α) (k : Nat) (c : α) : (m.write k c).find k = some c := by
  induction m with
  | nil => simp [Cells.write, Cells.find]
  | cons e r ih =>
    simp only [Cells.write]
    split
    · simp [Cells.find]
    · split
      · simp [Cells.find]
      · next h => simp [Cells.find, h, ih]

theorem Cells.find_write_other (m : Cells α) {k j : Nat} (c : α) (h : j ≠ k) :
    (m.write k c).find j = m.find j := by
  induction m with
  | nil => simp [Cells.write, Cells.find, Ne.symm h]
  | cons e r ih =>
    simp only [Cells.write]
    split
    · simp [Cells.find, Ne.symm h]
    · split
      · next he => simp [Cells.find, he, Ne.symm h]
      · simp [Cells.find, ih]

theorem Cells.mem_write {m : Cells α} {k : Nat} {c : α} {e : Nat × α}
    (h : e ∈ m.write k c) : e = (k, c) ∨ e ∈ m := by
  induction m with
  | nil => simpa [Cells.write] using h
  | cons a r ih =>
    simp only [Cells.write] at h
    split at h
    · simpa using h
    · split at h
      · simp only [List.mem_cons] at h ⊢; tauto
      · simp only [List.mem_cons] at h ⊢; tauto

/-- Every write keeps the canonical form. -/
theorem Cells.write_wf {m : Cells α} (h : Cells.wf m = true) (k : Nat) (c : α) :
    Cells.wf (m.write k c) = true := by
  simp only [Cells.wf, decide_eq_true_eq] at h ⊢
  induction m with
  | nil => simp [Cells.write]
  | cons e r ih =>
    rw [List.pairwise_cons] at h
    simp only [Cells.write]
    split
    · next hk =>
      rw [List.pairwise_cons, List.pairwise_cons]
      refine ⟨fun a ha => ?_, h⟩
      rcases List.mem_cons.1 ha with rfl | ha
      · exact hk
      · exact Nat.lt_trans hk (h.1 a ha)
    · split
      · next he => exact List.pairwise_cons.2 ⟨fun a ha => by simpa [he] using h.1 a ha, h.2⟩
      · next hk he =>
        refine List.pairwise_cons.2 ⟨fun a ha => ?_, ih h.2⟩
        rcases Cells.mem_write ha with rfl | ha
        · show e.1 < k; omega
        · exact h.1 a ha

theorem Cells.mem_of_find {m : Cells α} {k : Nat} {c : α} (h : m.find k = some c) : (k, c) ∈ m := by
  induction m with
  | nil => simp [Cells.find] at h
  | cons e r ih =>
    simp only [Cells.find] at h
    split at h
    · next he => obtain ⟨a, b⟩ := e; simp_all
    · exact List.mem_cons_of_mem _ (ih h)

@[simp] theorem unwrittenSlot_length (slot chunk : Nat) : (unwrittenSlot slot chunk).length = chunk := by
  simp [unwrittenSlot]

/-! ### InboundRing -/

theorem Ring.fresh_wf {cap chunk : Nat} (h : 1 ≤ cap) : RingWf cap chunk Ring.fresh := by
  refine ⟨by decide, h, Nat.zero_le _, by simp [Ring.fresh], fun m hm => ?_⟩
  simp [Ring.fresh] at hm

theorem ringCleared_wf {cap chunk : Nat} {r : Ring} (h : RingWf cap chunk r) : RingWf cap chunk (ringCleared r) :=
  ⟨h.1, Nat.lt_of_le_of_lt (Nat.zero_le _) h.2.1, Nat.zero_le _, h.2.2.2.1, fun m hm => absurd hm (Nat.not_lt_zero m)⟩

/-- The slot of retained chunk `m` of the popped ring is that of chunk `m + 1` before the pop. -/
theorem retainedSlot_popped {cap : Nat} {r : Ring} (h0 : 0 < r.size) (hc : r.size ≤ cap) (m : Nat) :
    retainedSlot cap (ringPopped r) m = retainedSlot cap r (m + 1) := by
  have : r.tail + cap - (r.size - 1) + m = r.tail + cap - r.size + (m + 1) := by omega
  simp [retainedSlot, ringPopped, this]

theorem ringPopped_wf {cap chunk : Nat} {r : Ring} (h : RingWf cap chunk r) : RingWf cap chunk (ringPopped r) := by
  obtain ⟨h1, h2, h3, h4, h5⟩ := h
  refine ⟨h1, h2, ?_, h4, fun m hm => ?_⟩
  · simp only [ringPopped]; omega
  · simp only [ringPopped] at hm
    rw [retainedSlot_popped (by omega) h3]
    exact h5 (m + 1) (by omega)

/-- The slot a push writes is the tail's; the retained chunks before it keep their slots, renumbered by one when the
ring was full. -/
theorem retainedSlot_pushed {cap : Nat} {r : Ring} {c : List Sample} (ht : r.tail < cap) (hs : r.size ≤ cap)
    {m : Nat} (hm : m < min (r.size + 1) cap) :
    retainedSlot cap (ringPushed cap r c) m =
      if m + 1 = min (r.size + 1) cap then r.tail
      else retainedSlot cap r (m + (r.size + 1 - min (r.size + 1) cap)) := by
  simp only [retainedSlot, ringPushed]
  rcases Nat.lt_or_ge (r.tail + 1) cap with h | h
  · rw [Nat.mod_eq_of_lt h]
    rcases Nat.lt_or_ge r.size cap with hl | hl
    · rw [Nat.min_eq_left (by omega)] at hm ⊢
      split
      · have e : r.tail + 1 + cap - (r.size + 1) + m = r.tail + cap := by omega
        rw [e, Nat.add_mod_right, Nat.mod_eq_of_lt ht]
      · congr 1; omega
    · have : r.size = cap := by omega
      subst this
      rw [Nat.min_eq_right (by omega)] at hm ⊢
      split
      · have e : r.tail + 1 + r.size - r.size + m = r.tail + r.size := by omega
        rw [e, Nat.add_mod_right, Nat.mod_eq_of_lt ht]
      · congr 1; omega
  · have e : r.tail + 1 = cap := by omega
    rw [e, Nat.mod_self]
    rcases Nat.lt_or_ge r.size cap with hl | hl
    · rw [Nat.min_eq_left (by omega)] at hm ⊢
      split
      · rw [Nat.mod_eq_of_lt (by omega)]; omega
      · have e2 : r.tail + cap - r.size + (m + (r.size + 1 - (r.size + 1))) = (0 + cap - (r.size + 1) + m) + cap := by
          omega
        rw [e2, Nat.add_mod_right]
    · have hsz : r.size = cap := by omega
      rw [hsz, Nat.min_eq_right (by omega)] at hm ⊢
      split
      · rw [Nat.mod_eq_of_lt (by omega)]; omega
      · have e2 : r.tail + cap - cap + (m + (cap + 1 - cap)) = (0 + cap - cap + m) + cap := by omega
        rw [e2, Nat.add_mod_right]

/-- The tail's slot holds the oldest chunk of a full ring, and no retained chunk otherwise. -/
theorem retainedSlot_ne_tail {cap : Nat} {r : Ring} (ht : r.tail < cap) (hs : r.size ≤ cap) {m : Nat}
    (hm : m < r.size) (h : 0 < m ∨ r.size < cap) : retainedSlot cap r m ≠ r.tail := by
  simp only [retainedSlot]
  rcases Nat.lt_or_ge (r.tail + cap - r.size + m) cap with hl | hl
  · rw [Nat.mod_eq_of_lt hl]; omega
  · rw [Nat.mod_eq_sub_mod hl, Nat.mod_eq_of_lt (by omega)]; omega

theorem ringPushed_wf {cap chunk : Nat} {r : Ring} {c : List Sample} (h : RingWf cap chunk r)
    (hc : c.length = chunk) : RingWf cap chunk (ringPushed cap r c) := by
  obtain ⟨h1, h2, h3, h4, h5⟩ := h
  refine ⟨Cells.write_wf h1 _ _, Nat.mod_lt _ (by omega), Nat.min_le_right _ _, fun e he => ?_, fun m hm => ?_⟩
  · rcases Cells.mem_write he with rfl | he
    · exact ⟨h2, hc⟩
    · exact h4 e he
  · rw [retainedSlot_pushed h2 h3 hm]
    split
    · simp [ringPushed, Cells.find_write_self]
    · next hne =>
      simp only [ringPushed] at hm
      have hlt : m + (r.size + 1 - min (r.size + 1) cap) < r.size := by omega
      rw [ringPushed, Cells.find_write_other _ _ (retainedSlot_ne_tail h2 h3 hlt (by omega))]
      exact h5 _ hlt

/-- A retained chunk has `CHUNK` samples. -/
theorem Memory.read_length {cap chunk : Nat} {r : Ring} (h : RingWf cap chunk r) (k : Nat) :
    (r.slots.read k chunk).length = chunk := by
  simp only [Memory.read]
  cases hf : r.slots.find k with
  | none => simp
  | some c => simpa using (h.2.2.2.1 _ (Cells.mem_of_find hf)).2

/-- The contents after a push: the new chunk behind the old ones, without the oldest when the ring was full
(R110). -/
theorem ringContents_pushed {cap chunk : Nat} {r : Ring} (c : List Sample) (ht : r.tail < cap) (hs : r.size ≤ cap) :
    ringContents cap chunk (ringPushed cap r c) =
      (ringContents cap chunk r).drop (r.size + 1 - min (r.size + 1) cap) ++ [c] := by
  have hsz : (ringPushed cap r c).size = min (r.size + 1) cap := rfl
  apply List.ext_getElem
  · simp [ringContents, hsz]; omega
  · intro m h1 h2
    simp only [ringContents, List.length_map, List.length_range, hsz] at h1
    simp only [ringContents, List.getElem_map, List.getElem_range]
    rw [retainedSlot_pushed ht hs h1, List.getElem_append]
    by_cases hm : m + 1 = min (r.size + 1) cap
    · rw [if_pos hm, dif_neg (by simp; omega)]
      simp [ringPushed, Memory.read, Cells.find_write_self]
    · have hlt : m + (r.size + 1 - min (r.size + 1) cap) < r.size := by omega
      rw [if_neg hm, dif_pos (by simp; omega)]
      simp only [List.getElem_drop, List.getElem_map, List.getElem_range]
      rw [ringPushed, Memory.read, Memory.read,
        Cells.find_write_other _ _ (retainedSlot_ne_tail ht hs hlt (by omega)), Nat.add_comm m]

/-- The oldest chunk is the first of the contents (R111). -/
theorem ringOldest_eq_head {cap chunk : Nat} {r : Ring} :
    ringOldest cap chunk r = (ringContents cap chunk r).head? := by
  by_cases h : r.size = 0
  · simp [ringOldest, ringContents, h]
  · obtain ⟨n, hn⟩ := Nat.exists_eq_succ_of_ne_zero h
    simp [ringOldest, ringContents, hn, List.range_succ_eq_map, ringHead, retainedSlot]

/-- The contents after a pop: without the oldest chunk (R111). -/
theorem ringContents_popped {cap chunk : Nat} {r : Ring} (hs : r.size ≤ cap) :
    ringContents cap chunk (ringPopped r) = (ringContents cap chunk r).tail := by
  by_cases h : r.size = 0
  · simp [ringContents, ringPopped, h]
  · obtain ⟨n, hn⟩ := Nat.exists_eq_succ_of_ne_zero h
    have hsl : (ringPopped r).slots = r.slots := rfl
    have hsz : (ringPopped r).size = n := by simp [ringPopped, hn]
    simp only [ringContents, hsl, hsz, hn, List.range_succ_eq_map, List.map_cons, List.tail_cons, List.map_map]
    refine List.map_congr_left fun m _ => ?_
    simp only [Function.comp, Nat.succ_eq_add_one]
    rw [retainedSlot_popped (by omega) hs]

/-! ### OutboundQueue -/

theorem windowsOf_bounds {n chunk : Nat} (hc : 1 ≤ chunk) :
    n ≤ windowsOf n chunk * chunk ∧ windowsOf n chunk * chunk < n + chunk := by
  have h1 := Nat.div_mul_le_self (n + chunk - 1) chunk
  have h2 := Nat.lt_div_mul_add (a := n + chunk - 1) (b := chunk) (by omega)
  simp only [windowsOf]
  constructor <;> omega

theorem padToChunk_length {x : List Sample} {chunk : Nat} (hc : 1 ≤ chunk) :
    (padToChunk x chunk).length = windowsOf x.length chunk * chunk := by
  have := (windowsOf_bounds (n := x.length) hc).1
  simp [padToChunk, zeros]; omega

theorem outqPushed_wf {P : Params} {chunk : Nat} {q : List OutEntry} {x : List Sample} (hc : 1 ≤ chunk)
    (h : OutqWf P chunk q) (hr : outqRefuses P chunk q x = false) : OutqWf P chunk (outqPushed chunk q x) := by
  simp only [outqRefuses, Bool.or_eq_false_iff, decide_eq_false_iff_not] at hr
  obtain ⟨⟨h0, h1⟩, h2⟩ := hr
  obtain ⟨ha, hb, hd⟩ := h
  have hlen := padToChunk_length (x := x) hc
  have hle := (windowsOf_bounds (n := x.length) hc).1
  have hpos : 1 ≤ windowsOf x.length chunk := by
    rcases Nat.eq_zero_or_pos (windowsOf x.length chunk) with hz | hz
    · rw [hz] at hle; omega
    · exact hz
  have hmul : chunk ≤ windowsOf x.length chunk * chunk := Nat.le_mul_of_pos_left _ hpos
  refine ⟨fun e he => ?_, fun e he => ?_, ?_⟩
  · rcases List.mem_append.1 he with he | he
    · exact ha e he
    · obtain rfl : e = outEntryOf x chunk := by simpa using he
      simp only [EntryWf, outEntryOf, hlen, Nat.mul_mod_left, Nat.zero_mod, true_and]
      omega
  · cases q with
    | nil => simp [outqPushed] at he
    | cons a r =>
      rcases List.mem_append.1 (show e ∈ r ++ [outEntryOf x chunk] by simpa [outqPushed] using he) with he | he
      · exact hb e he
      · obtain rfl : e = outEntryOf x chunk := by simpa using he
        rfl
  · cases hcap : P.outqDepth with
    | none => rfl
    | some d =>
      rw [hcap] at h2 hd
      simp only [withinCap, decide_eq_true_eq, Option.some.injEq] at h2 hd ⊢
      simp [outqPushed]; omega

theorem outqPopped_wf {P : Params} {chunk : Nat} {q : List OutEntry} (h : OutqWf P chunk q) :
    OutqWf P chunk (outqPopped chunk q) := by
  obtain ⟨ha, hb, hd⟩ := h
  cases q with
  | nil => exact ⟨ha, hb, hd⟩
  | cons e r =>
    have hr : withinCap P.outqDepth r.length = true := by
      cases hcap : P.outqDepth with
      | none => rfl
      | some d =>
        rw [hcap] at hd
        simp only [withinCap, decide_eq_true_eq, List.length_cons] at hd ⊢; omega
    simp only [outqPopped]
    split
    · refine ⟨fun f hf => ha f (List.mem_cons_of_mem _ hf), fun f hf => ?_, hr⟩
      exact hb f (List.mem_of_mem_tail hf)
    · next hne =>
      obtain ⟨e1, e2, e3, e4, e5⟩ := ha e (List.mem_cons_self ..)
      refine ⟨fun f hf => ?_, hb, hd⟩
      rcases List.mem_cons.1 hf with rfl | hf
      · refine ⟨e1, e2, by simp [e3], ?_, e5⟩
        obtain ⟨a, ha'⟩ := Nat.dvd_of_mod_eq_zero e1
        obtain ⟨b, hb'⟩ := Nat.dvd_of_mod_eq_zero e3
        simp only [ha', hb'] at e4 hne ⊢
        have hba : b < a := Nat.lt_of_mul_lt_mul_left e4
        have : chunk * (b + 1) ≤ chunk * a := Nat.mul_le_mul_left _ hba
        rw [Nat.mul_add, Nat.mul_one] at this
        omega
      · exact ha f (List.mem_cons_of_mem _ hf)

/-- The window a pop delivers from a well-formed head entry has `CHUNK` samples (R115). -/
theorem outqWindow_length {P : Params} {chunk : Nat} {q : List OutEntry} {dst : List Sample}
    (h : OutqWf P chunk q) (hd : dst.length = chunk) : (outqWindow chunk q dst).length = chunk := by
  cases q with
  | nil => exact hd
  | cons e r =>
    obtain ⟨e1, _, e3, e4, _⟩ := h.1 e (List.mem_cons_self ..)
    obtain ⟨a, ha'⟩ := Nat.dvd_of_mod_eq_zero e1
    obtain ⟨b, hb'⟩ := Nat.dvd_of_mod_eq_zero e3
    have hba : b < a := by rw [ha', hb'] at e4; exact Nat.lt_of_mul_lt_mul_left e4
    have : chunk * (b + 1) ≤ chunk * a := Nat.mul_le_mul_left _ hba
    rw [Nat.mul_add, Nat.mul_one] at this
    simp only [outqWindow, List.length_take, List.length_drop, ha', hb']
    omega

end Machine
end Sys2Proof
end

