-- ==== Sys2Proof/Laws/Codec.lean ====
section
/-!
SUPPORT. What constructing, synchronizing, demodulating and modulating do, once each.
-/

namespace Sys2Proof
namespace Machine

/-! ### Construction -/

theorem roundScaled_le (t c : Nat) : roundScaled t c ≤ t := by
  have h1 : t * min c cosScale ≤ t * cosScale := Nat.mul_le_mul_left _ (Nat.min_le_right _ _)
  have h2 : 0 < cosScale := by decide
  refine Nat.le_of_lt_succ ((Nat.div_lt_iff_lt_mul (by omega)).2 ?_)
  have h3 : (t + 1) * (2 * cosScale) = 2 * (t * cosScale) + 2 * cosScale := by ring
  have h4 : 2 * t * min c cosScale = 2 * (t * min c cosScale) := by ring
  simp only [Nat.succ_eq_add_one, h3, h4]
  omega

theorem nominalCos_bounds (t a b : Nat) : -(t : Int) ≤ nominalCos t a b ∧ nominalCos t a b ≤ (t : Int) := by
  simp only [nominalCos]
  generalize (if b < 2 * (a % b) then b - a % b else a % b) = h
  have h1 := roundScaled_le t (quarterCos h b)
  have h2 := roundScaled_le t (quarterCos (b - 2 * h) (2 * b))
  split <;> constructor <;> omega

theorem nominalTable_legal (P : Params) (n : TableName) (sr bd len : Nat) :
    TableLegal P.tabOne len (nominalTable P n sr bd len) := by
  refine ⟨by simp [nominalTable], fun v hv => ?_⟩
  simp only [nominalTable, List.mem_map] at hv
  obtain ⟨k, -, rfl⟩ := hv
  split
  · exact nominalCos_bounds _ _ _
  · exact nominalCos_bounds _ _ _

/-- Every table of a legal machine has `L` entries within `TAB_ONE` (R132). -/
theorem tableOf_legal {P : Params} (h : ParamsLegal P) {k : CodecType} {n : TableName} (hn : kindOfTable n = k)
    (sr bd : Nat) : TableLegal P.tabOne (symLenOf k sr bd) (tableOf P n sr bd (symLenOf k sr bd)) := by
  simp only [tableOf]
  split
  · next e he =>
    have hp := List.find?_some he
    simp only [decide_eq_true_eq] at hp
    obtain ⟨rfl, rfl, rfl⟩ := hp
    have := h.2.2.2.2.2.1 e (List.mem_of_find?_eq_some he)
    rwa [hn] at this
  · exact nominalTable_legal ..

theorem symLenOf_pos {k : CodecType} {sr bd : Nat} (hb : 1 ≤ bd) (hs : 1 ≤ sr) (hd : sr % bd = 0) :
    1 ≤ symLenOf k sr bd := by
  have hle : bd ≤ sr := Nat.le_of_dvd hs (Nat.dvd_of_mod_eq_zero hd)
  cases k
  · exact Nat.div_pos hle hb
  · exact Nat.div_pos (by omega) hb

theorem buildCodec_const_wf {P : Params} (h : ParamsLegal P) {k : CodecType} {sr bd : Nat} (hb : 1 ≤ bd)
    (hs : 1 ≤ sr) (hd : sr % bd = 0) : CodecConstWf P (buildCodec P k sr bd) := by
  refine ⟨symLenOf_pos hb hs hd, rfl, rfl, rfl, ?_⟩
  cases k
  · exact ⟨tableOf_legal h rfl .., tableOf_legal h rfl .., tableOf_legal h rfl .., tableOf_legal h rfl ..⟩
  · exact ⟨tableOf_legal h rfl .., tableOf_legal h rfl ..⟩

theorem buildCodec_regs_wf (P : Params) (k : CodecType) (sr bd : Nat) : CodecRegsWf (buildCodec P k sr bd) := by
  refine ⟨by simp [buildCodec], by simp [buildCodec], by simp [buildCodec], by simp [buildCodec], fun _ => ?_⟩
  simp [buildCodec]

/-- Legal rates are positive numbers, and one divides the other. -/
theorem ratesLegal_spec {sr bd : Int} (h : ratesLegal sr bd = true) :
    1 ≤ bd.toNat ∧ 1 ≤ sr.toNat ∧ sr.toNat % bd.toNat = 0 := by
  simp only [ratesLegal, Bool.and_eq_true, decide_eq_true_eq] at h
  obtain ⟨⟨hb, hs⟩, hm⟩ := h
  lift bd to ℕ using by omega
  lift sr to ℕ using by omega
  simp only [Int.toNat_natCast]
  exact ⟨by omega, by omega, by exact_mod_cast hm⟩

/-! ### The constants of an instance -/

theorem SameConst.const_wf {P : Params} {a b : Codec} (h : SameConst a b) (hb : CodecConstWf P b) :
    CodecConstWf P a := by
  obtain ⟨h1, h2, h3, h4, h5, h6⟩ := h
  unfold CodecConstWf TablesWf
  rw [h1, h2, h3, h4, h5, h6]
  exact hb

/-- An instance differs from another of the same constants in its four registers only. -/
theorem SameConst.eq_with {a b : Codec} (h : SameConst a b) :
    a = { b with synchronized := a.synchronized, bitVal := a.bitVal, bitCnt := a.bitCnt, byteCnt := a.byteCnt } := by
  obtain ⟨h1, h2, h3, h4, h5, h6⟩ := h
  cases a; cases b; simp_all

theorem codecAfterSync_const (c : Codec) (r : SyncResult) : SameConst (codecAfterSync c r) c :=
  ⟨rfl, rfl, rfl, rfl, rfl, rfl⟩

theorem codecAfterSync_regs {c : Codec} (h : CodecRegsWf c) (r : SyncResult) : CodecRegsWf (codecAfterSync c r) := by
  obtain ⟨h1, h2, h3, h4, h5⟩ := h
  exact ⟨h1, h2, h3, h4, fun hf => h5 (Bool.or_eq_false_iff.1 hf).1⟩

/-! ### The sums of R133 -/

theorem dot_eq_sum (w : List Sample) (t : List Int) (h : t.length ≤ w.length) :
    dot w t = ((List.range t.length).map fun k => (w.getD k 0).toInt * t.getD k 0).sum := by
  induction w generalizing t with
  | nil => cases t with
    | nil => rfl
    | cons => simp at h
  | cons x xs ih => cases t with
    | nil => rfl
    | cons y ys =>
      rw [dot, ih ys (by simpa using h), List.length_cons, List.range_succ_eq_map]
      simp [List.map_map, Function.comp_def]

/-- `corr` is the sum `Σ x[p + k] × T[k mod L]` of R133 over a window that is there. -/
theorem corr_eq_sum (w : List Sample) (n : Nat) (t : List Int) (h : n ≤ w.length) :
    corr w n t = ((List.range n).map fun k => (w.getD k 0).toInt * t.getD (k % t.length) 0).sum := by
  have hl : (cyclic t n).length = n := by simp [cyclic]
  rw [corr, dot_eq_sum _ _ (by simp [hl, h]), hl]
  refine congrArg List.sum (List.map_congr_left fun k hk => ?_)
  have hk := List.mem_range.1 hk
  simp [cyclic, List.getD_eq_getElem?_getD, hk]

/-! ### Windows: a primitive reads its window only (R137) -/

theorem corr_take (w : List Sample) (n : Nat) (t : List Int) : corr (w.take n) n t = corr w n t := by
  simp [corr, List.take_take]

theorem lowMag2_take (c : Codec) (w : List Sample) : lowMag2 c (w.take c.symLen) = lowMag2 c w := by
  simp only [lowMag2, corr_take]

theorem highMag2_take (c : Codec) (w : List Sample) : highMag2 c (w.take c.symLen) = highMag2 c w := by
  simp only [highMag2, corr_take]

theorem cosComp_take (c : Codec) (w : List Sample) : cosComp c (w.take c.symLen) = cosComp c w := by
  simp only [cosComp, corr_take]

theorem sinComp_take (c : Codec) (w : List Sample) : sinComp c (w.take c.symLen) = sinComp c w := by
  simp only [sinComp, corr_take]

theorem power2_take (c : Codec) (w : List Sample) : power2 c (w.take c.symLen) = power2 c w := by
  simp only [power2, lowMag2_take, highMag2_take, cosComp_take, sinComp_take]

theorem above_take (P : Params) (c : Codec) (w : List Sample) : above P c (w.take c.symLen) = above P c w := by
  simp only [above, power2_take]

theorem below_take (P : Params) (c : Codec) (w : List Sample) : below P c (w.take c.symLen) = below P c w := by
  simp only [below, power2_take]

theorem confirm_take (c : Codec) (w : List Sample) : confirm c (w.take c.symLen) = confirm c w := by
  simp only [confirm, lowMag2_take, highMag2_take, cosComp_take, sinComp_take]

theorem decideBits_take (c : Codec) (w : List Sample) : decideBits c (w.take c.symLen) = decideBits c w := by
  simp only [decideBits, lowMag2_take, highMag2_take, cosComp_take, sinComp_take]

theorem disc_take (c : Codec) (w : List Sample) : disc c (w.take (2 * c.symLen)) = disc c w := by
  simp only [disc, corr_take]

/-- A signal above the threshold is not below it (R137 SCALE). -/
theorem not_below_of_above {P : Params} {c : Codec} {w : List Sample} (h : above P c w = true) :
    below P c w = false := by
  simp only [above, below, decide_eq_true_eq, decide_eq_false_iff_not] at *
  omega

/-! ### Silence (R137 ZERO) -/

theorem dot_zeros (n : Nat) (t : List Int) : dot (zeros n) t = 0 := by
  induction n generalizing t with
  | zero => cases t <;> rfl
  | succ n ih =>
    cases t with
    | nil => rfl
    | cons a t =>
      have := ih t
      simp only [zeros] at this ⊢
      simp [List.replicate_succ, dot, this]

theorem corr_zeros (m n : Nat) (t : List Int) : corr (zeros m) n t = 0 := by
  rw [corr, zeros, List.take_replicate]; exact dot_zeros _ _

theorem power2_zeros (c : Codec) (m : Nat) : power2 c (zeros m) = 0 := by
  cases hk : c.kind <;> simp [power2, hk, lowMag2, highMag2, cosComp, sinComp, corr_zeros, sq]

theorem above_zeros (P : Params) (c : Codec) (m : Nat) : above P c (zeros m) = false := by
  have : 0 ≤ scale2 P c := mul_self_nonneg _
  simp only [above, power2_zeros, decide_eq_false_iff_not, sq, Config.threshNum, Config.threshDen]
  omega

/-! ### Synchronize -/

theorem confirmScan_suffix (c : Codec) (f : Nat) (w : List Sample) : (confirmScan c f w).rest <:+ w := by
  induction f generalizing w with
  | zero => exact List.suffix_refl _
  | succ f ih =>
    simp only [confirmScan]
    split
    · split
      · exact List.drop_suffix _ _
      · exact (ih _).trans (List.drop_suffix _ _)
    · exact List.suffix_refl _

/-- What is left is the input without a consumed front part (R140). -/
theorem syncScan_suffix (P : Params) (c : Codec) (f : Nat) (w : List Sample) : (syncScan P c f w).rest <:+ w := by
  induction f generalizing w with
  | zero => exact List.suffix_refl _
  | succ f ih =>
    simp only [syncScan]
    split
    · split
      · exact (confirmScan_suffix ..).trans (List.drop_suffix _ _)
      · exact (ih _).trans (List.drop_suffix _ _)
    · exact List.suffix_refl _

/-! ### Demodulate -/

theorem decideBits_length (c : Codec) (w : List Sample) : (decideBits c w).length = bpsOf c.kind := by
  cases h : c.kind <;> simp [decideBits, bpsOf, h]

theorem accumulateAll_const (c : Codec) (bits : List Bool) :
    SameConst (accumulateAll c bits) c ∧ (accumulateAll c bits).synchronized = c.synchronized ∧
      (accumulateAll c bits).byteCnt = c.byteCnt ∧ (accumulateAll c bits).bitCnt = c.bitCnt + bits.length := by
  induction bits generalizing c with
  | nil => exact ⟨⟨rfl, rfl, rfl, rfl, rfl, rfl⟩, rfl, rfl, rfl⟩
  | cons b bs ih =>
    obtain ⟨⟨h1, h2, h3, h4, h5, h6⟩, h7, h8, h9⟩ := ih (accumulate c b)
    refine ⟨⟨h1, h2, h3, h4, h5, h6⟩, h7, h8, ?_⟩
    have e : accumulateAll c (b :: bs) = accumulateAll (accumulate c b) bs := rfl
    have e2 : (accumulate c b).bitCnt = c.bitCnt + 1 := rfl
    rw [e, h9, e2, List.length_cons]; omega

theorem shift_insert (v : Byte) (h : v.toNat < 128) (b : Bool) :
    ((v <<< 1) ||| (if b then 1 else 0)).toNat = 2 * v.toNat + b.toNat := by
  have key : ∀ v : BitVec 8, v.toNat < 128 → ∀ b : Bool,
      ((v <<< 1) ||| (if b then 1 else 0)).toNat = 2 * v.toNat + b.toNat := by decide +kernel
  exact key v h b

/-- The accumulator's value stays below `2^count` (R32, R141). -/
theorem accumulateAll_val {c : Codec} (bits : List Bool) (h : c.bitVal.toNat < 2 ^ c.bitCnt)
    (hc : c.bitCnt + bits.length ≤ 8) :
    (accumulateAll c bits).bitVal.toNat < 2 ^ (accumulateAll c bits).bitCnt := by
  induction bits generalizing c with
  | nil => exact h
  | cons b bs ih =>
    rw [List.length_cons] at hc
    refine ih (c := accumulate c b) ?_ (by simp only [accumulate]; omega)
    have h7 : 2 ^ c.bitCnt ≤ 2 ^ 7 := Nat.pow_le_pow_right (by decide) (by omega)
    have := shift_insert c.bitVal (by omega) b
    have hb : b.toNat ≤ 1 := Bool.toNat_le b
    simp only [accumulate]
    rw [this, Nat.pow_succ]; omega

theorem accumulateAll_regs {c : Codec} (h : CodecRegsWf c) (w : List Sample)
    (h8 : (accumulateAll c (decideBits c w)).bitCnt ≠ 8) (hs : c.synchronized = true) :
    CodecRegsWf (accumulateAll c (decideBits c w)) := by
  obtain ⟨h1, h2, h3, h4, _⟩ := h
  obtain ⟨hc, h6, h7, h9⟩ := accumulateAll_const c (decideBits c w)
  rw [decideBits_length] at h9
  have hle : c.bitCnt + bpsOf c.kind ≤ 8 := by
    cases hk : c.kind <;> simp only [hk, bpsOf] at h3 ⊢ <;> omega
  refine ⟨by omega, ?_, ?_, by rw [h7]; exact h4, fun hf => ?_⟩
  · exact accumulateAll_val _ h2 (by rw [decideBits_length]; exact hle)
  · rw [h9, hc.1, Nat.add_mod_right]; exact h3
  · rw [h6, hs] at hf; exact absurd hf (by decide)

theorem clearSync_regs (c : Codec) : CodecRegsWf (clearSync c) := by
  refine ⟨by simp [clearSync], by simp [clearSync], by simp [clearSync], by simp [clearSync], fun _ => ?_⟩
  simp [clearSync]

/-- What one demodulation keeps (R142): the constants; what it answers: the input without a front part, the output
with bytes appended; and after a sync loss a cleared codec before a window that is still there and too weak. -/
theorem demodLoop_spec (P : Params) (f : Nat) (c : Codec) (w : List Sample) (out : List Byte) :
    SameConst (demodLoop P f c w out).codec c ∧ (demodLoop P f c w out).rest <:+ w ∧
      out <+: (demodLoop P f c w out).out ∧
      ((demodLoop P f c w out).lost = true →
        (demodLoop P f c w out).codec = clearSync c ∧ c.minWin ≤ (demodLoop P f c w out).rest.length ∧
          below P c (demodLoop P f c w out).rest = true) := by
  induction f generalizing c w out with
  | zero => exact ⟨⟨rfl, rfl, rfl, rfl, rfl, rfl⟩, List.suffix_refl _, List.prefix_refl _, by simp [demodLoop]⟩
  | succ f ih =>
    simp only [demodLoop]
    split
    · next hw =>
      split
      · next hb =>
        exact ⟨⟨rfl, rfl, rfl, rfl, rfl, rfl⟩, List.suffix_refl _, List.prefix_refl _, fun _ => ⟨rfl, hw, hb⟩⟩
      · obtain ⟨⟨a1, a2, a3, a4, a5, a6⟩, _⟩ := accumulateAll_const c (decideBits c w)
        have hbelow : ∀ {d : Codec} {x : List Sample}, SameConst d c → below P d x = below P c x := by
          intro d x hd; rw [hd.eq_with]; rfl
        have hclear : ∀ {d : Codec}, SameConst d c → clearSync d = clearSync c := by
          intro d hd; rw [hd.eq_with]; rfl
        split
        · split
          · exact ⟨⟨a1, a2, a3, a4, a5, a6⟩, List.drop_suffix _ _, List.prefix_append _ _, fun h => by cases h⟩
          · obtain ⟨i1, i2, i3, i4⟩ := ih (countByte (accumulateAll c (decideBits c w))) (w.drop c.symLen)
              (out ++ [(accumulateAll c (decideBits c w)).bitVal])
            have hcst : SameConst (countByte (accumulateAll c (decideBits c w))) c := ⟨a1, a2, a3, a4, a5, a6⟩
            refine ⟨⟨i1.1.trans a1, i1.2.1.trans a2, i1.2.2.1.trans a3, i1.2.2.2.1.trans a4,
              i1.2.2.2.2.1.trans a5, i1.2.2.2.2.2.trans a6⟩, i2.trans (List.drop_suffix _ _),
              (List.prefix_append _ _).trans i3, fun hl => ?_⟩
            obtain ⟨j1, j2, j3⟩ := i4 hl
            exact ⟨j1.trans (hclear hcst), by rw [← hcst.2.2.1]; exact j2, by rw [← hbelow hcst]; exact j3⟩
        · obtain ⟨i1, i2, i3, i4⟩ := ih (accumulateAll c (decideBits c w)) (w.drop c.symLen) out
          have hcst : SameConst (accumulateAll c (decideBits c w)) c := ⟨a1, a2, a3, a4, a5, a6⟩
          refine ⟨⟨i1.1.trans a1, i1.2.1.trans a2, i1.2.2.1.trans a3, i1.2.2.2.1.trans a4,
            i1.2.2.2.2.1.trans a5, i1.2.2.2.2.2.trans a6⟩, i2.trans (List.drop_suffix _ _), i3, fun hl => ?_⟩
          obtain ⟨j1, j2, j3⟩ := i4 hl
          exact ⟨j1.trans (hclear hcst), by rw [← hcst.2.2.1]; exact j2, by rw [← hbelow hcst]; exact j3⟩
    · exact ⟨⟨rfl, rfl, rfl, rfl, rfl, rfl⟩, List.suffix_refl _, List.prefix_refl _, fun h => by cases h⟩

/-- Demodulation keeps the registers' invariant (R32 to R34). -/
theorem demodLoop_regs (P : Params) (f : Nat) {c : Codec} (w : List Sample) (out : List Byte)
    (h : CodecRegsWf c) (hs : c.synchronized = true) : CodecRegsWf (demodLoop P f c w out).codec := by
  induction f generalizing c w out with
  | zero => exact h
  | succ f ih =>
    simp only [demodLoop]
    split
    · split
      · exact clearSync_regs c
      · obtain ⟨hc, h6, h7, h9⟩ := accumulateAll_const c (decideBits c w)
        split
        · split
          · exact clearSync_regs _
          · next hne =>
            refine ih _ _ ⟨by simp [countByte], by simp [countByte], by simp [countByte], ?_, ?_⟩ ?_
            · have := h.2.2.2.1
              simp only [countByte, Config.blockBytes] at hne this ⊢; omega
            · intro hf; simp only [countByte] at hf; rw [h6, hs] at hf; exact absurd hf (by decide)
            · simp only [countByte]; rw [h6, hs]
        · next h8 => exact ih _ _ (accumulateAll_regs h w h8 hs) (h6.trans hs)
    · exact h

/-! ### Modulate -/

theorem rep_length (n : Nat) (t : List Sample) : (rep n t).length = n * t.length := by
  simp [rep]

theorem wave_length {P : Params} {c : Codec} (h : CodecConstWf P c) (bits : List Bool) :
    (wave P c bits).length = c.symLen := by
  have ht := h.2.2.2.2
  unfold TablesWf at ht
  unfold wave
  cases hk : c.kind <;> rw [hk] at ht <;> simp only at ht ⊢
  · obtain ⟨h1, _, h3, _⟩ := ht
    rw [List.length_map]
    split
    · exact h3.1
    · exact h1.1
  · rw [List.length_zipWith, ht.1.1, ht.2.1, Nat.min_self]

end Machine
end Sys2Proof
end

