-- ==== Sys2Proof/Laws/Loops.lean ====
section
/-!
SUPPORT. The loops of the signal algorithms, freed of their bounds: one unfolding equation each, true because an
instance has `L ≥ 1`; and what the search for the first maximum answers.
-/

namespace Sys2Proof
namespace Machine

/-- The search answers an offset in range, with its value, that no offset exceeds and no earlier one reaches. -/
theorem bestOffset_spec (f : Nat → Int) (n : Nat) :
    (bestOffset f n).2 = f (bestOffset f n).1 ∧ (bestOffset f n).1 ≤ n ∧ (∀ d ≤ n, f d ≤ f (bestOffset f n).1) ∧
      ∀ d < (bestOffset f n).1, f d < f (bestOffset f n).1 := by
  induction n with
  | zero =>
    refine ⟨rfl, Nat.le_refl _, fun d hd => ?_, fun d hd => absurd hd (Nat.not_lt_zero d)⟩
    obtain rfl : d = 0 := by omega
    exact le_refl _
  | succ n ih =>
    obtain ⟨h1, h2, h3, h4⟩ := ih
    simp only [bestOffset]
    split
    · next hlt =>
      rw [h1] at hlt
      refine ⟨rfl, Nat.le_refl _, fun d hd => ?_, fun d hd => ?_⟩
      · rcases Nat.lt_or_ge n d with h | h
        · obtain rfl : d = n + 1 := by omega
          exact le_refl _
        · exact le_of_lt (lt_of_le_of_lt (h3 d h) hlt)
      · exact lt_of_le_of_lt (h3 d (by simp only at hd; omega)) hlt
    · next hlt =>
      rw [h1] at hlt
      refine ⟨h1, by omega, fun d hd => ?_, h4⟩
      rcases Nat.lt_or_ge n d with h | h
      · obtain rfl : d = n + 1 := by omega
        omega
      · exact h3 d h

/-- Phase 2 answers the first maximum of the discriminant over one symbol interval (R140). -/
theorem refine_eq {c : Codec} {w : List Sample} {d : Nat} (hd : d < c.symLen)
    (hmax : ∀ d', d' < c.symLen → disc c (w.drop d') ≤ disc c (w.drop d))
    (hfirst : ∀ d', d' < d → disc c (w.drop d') < disc c (w.drop d)) : refine c w = d := by
  obtain ⟨_, h2, h3, h4⟩ := bestOffset_spec (fun d => disc c (w.drop d)) (c.symLen - 1)
  change refine c w ≤ _ at h2
  change ∀ d' ≤ _, disc c (w.drop d') ≤ disc c (w.drop (refine c w)) at h3
  change ∀ d' < refine c w, disc c (w.drop d') < disc c (w.drop (refine c w)) at h4
  have hlt : refine c w < c.symLen := by omega
  rcases Nat.lt_trichotomy (refine c w) d with h | h | h
  · have := hfirst _ h; have := h3 d (by omega); omega
  · exact h
  · have := h4 _ h; have := hmax _ hlt; omega

theorem confirmScan_fuel {c : Codec} (hL : 1 ≤ c.symLen) {f g : Nat} {w : List Sample} (hf : w.length ≤ f)
    (hg : w.length ≤ g) : confirmScan c f w = confirmScan c g w := by
  induction f generalizing g w with
  | zero =>
    cases g with
    | zero => rfl
    | succ g =>
      have : ¬ c.symLen ≤ w.length := by omega
      simp [confirmScan, this]
  | succ f ih =>
    cases g with
    | zero =>
      have : ¬ c.symLen ≤ w.length := by omega
      simp [confirmScan, this]
    | succ g =>
      simp only [confirmScan]
      split
      · rw [ih (g := g) (by rw [List.length_drop]; omega) (by rw [List.length_drop]; omega)]
      · rfl

/-- Phase 3 with all the turns it can take. -/
def confirmFrom (c : Codec) (w : List Sample) : SyncResult := confirmScan c w.length w

theorem confirmFrom_eq {c : Codec} (hL : 1 ≤ c.symLen) (w : List Sample) :
    confirmFrom c w =
      if c.symLen ≤ w.length then
        if confirm c w then { locked := true, rest := w.drop c.symLen } else confirmFrom c (w.drop c.symLen)
      else { locked := false, rest := w } := by
  rw [confirmFrom, confirmScan_fuel hL (Nat.le_refl _) (Nat.le_succ _)]
  simp only [confirmScan]
  split
  · rw [confirmFrom, confirmScan_fuel hL (g := (w.drop c.symLen).length) (by rw [List.length_drop]; omega)
      (Nat.le_refl _)]
  · rfl

theorem syncScan_fuel {P : Params} {c : Codec} (hL : 1 ≤ c.symLen) {f g : Nat} {w : List Sample}
    (hf : w.length ≤ f) (hg : w.length ≤ g) : syncScan P c f w = syncScan P c g w := by
  induction f generalizing g w with
  | zero =>
    cases g with
    | zero => rfl
    | succ g =>
      have : ¬ c.minWin < w.length := by omega
      simp [syncScan, this]
  | succ f ih =>
    cases g with
    | zero =>
      have : ¬ c.minWin < w.length := by omega
      simp [syncScan, this]
    | succ g =>
      simp only [syncScan]
      split
      · rw [ih (g := g) (by rw [List.length_drop]; omega) (by rw [List.length_drop]; omega)]
      · rfl

/-- One turn of a synchronize (R140). -/
theorem syncSamples_eq {P : Params} {c : Codec} (hL : 1 ≤ c.symLen) (x : List Sample) :
    syncSamples P c x =
      if c.minWin < x.length then
        if above P c x then confirmFrom c (x.drop (refine c x)) else syncSamples P c (x.drop c.symLen)
      else { locked := false, rest := x } := by
  rw [syncSamples, syncScan_fuel hL (Nat.le_refl _) (Nat.le_succ _)]
  simp only [syncScan]
  split
  · rw [confirmFrom, confirmScan_fuel hL (g := (x.drop (refine c x)).length) (by rw [List.length_drop]; omega)
      (Nat.le_refl _), syncSamples, syncScan_fuel hL (g := (x.drop c.symLen).length)
      (by rw [List.length_drop]; omega) (Nat.le_refl _)]
  · rfl

theorem demodLoop_fuel {P : Params} {c : Codec} (hL : 1 ≤ c.symLen) (hM : 1 ≤ c.minWin) {f g : Nat}
    {w : List Sample} {out : List Byte} (hf : w.length ≤ f) (hg : w.length ≤ g) :
    demodLoop P f c w out = demodLoop P g c w out := by
  induction f generalizing g w out c with
  | zero =>
    cases g with
    | zero => rfl
    | succ g =>
      have : ¬ c.minWin ≤ w.length := by omega
      simp [demodLoop, this]
  | succ f ih =>
    cases g with
    | zero =>
      have : ¬ c.minWin ≤ w.length := by omega
      simp [demodLoop, this]
    | succ g =>
      obtain ⟨⟨_, a2, a3, _, _, _⟩, _⟩ := accumulateAll_const c (decideBits c w)
      simp only [demodLoop]
      split
      · split
        · rfl
        · split
          · split
            · rfl
            · exact ih (by rw [countByte, a2]; exact hL) (by rw [countByte, a3]; exact hM)
                (by rw [List.length_drop]; omega) (by rw [List.length_drop]; omega)
          · exact ih (by rw [a2]; exact hL) (by rw [a3]; exact hM) (by rw [List.length_drop]; omega)
              (by rw [List.length_drop]; omega)
      · rfl

/-- One turn of a demodulation (R142). -/
theorem demodSamples_eq {P : Params} {c : Codec} (hL : 1 ≤ c.symLen) (hM : 1 ≤ c.minWin) (x : List Sample)
    (out : List Byte) :
    demodSamples P c x out =
      if c.minWin ≤ x.length then
        if below P c x then { lost := true, codec := clearSync c, rest := x, out := out }
        else if (accumulateAll c (decideBits c x)).bitCnt = 8 then
          if (accumulateAll c (decideBits c x)).byteCnt + 1 = 128 then
            { lost := false, codec := clearSync (accumulateAll c (decideBits c x)), rest := x.drop c.symLen,
              out := out ++ [(accumulateAll c (decideBits c x)).bitVal] }
          else demodSamples P (countByte (accumulateAll c (decideBits c x))) (x.drop c.symLen)
            (out ++ [(accumulateAll c (decideBits c x)).bitVal])
        else demodSamples P (accumulateAll c (decideBits c x)) (x.drop c.symLen) out
      else { lost := false, codec := c, rest := x, out := out } := by
  obtain ⟨⟨_, a2, a3, _, _, _⟩, _⟩ := accumulateAll_const c (decideBits c x)
  conv_lhs => rw [demodSamples, demodLoop]
  simp only [Config.blockBytes]
  split
  · split
    · rfl
    · split
      · split
        · rfl
        · exact demodLoop_fuel (by rw [countByte, a2]; exact hL) (by rw [countByte, a3]; exact hM)
            (by rw [List.length_drop]; omega) (by rw [List.length_drop]; omega)
      · exact demodLoop_fuel (by rw [a2]; exact hL) (by rw [a3]; exact hM)
          (by rw [List.length_drop]; omega) (by rw [List.length_drop]; omega)
  · rfl

/-- The number of bits an instance holds after some more (R141). -/
theorem accumulateAll_bitCnt (c : Codec) (bits : List Bool) :
    (accumulateAll c bits).bitCnt = c.bitCnt + bits.length := by
  induction bits generalizing c with
  | nil => rfl
  | cons b bits ih =>
    rw [accumulateAll, List.foldl_cons, ← accumulateAll, ih, List.length_cons]
    simp only [accumulate]; omega

end Machine
end Sys2Proof
end

