-- ==== Sys2Proof/Laws/Packet.lean ====
section
/-!
SUPPORT. What the framer's operations and the checksum do, once each.
-/

namespace Sys2Proof
namespace Machine

/-! ### Byte order -/

theorem word16_lt (a b : Byte) : word16 a b < 65536 := by
  have := a.isLt; have := b.isLt
  simp only [word16]; omega

theorem word16_lowByte_highByte {n : Nat} (h : n < 65536) : word16 (lowByte n) (highByte n) = n := by
  simp only [word16, lowByte, highByte, BitVec.toNat_ofNat]
  omega

theorem totalOf_lt (p : List Byte) : totalOf p < 65536 := word16_lt _ _

/-- The declared length is read from the header alone. -/
theorem totalOf_append {p : List Byte} (h : 6 ≤ p.length) (q : List Byte) : totalOf (p ++ q) = totalOf p := by
  have h2 : 2 < p.length := by omega
  have h3 : 3 < p.length := by omega
  simp [totalOf, byteAt, List.getElem?_append_left h2, List.getElem?_append_left h3]

/-! ### `PKT.PUSH` -/

theorem pktTakeBody_join (p b : List Byte) : (pktTakeBody p b).1 ++ (pktTakeBody p b).2 = p ++ b := by
  simp [pktTakeBody]

/-- Nothing is lost: what the framer took and what it left are the bytes it had and was offered, in order. -/
theorem pktPushed_join (p b : List Byte) : (pktPushed p b).1 ++ (pktPushed p b).2 = p ++ b := by
  simp only [pktPushed]
  split
  · next h =>
    rw [List.length_eq_zero_iff] at h
    split
    · rfl
    · rw [pktTakeBody_join, h]; simp
  · exact pktTakeBody_join p b

theorem pktTakeBody_wf {p b : List Byte} (h : 6 ≤ p.length) (hp : p.length ≤ max 6 (totalOf p)) :
    PktWf (pktTakeBody p b).1 := by
  right
  have ht : totalOf (pktTakeBody p b).1 = totalOf p := totalOf_append h _
  have hl : (pktTakeBody p b).1.length = p.length + min (totalOf p - p.length) b.length := by
    simp [pktTakeBody]
  rw [ht, hl]
  simp only [Config.headerSize]
  omega

theorem pktPushed_wf {p : List Byte} (b : List Byte) (h : PktWf p) : PktWf (pktPushed p b).1 := by
  simp only [pktPushed]
  split
  · split
    · exact h
    · next hb =>
      have hl : (b.take Config.headerSize).length = 6 := by
        simp only [List.length_take, Config.headerSize] at hb ⊢; omega
      exact pktTakeBody_wf (by omega) (by omega)
  · next h0 =>
    rcases h with h | ⟨h1, h2⟩
    · exact absurd h h0
    · exact pktTakeBody_wf h1 h2

theorem pktPushed_left_length (p b : List Byte) : (pktPushed p b).2.length ≤ b.length := by
  simp only [pktPushed, pktTakeBody]
  split
  · split <;> simp
  · simp

/-! ### Checksum -/

@[simp] theorem zeroCksumField_length (p : List Byte) : (zeroCksumField p).length = p.length := by
  unfold zeroCksumField; split <;> simp

/-- The checksum of a packet with a header does not depend on the stored field (R198 (c)). -/
theorem zeroCksumField_set {p : List Byte} (h : 6 ≤ p.length) (a b : Byte) :
    zeroCksumField ((p.set 4 a).set 5 b) = zeroCksumField p := by
  simp only [zeroCksumField, List.length_set, Config.headerSize, if_pos h]
  rw [List.set_comm a b (by decide), List.set_set, List.set_comm b 0 (by decide), List.set_set]

theorem cksum16_set {p : List Byte} (h : 6 ≤ p.length) (a b : Byte) :
    cksum16 ((p.set 4 a).set 5 b) = cksum16 p := by
  simp only [cksum16, zeroCksumField_set h]

/-- The folded sum has 16 bits, and keeps the sum's residue modulo 65535. -/
theorem foldCarry_spec (f s : Nat) (h : s ≤ f) :
    foldCarry f s < 65536 ∧ foldCarry f s % 65535 = s % 65535 ∧ (foldCarry f s = 0 ↔ s = 0) := by
  induction f generalizing s with
  | zero => obtain rfl : s = 0 := by omega
            simp [foldCarry]
  | succ f ih =>
    simp only [foldCarry]
    split
    · next hs =>
      obtain ⟨h1, h2, h3⟩ := ih (s % 65536 + s / 65536) (by omega)
      refine ⟨h1, by omega, ?_⟩
      rw [h3]; omega
    · exact ⟨by omega, rfl, Iff.rfl⟩

theorem cksum16_lt (p : List Byte) : cksum16 p < 65536 := by
  simp only [cksum16]; omega

theorem pktBuilt_length (i f : Byte) (x : List Byte) : (pktBuilt i f x).length = 6 + x.length := by
  simp [pktBuilt, pktDraft]; omega

end Machine
end Sys2Proof
end

