-- ==== Sys2Proof/Laws/PerInstr.lean ====
section
/-!
SUPPORT. The family of statements made of every instruction as syntax: its command decodes to itself.
-/

namespace Sys2Proof
namespace Laws

/-- The decoder reads back what the encoder wrote, with every operand. -/
def DecodeEncode.Statement (i : Instr) : Prop := decode (encode i) = .instr i

theorem DecodeEncode.ringPush (c : List Sample) : DecodeEncode.Statement (.ringPush c) := by
  simp [DecodeEncode.Statement, decode, encode, Instr.opcode, Instr.values, unitOf, opOf, decodeRing]
theorem DecodeEncode.ringPop : DecodeEncode.Statement .ringPop := by
  simp [DecodeEncode.Statement, decode, encode, Instr.opcode, Instr.values, unitOf, opOf, decodeRing]
theorem DecodeEncode.ringClear : DecodeEncode.Statement .ringClear := by
  simp [DecodeEncode.Statement, decode, encode, Instr.opcode, Instr.values, unitOf, opOf, decodeRing]
theorem DecodeEncode.outqPush (x : List Sample) : DecodeEncode.Statement (.outqPush x) := by
  simp [DecodeEncode.Statement, decode, encode, Instr.opcode, Instr.values, unitOf, opOf, decodeOutq]
theorem DecodeEncode.outqPop (dst : List Sample) : DecodeEncode.Statement (.outqPop dst) := by
  simp [DecodeEncode.Statement, decode, encode, Instr.opcode, Instr.values, unitOf, opOf, decodeOutq]
theorem DecodeEncode.outqClear : DecodeEncode.Statement .outqClear := by
  simp [DecodeEncode.Statement, decode, encode, Instr.opcode, Instr.values, unitOf, opOf, decodeOutq]
theorem DecodeEncode.codecSync (x : List Sample) : DecodeEncode.Statement (.codecSync x) := by
  simp [DecodeEncode.Statement, decode, encode, Instr.opcode, Instr.values, unitOf, opOf, decodeCodec]
theorem DecodeEncode.codecDemod (x : List Sample) (out : List Byte) : DecodeEncode.Statement (.codecDemod x out) := by
  simp [DecodeEncode.Statement, decode, encode, Instr.opcode, Instr.values, unitOf, opOf, decodeCodec]
theorem DecodeEncode.codecMod (b : List Byte) : DecodeEncode.Statement (.codecMod b) := by
  simp [DecodeEncode.Statement, decode, encode, Instr.opcode, Instr.values, unitOf, opOf, decodeCodec]
theorem DecodeEncode.codecType : DecodeEncode.Statement .codecType := by
  simp [DecodeEncode.Statement, decode, encode, Instr.opcode, Instr.values, unitOf, opOf, decodeCodec]
theorem DecodeEncode.codecNew (t sampleRate baud : Int) :
    DecodeEncode.Statement (.codecNew t sampleRate baud) := by
  simp [DecodeEncode.Statement, decode, encode, Instr.opcode, Instr.values, unitOf, opOf, decodeCodec]
theorem DecodeEncode.pktPush (b : List Byte) : DecodeEncode.Statement (.pktPush b) := by
  simp [DecodeEncode.Statement, decode, encode, Instr.opcode, Instr.values, unitOf, opOf, decodePkt]
theorem DecodeEncode.pktFinished : DecodeEncode.Statement .pktFinished := by
  simp [DecodeEncode.Statement, decode, encode, Instr.opcode, Instr.values, unitOf, opOf, decodePkt]
theorem DecodeEncode.pktValid : DecodeEncode.Statement .pktValid := by
  simp [DecodeEncode.Statement, decode, encode, Instr.opcode, Instr.values, unitOf, opOf, decodePkt]
theorem DecodeEncode.pktChecksum : DecodeEncode.Statement .pktChecksum := by
  simp [DecodeEncode.Statement, decode, encode, Instr.opcode, Instr.values, unitOf, opOf, decodePkt]
theorem DecodeEncode.pktNew : DecodeEncode.Statement .pktNew := by
  simp [DecodeEncode.Statement, decode, encode, Instr.opcode, Instr.values, unitOf, opOf, decodePkt]
theorem DecodeEncode.pktBuild (id flags : Byte) (payload : List Byte) :
    DecodeEncode.Statement (.pktBuild id flags payload) := by
  simp [DecodeEncode.Statement, decode, encode, Instr.opcode, Instr.values, unitOf, opOf, decodePkt]
theorem DecodeEncode.pktqPush (p : List Byte) : DecodeEncode.Statement (.pktqPush p) := by
  simp [DecodeEncode.Statement, decode, encode, Instr.opcode, Instr.values, unitOf, opOf, decodePktq]
theorem DecodeEncode.pktqPop : DecodeEncode.Statement .pktqPop := by
  simp [DecodeEncode.Statement, decode, encode, Instr.opcode, Instr.values, unitOf, opOf, decodePktq]
theorem DecodeEncode.engStartStream (devOk openOk : Bool) :
    DecodeEncode.Statement (.engStartStream devOk openOk) := by
  simp [DecodeEncode.Statement, decode, encode, Instr.opcode, Instr.values, unitOf, opOf, decodeEng]
theorem DecodeEncode.engStopStream : DecodeEncode.Statement .engStopStream := by
  simp [DecodeEncode.Statement, decode, encode, Instr.opcode, Instr.values, unitOf, opOf, decodeEng]
theorem DecodeEncode.engStartDemod : DecodeEncode.Statement .engStartDemod := by
  simp [DecodeEncode.Statement, decode, encode, Instr.opcode, Instr.values, unitOf, opOf, decodeEng]
theorem DecodeEncode.engStopDemod : DecodeEncode.Statement .engStopDemod := by
  simp [DecodeEncode.Statement, decode, encode, Instr.opcode, Instr.values, unitOf, opOf, decodeEng]
theorem DecodeEncode.engCallback (captured : List Sample) : DecodeEncode.Statement (.engCallback captured) := by
  simp [DecodeEncode.Statement, decode, encode, Instr.opcode, Instr.values, unitOf, opOf, decodeEng]
theorem DecodeEncode.engWorkerStep : DecodeEncode.Statement .engWorkerStep := by
  simp [DecodeEncode.Statement, decode, encode, Instr.opcode, Instr.values, unitOf, opOf, decodeEng]
theorem DecodeEncode.engTransmit (b : List Byte) : DecodeEncode.Statement (.engTransmit b) := by
  simp [DecodeEncode.Statement, decode, encode, Instr.opcode, Instr.values, unitOf, opOf, decodeEng]
theorem DecodeEncode.engSetConfig (new : ModemConfig) : DecodeEncode.Statement (.engSetConfig new) := by
  simp [DecodeEncode.Statement, decode, encode, Instr.opcode, Instr.values, unitOf, opOf, decodeEng]
theorem DecodeEncode.engGetConfig : DecodeEncode.Statement .engGetConfig := by
  simp [DecodeEncode.Statement, decode, encode, Instr.opcode, Instr.values, unitOf, opOf, decodeEng]

end Laws
end Sys2Proof
end

