-- ==== Sys2Proof/Laws/Step.lean ====
section
/-!
SUPPORT. What each shared operation of an answer can do, once: the rights check, the read of a packet, the worker
iteration, the step.
-/

namespace Sys2Proof
namespace Machine

theorem done_eq_next {s t : State} {r : Result} : done s r = .next t ↔ t = s.respond .ok r := by
  simp [done, eq_comm]

theorem refuse_eq_next {s t : State} : refuse s = .next t ↔ t = s.respond .refused .none := by
  simp [refuse, eq_comm]

theorem failWith_eq_next {s t : State} {st : Status} : failWith s st = .next t ↔ t = s.respond st (.flag false) := by
  simp [failWith, eq_comm]

/-- The rights check (R263): the operation runs, or the request is refused. -/
theorem withRight_eq_next {i : Instr} {s t : State} {k : Answer} :
    withRight i s k = .next t ↔
      (s.issuer ∈ holders i ∧ k = .next t) ∨ (s.issuer ∉ holders i ∧ t = s.respond .refused .none) := by
  by_cases h : s.issuer ∈ holders i <;> simp [withRight, h, refuse_eq_next]

/-- A packet read answers of the packet in view, or is refused; only the response changes. -/
theorem readPacket_eq_next {s t : State} {f : List Byte → Result} :
    readPacket s f = .next t ↔
      (∃ p, s.packetInView = some p ∧ t = s.respond .ok (f p)) ∨
        (s.packetInView = none ∧ t = s.respond .refused .none) := by
  cases h : s.packetInView <;> simp [readPacket, h, done_eq_next, refuse_eq_next]

/-- Everything an accepted worker iteration can do (R226): it idles, it synchronizes, or it demodulates and frames. -/
theorem workerStep_cases {s t : State} (h : s.workerStep = some t) :
    withinCap s.params.workCap s.workerPop.work.length = true ∧
    ((t = s.workerPop ∧ s.workerPop.work.length < 4096) ∨
     (t = s.workerPop.workerSync ∧ 4096 ≤ s.workerPop.work.length ∧ s.codec.synchronized = false) ∨
     ∃ r, r = demodSamples s.params s.codec s.workerPop.work s.pend ∧ t = s.workerPop.workerDemod r ∧
        4096 ≤ s.workerPop.work.length ∧ s.codec.synchronized = true ∧
        withinCap s.params.pendCap r.out.length = true ∧ withinCap s.params.pktqDepth t.pktq.length = true) := by
  unfold State.workerStep at h
  simp only at h
  split at h
  · next hw =>
    refine ⟨hw, ?_⟩
    split at h
    · next hl => exact .inl ⟨(Option.some.inj h).symm, hl⟩
    · next hl =>
      split at h
      · next hs =>
        split at h
        · next hc =>
          obtain ⟨h1, h2⟩ := Bool.and_eq_true_iff.1 hc
          obtain rfl := Option.some.inj h
          exact .inr (.inr ⟨_, rfl, rfl, Nat.le_of_not_lt hl, hs, h1, h2⟩)
        · cases h
      · next hs =>
        exact .inr (.inl ⟨(Option.some.inj h).symm, Nat.le_of_not_lt hl, Bool.eq_false_iff.2 hs⟩)
  · cases h

/-- The fields a demodulating iteration does not write. -/
theorem workerDemod_frame (s : State) (r : DemodResult) :
    (s.workerDemod r).params = s.params ∧ (s.workerDemod r).ring = s.ring ∧ (s.workerDemod r).outq = s.outq ∧
    (s.workerDemod r).config = s.config ∧ (s.workerDemod r).streaming = s.streaming ∧
    (s.workerDemod r).demodulating = s.demodulating ∧ (s.workerDemod r).cmd = s.cmd ∧
    (s.workerDemod r).issuer = s.issuer ∧ (s.workerDemod r).who = s.who ∧
    (s.workerDemod r).playing = s.playing ∧ (s.workerDemod r).rsp = s.rsp ∧ (s.workerDemod r).audOut = s.audOut ∧
    (s.workerDemod r).mix = s.mix ∧ (s.workerDemod r).held = s.held ∧ (s.workerDemod r).codec = r.codec ∧
    (s.workerDemod r).work = r.rest := by
  simp only [State.workerDemod, State.workerLoss, State.workerDeliver, State.workerProgress]
  refine ⟨?_, ?_, ?_, ?_, ?_, ?_, ?_, ?_, ?_, ?_, ?_, ?_, ?_, ?_, ?_, ?_⟩ <;> (split_ifs <;> rfl)

/-- The packet, the pending bytes and the delivery queue after a demodulating iteration. -/
theorem workerDemod_packet (s : State) (r : DemodResult) :
    (s.workerDemod r).pkt = (if r.lost || finished (pktPushed s.pkt r.out).1 then [] else (pktPushed s.pkt r.out).1) ∧
    (s.workerDemod r).pend = (if r.lost then [] else (pktPushed s.pkt r.out).2) ∧
    (s.workerDemod r).pktq =
      (if finished (pktPushed s.pkt r.out).1 then s.pktq ++ [(pktPushed s.pkt r.out).1] else s.pktq) := by
  have hp : (s.workerFrame r).workerProgress.pkt = (pktPushed s.pkt r.out).1 := by
    simp only [State.workerProgress]; split <;> rfl
  have hd : (s.workerFrame r).workerProgress.pend = (pktPushed s.pkt r.out).2 := by
    simp only [State.workerProgress]; split <;> rfl
  have hq : (s.workerFrame r).workerProgress.pktq = s.pktq := by
    simp only [State.workerProgress]; split <;> rfl
  simp only [State.workerDemod, State.workerLoss, State.workerDeliver, hp, hq]
  refine ⟨?_, ?_, ?_⟩ <;> cases r.lost <;> split_ifs <;> simp_all [State.emit]

/-- The event trace after a demodulating iteration. -/
theorem workerDemod_evt (s : State) (r : DemodResult) :
    (s.workerDemod r).evt = s.evt ++
      (if hasHeader (pktPushed s.pkt r.out).1 then
        [.byteProgress (BitVec.ofNat 16 (pktPushed s.pkt r.out).1.length)
          (BitVec.ofNat 16 (totalOf (pktPushed s.pkt r.out).1))] else []) ++
      (if finished (pktPushed s.pkt r.out).1 then [.packetReceived] else []) ++
      (if r.lost && !finished (pktPushed s.pkt r.out).1 && hasHeader (pktPushed s.pkt r.out).1 then [.packetLost]
        else []) := by
  have hp : (s.workerFrame r).workerProgress.pkt = (pktPushed s.pkt r.out).1 := by
    simp only [State.workerProgress]; split <;> rfl
  have he : (s.workerFrame r).workerProgress.evt = s.evt ++ (if hasHeader (pktPushed s.pkt r.out).1 then
        [.byteProgress (BitVec.ofNat 16 (pktPushed s.pkt r.out).1.length)
          (BitVec.ofNat 16 (totalOf (pktPushed s.pkt r.out).1))] else []) := by
    cases hh : hasHeader (pktPushed s.pkt r.out).1 <;> simp [State.workerProgress, hh]
  have h0 : hasHeader [] = false := rfl
  rw [← he]
  cases hl : r.lost <;> cases hf : finished (pktPushed s.pkt r.out).1 <;>
    cases hh : hasHeader (pktPushed s.pkt r.out).1 <;>
    simp [State.workerDemod, State.workerLoss, State.workerDeliver, hl, hp, hf, hh, h0]

/-- Everything a step can do: the second access of a callback, nothing, a reset, a turn with no callback in progress,
an operation, a refusal of what does not decode. -/
theorem step_cases {s t : State} (h : step s = .next t) :
    (s.callbackDue = true ∧ t = s.finishCallback) ∨
    (s.callbackDue = false ∧
      ((s.cmd = [] ∧ t = s) ∨ (∃ rest, s.cmd = .reset :: rest ∧ t = s.resetWith rest) ∨
       (∃ rest, s.cmd = .turn :: rest ∧ t = { s with cmd := rest }) ∨
       (∃ a w c rest i, s.cmd = .op a w c :: rest ∧ decode c = .instr i ∧ exec i (s.accept a w rest) = .next t) ∨
       (∃ a w c rest, s.cmd = .op a w c :: rest ∧ (∀ i, decode c ≠ .instr i) ∧
         t = (s.accept a w rest).respond .refused .none))) := by
  unfold step at h
  split at h
  · next hd => cases h; exact .inl ⟨hd, rfl⟩
  next hd =>
  refine .inr ⟨Bool.eq_false_iff.2 hd, ?_⟩
  split at h
  · next hc => cases h; exact .inl ⟨hc, rfl⟩
  · next rest hc => cases h; exact .inr (.inl ⟨rest, hc, rfl⟩)
  · next rest hc => cases h; exact .inr (.inr (.inl ⟨rest, hc, rfl⟩))
  · next a w c rest hc =>
    split at h
    · next i hi => exact .inr (.inr (.inr (.inl ⟨a, w, c, rest, i, hc, hi, h⟩)))
    · next hi => exact .inr (.inr (.inr (.inr ⟨a, w, c, rest, hc, by simp [hi], refuse_eq_next.1 h⟩)))
    · next hi => exact .inr (.inr (.inr (.inr ⟨a, w, c, rest, hc, by simp [hi], refuse_eq_next.1 h⟩)))

/-- When the oldest request is an operation, a callback in progress ends before it exactly if it is one of the
CALLBACK's or stops the stream. -/
theorem callbackDue_op {s : State} {a : Agent} {w : Nat} {c : Command} {rest : List Request} {i : Instr}
    (hc : s.cmd = .op a w c :: rest) (hi : decode c = .instr i) :
    s.callbackDue = true ↔ s.playing = true ∧ (a = .callback ∨ a ∈ holders i ∧ s.stopsStream i = true) := by
  simp [State.callbackDue, State.waits, hc, hi]

/-- The state an operation leaves, but for the response, when it is served. -/
def effect (i : Instr) (s : State) : State :=
  match i with
  | .ringPush c => { s with ring := ringPushed s.params.ringCap s.ring c }
  | .ringPop => { s with ring := ringPopped s.ring }
  | .ringClear => { s with ring := ringCleared s.ring }
  | .outqPush x => { s with outq := outqPushed s.chunkLen s.outq x }
  | .outqPop _ => { s with outq := outqPopped s.chunkLen s.outq }
  | .outqClear => { s with outq := [] }
  | .codecSync x => { s with codec := codecAfterSync s.codec (syncSamples s.params s.codec x) }
  | .codecDemod x out => { s with codec := (demodSamples s.params s.codec x out).codec }
  | .codecMod _ => s
  | .codecType => s
  | .codecNew t r b => { s with codec := buildCodec s.params (kindOfCode t.toNat) r.toNat b.toNat }
  | .pktPush b => { s with pkt := (pktPushed s.pkt b).1 }
  | .pktFinished => s
  | .pktValid => s
  | .pktChecksum => s
  | .pktNew => { s with pkt := [] }
  | .pktBuild _ _ _ => s
  | .pktqPush p => { s with pktq := s.pktq ++ [p] }
  | .pktqPop =>
    { s with
      pktq := s.pktq.tail
      held := match s.pktq with
        | [] => s.held
        | p :: _ => s.held.write s.who p }
  | .engStartStream _ _ => { s with streaming := true }
  | .engStopStream => s.stopStream
  | .engStartDemod => s.startDemod
  | .engStopDemod => s.stopDemod
  | .engCallback c => s.callbackPush c
  | .engWorkerStep => s.workerStep.getD s
  | .engTransmit b => { s with outq := outqPushed s.chunkLen s.outq (modulate s.params s.codec b) }
  | .engSetConfig n =>
    if n.sameButVolume s.config then s.applyVolume n else (s.applyVolume n).reconfigure n
  | .engGetConfig => s

/-- When an operation is served, its agent having the right to it. -/
def served (i : Instr) (s : State) : Prop :=
  match i with
  | .ringPush c => c.length = s.chunkLen
  | .ringPop => True
  | .ringClear => True
  | .outqPush x => outqRefuses s.params s.chunkLen s.outq x = false
  | .outqPop dst => dst.length = s.chunkLen
  | .outqClear => True
  | .codecSync _ => s.codec.synchronized = false
  | .codecDemod _ _ => s.codec.synchronized = true
  | .codecMod _ => True
  | .codecType => True
  | .codecNew t r b => s.streaming = false ∧ s.demodulating = false ∧ (t = 0 ∨ t = 1) ∧ ratesLegal r b = true
  | .pktPush _ => True
  | .pktFinished => s.packetInView.isSome = true
  | .pktValid => s.packetInView.isSome = true
  | .pktChecksum => s.packetInView.isSome = true
  | .pktNew => True
  | .pktBuild _ _ x => x.length ≤ 65529
  | .pktqPush p => finished p = true ∧ withinCap s.params.pktqDepth (s.pktq.length + 1) = true
  | .pktqPop => True
  | .engStartStream d o => s.streaming = false ∧ d = true ∧ o = true
  | .engStopStream => s.streaming = true
  | .engStartDemod => s.streaming = true ∧ s.demodulating = false
  | .engStopDemod => True
  | .engCallback c => s.streaming = true ∧ s.playing = false ∧ c.length = s.chunkLen
  | .engWorkerStep => s.demodulating = true ∧ s.workerStep.isSome = true
  | .engTransmit b => b.length ≤ 65535 ∧ outqRefuses s.params s.chunkLen s.outq (modulate s.params s.codec b) = false
  | .engSetConfig n => n.legal = true
  | .engGetConfig => True

/-- A response other than `OK`: no status of a packet check, and no result true (R252). -/
abbrev Failure (st : Status) (r : Result) : Prop := st ≠ .ok ∧ st ≠ .corrupt ∧ r ≠ .flag true

/-- The operation has an answer of its own: all but `ENG.CALLBACK`, which its second access answers. -/
abbrev Answered (i : Instr) (s t : State) : Prop :=
  (∃ r, t = (effect i s).respond .ok r) ∨ ∃ c, i = .engCallback c ∧ t = effect i s

/-- An operation has its effect and answers `OK`, a callback being answered later, or it changes nothing and answers a
failure. -/
theorem exec_cases {i : Instr} {s t : State} (h : exec i s = .next t) :
    (∃ st r, Failure st r ∧ t = s.respond st r) ∨ (s.issuer ∈ holders i ∧ served i s ∧ Answered i s t) := by
  have fail : ∀ {st : Status} {r : Result} {Q : Prop}, st ≠ .ok → st ≠ .corrupt → r ≠ .flag true →
      t = s.respond st r → (∃ st r, Failure st r ∧ t = s.respond st r) ∨ Q :=
    fun h1 h2 h3 h4 => .inl ⟨_, _, ⟨h1, h2, h3⟩, h4⟩
  cases i <;> simp only [exec, execRingPush, execRingPop, execRingClear, execOutqPush, execOutqPop, execOutqClear,
    execCodecSync, execCodecDemod, execCodecMod, execCodecType, execCodecNew, execPktPush, execPktFinished,
    execPktValid, execPktChecksum, execPktNew, execPktBuild, execPktqPush, execPktqPop, execEngStartStream,
    execEngStopStream, execEngStartDemod, execEngStopDemod, execEngCallback, execEngWorkerStep, execEngTransmit,
    execEngSetConfig, execEngGetConfig] at h <;>
  (obtain ⟨hi, h⟩ | ⟨-, rfl⟩ := withRight_eq_next.1 h
   on_goal 2 => exact fail (by decide) (by decide) (by decide) rfl) <;>
  simp only [served, Answered, effect]
  case ringPop =>
    cases hr : ringOldest s.params.ringCap s.chunkLen s.ring <;> rw [hr] at h
    · have h0 : s.ring.size = 0 := by
        simp only [ringOldest] at hr
        split at hr
        · assumption
        · cases hr
      refine .inr ⟨hi, trivial, .inl ⟨.chunk false [], ?_⟩⟩
      rw [done_eq_next.1 h]
      have : ringPopped s.ring = s.ring := by cases hs : s.ring; simp_all [ringPopped]
      rw [this]
    · exact .inr ⟨hi, trivial, .inl ⟨_, done_eq_next.1 h⟩⟩
  case pktqPop =>
    refine .inr ⟨hi, trivial, .inl ?_⟩
    cases hq : s.pktq <;> rw [hq] at h
    · refine ⟨.packet false [], (done_eq_next.1 h).trans ?_⟩
      change _ = ({ s with pktq := [] }).respond _ _
      rw [← hq]
    · exact ⟨_, done_eq_next.1 h⟩
  case engCallback =>
    revert h
    split_ifs <;> intro h
    · next h1 h2 =>
      refine .inr ⟨hi, ⟨?_, ?_, h2⟩, .inr ⟨_, rfl, ?_⟩⟩ <;> simp_all
    all_goals exact fail (by decide) (by decide) (by decide) (refuse_eq_next.1 h)
  case pktBuild =>
    split at h
    · next hl => exact .inr ⟨hi, hl, .inl ⟨_, done_eq_next.1 h⟩⟩
    · cases h; exact fail (by decide) (by decide) (by decide) rfl
  case engWorkerStep =>
    split at h
    · next hd =>
      split at h
      · next u hu => exact .inr ⟨hi, ⟨hd, by simp [hu]⟩, .inl ⟨_, by simp only [hu]; exact done_eq_next.1 h⟩⟩
      · exact fail (by decide) (by decide) (by decide) (refuse_eq_next.1 h)
    · exact fail (by decide) (by decide) (by decide) (refuse_eq_next.1 h)
  case pktFinished =>
    obtain ⟨p, hp, rfl⟩ | ⟨-, rfl⟩ := readPacket_eq_next.1 h
    · exact .inr ⟨hi, by simp [hp], .inl ⟨_, rfl⟩⟩
    · exact fail (by decide) (by decide) (by decide) rfl
  case pktValid =>
    obtain ⟨p, hp, rfl⟩ | ⟨-, rfl⟩ := readPacket_eq_next.1 h
    · exact .inr ⟨hi, by simp [hp], .inl ⟨_, rfl⟩⟩
    · exact fail (by decide) (by decide) (by decide) rfl
  case pktChecksum =>
    obtain ⟨p, hp, rfl⟩ | ⟨-, rfl⟩ := readPacket_eq_next.1 h
    · exact .inr ⟨hi, by simp [hp], .inl ⟨_, rfl⟩⟩
    · exact fail (by decide) (by decide) (by decide) rfl
  all_goals
    revert h
    (try split_ifs) <;> intro h <;>
    first
      | exact fail (by decide) (by decide) (by decide) (refuse_eq_next.1 h)
      | exact fail (by decide) (by decide) (by decide) (failWith_eq_next.1 h)
      | exact .inr ⟨hi, by simp_all, .inl ⟨_, done_eq_next.1 h⟩⟩

/-- The stream goes down only by an operation that stops it, and such an operation leaves a callback in progress alone:
`State.waits` keeps the two apart. -/
theorem exec_stops {i : Instr} {s t : State} (h : exec i s = .next t) (hs : s.streaming = true)
    (ht : t.streaming = false) : s.issuer ∈ holders i ∧ s.stopsStream i = true := by
  obtain ⟨st, r, -, rfl⟩ | ⟨hi, hv, ha⟩ := exec_cases h
  · simp [hs] at ht
  · refine ⟨hi, ?_⟩
    have he : (effect i s).streaming = false := by
      obtain ⟨r, rfl⟩ | ⟨c, -, rfl⟩ := ha
      · exact ht
      · exact ht
    cases i
    case engStopStream => rfl
    case engStartStream => cases he
    case engSetConfig n =>
      have hl : n.legal = true := hv
      cases hn : n.sameButVolume s.config
      · simp [State.stopsStream, hl, hn]
      · rw [effect, if_pos hn] at he
        exact absurd hs (by rw [show s.streaming = false from he]; decide)
    case engWorkerStep =>
      obtain ⟨u, hu⟩ := Option.isSome_iff_exists.1 hv.2
      have hus : u.streaming = s.streaming := by
        obtain ⟨-, ⟨rfl, -⟩ | ⟨rfl, -⟩ | ⟨r, -, rfl, -⟩⟩ := workerStep_cases hu
        · rfl
        · rfl
        · exact (workerDemod_frame s.workerPop r).2.2.2.2.1
      simp [effect, hu, hus, hs] at he
    all_goals exact absurd (show s.streaming = false from he) (by simp [hs])

end Machine
end Sys2Proof
end

