-- ==== Sys2Proof/Laws/Tables.lean ====
section
/-!
SUPPORT. The nominal tables (spec/41_codec_common.md R132) against the real cosine and sine: an entry is the exact
value rounded to nearest, up to the error of the fixed-point arithmetic (log entry 7), which is far below `10^-18` of
`TAB_ONE`.
-/

namespace Sys2Proof
namespace Machine

/-! ### The series in nested form, over the reals -/

/-- `hornerCos` over the reals. -/
noncomputable def realCos (u : ℝ) : ℕ → ℕ → ℝ
  | 0, _ => 1
  | f + 1, n => 1 - u * realCos u f (n + 1) / (2 * n * (2 * n - 1))

/-- `hornerSin` over the reals. -/
noncomputable def realSin (u : ℝ) : ℕ → ℕ → ℝ
  | 0, _ => 1
  | f + 1, n => 1 - u * realSin u f (n + 1) / (2 * n * (2 * n + 1))

theorem realCos_eq_sum (u : ℝ) (f m : ℕ) :
    (-u) ^ m / (2 * m).factorial * realCos u f (m + 1) =
      ∑ k ∈ Finset.range (f + 1), (-u) ^ (m + k) / (2 * (m + k)).factorial := by
  induction f generalizing m with
  | zero => simp [realCos]
  | succ f ih =>
    rw [Finset.sum_range_succ']
    have h := ih (m + 1)
    have e : ∀ k, m + 1 + k = m + (k + 1) := fun k => by omega
    simp only [e] at h
    rw [← h, realCos, show 2 * (m + 1) = 2 * m + 1 + 1 by omega, Nat.factorial_succ, Nat.factorial_succ]
    have h0 : ((2 * m).factorial : ℝ) ≠ 0 := by positivity
    have h1 : (2 * ((m : ℝ) + 1) - 1) = 2 * m + 1 := by ring
    push_cast
    rw [h1]
    field_simp
    ring_nf

theorem realSin_eq_sum (u : ℝ) (f m : ℕ) :
    (-u) ^ m / (2 * m + 1).factorial * realSin u f (m + 1) =
      ∑ k ∈ Finset.range (f + 1), (-u) ^ (m + k) / (2 * (m + k) + 1).factorial := by
  induction f generalizing m with
  | zero => simp [realSin]
  | succ f ih =>
    rw [Finset.sum_range_succ']
    have h := ih (m + 1)
    have e : ∀ k, m + 1 + k = m + (k + 1) := fun k => by omega
    simp only [e] at h
    rw [← h, realSin, show 2 * (m + 1) + 1 = 2 * m + 1 + 1 + 1 by omega, Nat.factorial_succ (2 * m + 1 + 1),
      Nat.factorial_succ (2 * m + 1)]
    have h0 : ((2 * m + 1).factorial : ℝ) ≠ 0 := by positivity
    push_cast
    field_simp
    ring_nf

/-- The series of the exponential at `x·I`, by pairs of terms. -/
theorem exp_series_pairs (x : ℝ) (n : ℕ) :
    ∑ m ∈ Finset.range (2 * n), ((x : ℂ) * Complex.I) ^ m / (m.factorial : ℂ) =
      ((∑ k ∈ Finset.range n, (-(x ^ 2)) ^ k / (2 * k).factorial : ℝ) : ℂ) +
      ((x * ∑ k ∈ Finset.range n, (-(x ^ 2)) ^ k / (2 * k + 1).factorial : ℝ) : ℂ) * Complex.I := by
  induction n with
  | zero => simp
  | succ n ih =>
    rw [show 2 * (n + 1) = 2 * n + 1 + 1 by omega, Finset.sum_range_succ, Finset.sum_range_succ, ih,
      Finset.sum_range_succ, Finset.sum_range_succ]
    have e : ((x : ℂ) * Complex.I) ^ (2 * n) = (((-(x ^ 2)) ^ n : ℝ) : ℂ) := by
      rw [pow_mul, mul_pow, Complex.I_sq]; push_cast; congr 1; ring
    have e' : ((x : ℂ) * Complex.I) ^ (2 * n + 1) = (((-(x ^ 2)) ^ n : ℝ) : ℂ) * (x * Complex.I) := by
      rw [pow_succ, e]
    rw [e', e]
    push_cast
    ring

theorem series_close {x : ℝ} (hx : |x| ≤ 1) :
    |Real.cos x - realCos (x ^ 2) 22 1| ≤ 1 / 10 ^ 30 ∧ |Real.sin x - x * realSin (x ^ 2) 22 1| ≤ 1 / 10 ^ 30 := by
  have hn : ‖(x : ℂ) * Complex.I‖ = |x| := by simp
  have hb := Complex.exp_bound (x := (x : ℂ) * Complex.I) (by rwa [hn]) (n := 46) (by norm_num)
  rw [hn, show (46 : ℕ) = 2 * 23 from rfl, exp_series_pairs, Complex.exp_mul_I, ← Complex.ofReal_cos,
    ← Complex.ofReal_sin] at hb
  have hc := realCos_eq_sum (x ^ 2) 22 0
  have hs := realSin_eq_sum (x ^ 2) 22 0
  simp only [pow_zero, Nat.mul_zero, Nat.zero_add, Nat.factorial_zero, Nat.factorial_one, Nat.cast_one, div_one,
    one_mul] at hc hs
  rw [← hc, ← hs] at hb
  have hp : |x| ^ (2 * 23) ≤ 1 := pow_le_one₀ (abs_nonneg x) hx
  have hk : (((2 * 23 : ℕ).succ : ℝ) * (((2 * 23 : ℕ).factorial : ℝ) * ((2 * 23 : ℕ) : ℝ))⁻¹) ≤ 1 / 10 ^ 30 := by
    norm_num [Nat.factorial]
  have hk0 : (0 : ℝ) ≤ (((2 * 23 : ℕ).succ : ℝ) * (((2 * 23 : ℕ).factorial : ℝ) * ((2 * 23 : ℕ) : ℝ))⁻¹) := by
    positivity
  have hB := hb.trans ((mul_le_of_le_one_left hk0 hp).trans hk)
  constructor
  · refine le_trans ?_ ((Complex.abs_re_le_norm _).trans hB)
    simp [-Complex.ofReal_cos, -Complex.ofReal_sin]
  · refine le_trans ?_ ((Complex.abs_im_le_norm _).trans hB)
    simp [-Complex.ofReal_cos, -Complex.ofReal_sin]

/-! ### The fixed-point series against the real one -/

/-- The scale over the reals. -/
noncomputable abbrev realScale : ℝ := (cosScale : ℝ)

theorem realScale_pos : 0 < realScale := by unfold realScale cosScale; norm_num

/-- `a / b` of natural numbers is the exact quotient to within one below. -/
theorem nat_div_close (a : ℕ) {b : ℕ} (hb : 0 < b) :
    ((a / b : ℕ) : ℝ) ≤ (a : ℝ) / b ∧ (a : ℝ) / b ≤ ((a / b : ℕ) : ℝ) + 1 := by
  have hb' : (0 : ℝ) < b := by exact_mod_cast hb
  refine ⟨Nat.cast_div_le, ?_⟩
  rw [div_le_iff₀ hb']
  have h := (Nat.lt_div_mul_add (a := a) hb).le
  have h' : ((a : ℕ) : ℝ) ≤ ((a / b * b + b : ℕ) : ℝ) := by exact_mod_cast h
  push_cast at h'
  linarith

/-- One turn of a nested series: the error is halved, and the division adds one unit. -/
theorem horner_turn {t2 h d : ℕ} {u r η : ℝ} (hd : 2 ≤ d) (h1 : h ≤ cosScale) (hu0 : 0 ≤ u) (hu1 : u ≤ 1)
    (ht : t2 ≤ cosScale) (hη : |(t2 : ℝ) / realScale - u| ≤ η)
    (hh : |(h : ℝ) / realScale - r| ≤ η + 2 / realScale) :
    |((cosScale - t2 * h / (cosScale * d) : ℕ) : ℝ) / realScale - (1 - u * r / d)| ≤ η + 2 / realScale := by
  have hS := realScale_pos
  have hd' : (2 : ℝ) ≤ d := by exact_mod_cast hd
  have hq : 0 < cosScale * d := Nat.mul_pos (by unfold cosScale; norm_num) (by omega)
  obtain ⟨q1, q2⟩ := nat_div_close (t2 * h) hq
  have hle : t2 * h / (cosScale * d) ≤ cosScale := by
    refine Nat.div_le_of_le_mul ?_
    calc t2 * h ≤ cosScale * cosScale := Nat.mul_le_mul ht h1
      _ ≤ cosScale * d * cosScale := Nat.mul_le_mul_right _ (Nat.le_mul_of_pos_right _ (by omega))
  rw [Nat.cast_sub hle]
  set X : ℝ := ((t2 * h / (cosScale * d) : ℕ) : ℝ) with hX
  set τ : ℝ := (t2 : ℝ) / realScale with hτ
  set g : ℝ := (h : ℝ) / realScale with hg
  have hτ0 : 0 ≤ τ := by positivity
  have hg0 : 0 ≤ g := by positivity
  have hg1 : g ≤ 1 := (div_le_one hS).2 (by exact_mod_cast h1)
  have e : ((t2 * h : ℕ) : ℝ) / ((cosScale * d : ℕ) : ℝ) = τ * g / d * realScale := by
    rw [hτ, hg]; push_cast; field_simp
  rw [e] at q1 q2
  have e2 : (realScale - X) / realScale - (1 - u * r / d) = (τ * g / d - X / realScale) + (u * r - τ * g) / d := by
    field_simp; ring
  have a1 : |τ * g / d - X / realScale| ≤ 1 / realScale := by
    rw [abs_le]
    constructor
    · have : X / realScale ≤ τ * g / d := (div_le_iff₀ hS).2 q1
      have : 0 ≤ 1 / realScale := by positivity
      linarith
    · rw [sub_le_iff_le_add, ← add_div, le_div_iff₀ hS]; linarith
  have a2 : |u * r - τ * g| ≤ η + (η + 2 / realScale) := by
    have : u * r - τ * g = -(g - r) * u + -(τ - u) * g := by ring
    rw [this]
    refine (abs_add_le _ _).trans ?_
    rw [abs_mul, abs_mul, abs_neg, abs_neg, abs_of_nonneg hu0, abs_of_nonneg hg0, add_comm]
    exact add_le_add ((mul_le_of_le_one_right (abs_nonneg _) hg1).trans hη)
      ((mul_le_of_le_one_right (abs_nonneg _) hu1).trans hh)
  have a3 : |(u * r - τ * g) / d| ≤ (η + (η + 2 / realScale)) / 2 := by
    rw [abs_div, abs_of_nonneg (by linarith : (0 : ℝ) ≤ d)]
    exact div_le_div₀ ((abs_nonneg _).trans a2) a2 (by norm_num) hd'
  show |(realScale - X) / realScale - (1 - u * r / d)| ≤ η + 2 / realScale
  rw [e2]
  refine (abs_add_le _ _).trans ((add_le_add a1 a3).trans (le_of_eq ?_))
  ring

theorem hornerCos_le (t2 f n : ℕ) : hornerCos t2 f n ≤ cosScale := by
  cases f <;> simp only [hornerCos, le_refl, Nat.sub_le]
theorem hornerSin_le (t2 f n : ℕ) : hornerSin t2 f n ≤ cosScale := by
  cases f <;> simp only [hornerSin, le_refl, Nat.sub_le]

theorem hornerCos_close {t2 : ℕ} {u η : ℝ} (hu0 : 0 ≤ u) (hu1 : u ≤ 1) (ht : t2 ≤ cosScale)
    (hη : |(t2 : ℝ) / realScale - u| ≤ η) (f : ℕ) {n : ℕ} (hn : 1 ≤ n) :
    |(hornerCos t2 f n : ℝ) / realScale - realCos u f n| ≤ η + 2 / realScale := by
  have hη0 : 0 ≤ η := (abs_nonneg _).trans hη
  have hS := realScale_pos
  induction f generalizing n with
  | zero =>
    simp only [hornerCos, realCos]
    rw [show (cosScale : ℝ) = realScale from rfl, div_self hS.ne', sub_self, abs_zero]; positivity
  | succ f ih =>
    have hd : 2 ≤ 2 * n * (2 * n - 1) := by
      calc 2 = 2 * 1 * 1 := rfl
        _ ≤ 2 * n * (2 * n - 1) := Nat.mul_le_mul (by omega) (by omega)
    have h := horner_turn hd (hornerCos_le t2 f (n + 1)) hu0 hu1 ht hη (ih (by omega))
    have e : ((2 * n * (2 * n - 1) : ℕ) : ℝ) = 2 * n * (2 * n - 1) := by
      rw [Nat.cast_mul, Nat.cast_sub (by omega)]; push_cast; ring
    rw [e] at h
    exact h
theorem hornerSin_close {t2 : ℕ} {u η : ℝ} (hu0 : 0 ≤ u) (hu1 : u ≤ 1) (ht : t2 ≤ cosScale)
    (hη : |(t2 : ℝ) / realScale - u| ≤ η) (f : ℕ) {n : ℕ} (hn : 1 ≤ n) :
    |(hornerSin t2 f n : ℝ) / realScale - realSin u f n| ≤ η + 2 / realScale := by
  have hη0 : 0 ≤ η := (abs_nonneg _).trans hη
  have hS := realScale_pos
  induction f generalizing n with
  | zero =>
    simp only [hornerSin, realSin]
    rw [show (cosScale : ℝ) = realScale from rfl, div_self hS.ne', sub_self, abs_zero]; positivity
  | succ f ih =>
    have hd : 2 ≤ 2 * n * (2 * n + 1) := by nlinarith
    have h := horner_turn hd (hornerSin_le t2 f (n + 1)) hu0 hu1 ht hη (ih (by omega))
    have e : ((2 * n * (2 * n + 1) : ℕ) : ℝ) = 2 * n * (2 * n + 1) := by push_cast; ring
    rw [e] at h
    exact h

/-! ### Angles -/

/-- A part of a turn of at most an eighth, in fixed point. -/
theorem turn_close {p q : ℕ} (hq : 0 < q) (h : 8 * p ≤ q) :
    turnScaled * p / q ≤ cosScale ∧
    |((turnScaled * p / q : ℕ) : ℝ) / realScale - 2 * Real.pi * (p / q)| ≤ 1 / 10 ^ 19 := by
  have hS := realScale_pos
  have hq' : (0 : ℝ) < q := by exact_mod_cast hq
  constructor
  · refine Nat.div_le_of_le_mul ?_
    have h1 : turnScaled ≤ 8 * cosScale := by decide
    calc turnScaled * p ≤ 8 * cosScale * p := Nat.mul_le_mul_right _ h1
      _ = 8 * p * cosScale := by ring
      _ ≤ q * cosScale := Nat.mul_le_mul_right _ h
  · obtain ⟨q1, q2⟩ := nat_div_close (turnScaled * p) hq
    set X : ℝ := ((turnScaled * p / q : ℕ) : ℝ) with hX
    set z : ℝ := (p : ℝ) / q with hz
    have hz0 : 0 ≤ z := by positivity
    have hz1 : z ≤ 1 / 8 := by
      rw [hz, div_le_div_iff₀ hq' (by norm_num)]
      have : ((8 * p : ℕ) : ℝ) ≤ q := by exact_mod_cast h
      push_cast at this; linarith
    have e : ((turnScaled * p : ℕ) : ℝ) / q = (turnScaled : ℝ) * z := by rw [hz]; push_cast; ring
    rw [e] at q1 q2
    have b1 : |X / realScale - (turnScaled : ℝ) / realScale * z| ≤ 1 / 10 ^ 30 := by
      have : X / realScale - (turnScaled : ℝ) / realScale * z = (X - turnScaled * z) / realScale := by
        field_simp
      rw [this, abs_div, abs_of_pos hS, div_le_iff₀ hS]
      have h3 : (1 : ℝ) ≤ 1 / 10 ^ 30 * realScale := by unfold realScale cosScale; norm_num
      refine le_trans ?_ h3
      rw [abs_le]; constructor <;> linarith
    have b2 : |(turnScaled : ℝ) / realScale - 2 * Real.pi| ≤ 1 / 10 ^ 19 := by
      have p1 := Real.pi_gt_d20
      have p2 := Real.pi_lt_d20
      have t1 : (6.28318530717958647692 : ℝ) ≤ (turnScaled : ℝ) / realScale := by
        rw [le_div_iff₀ hS]; unfold realScale cosScale turnScaled; norm_num
      have t2 : (turnScaled : ℝ) / realScale ≤ 6.28318530717958647693 := by
        rw [div_le_iff₀ hS]; unfold realScale cosScale turnScaled; norm_num
      rw [abs_le]; constructor <;> norm_num at * <;> linarith
    have : X / realScale - 2 * Real.pi * z =
        (X / realScale - (turnScaled : ℝ) / realScale * z) + ((turnScaled : ℝ) / realScale - 2 * Real.pi) * z := by
      ring
    rw [this]
    refine (abs_add_le _ _).trans ?_
    rw [abs_mul, abs_of_nonneg hz0]
    have : |(turnScaled : ℝ) / realScale - 2 * Real.pi| * z ≤ 1 / 10 ^ 19 * (1 / 8) :=
      mul_le_mul b2 hz1 hz0 (by norm_num)
    refine (add_le_add b1 this).trans ?_
    norm_num

/-- The squared angle in fixed point. -/
theorem square_close {t : ℕ} (ht : t ≤ cosScale) :
    t * t / cosScale ≤ cosScale ∧
    |((t * t / cosScale : ℕ) : ℝ) / realScale - ((t : ℝ) / realScale) ^ 2| ≤ 1 / realScale := by
  have hS := realScale_pos
  refine ⟨Nat.div_le_of_le_mul (Nat.mul_le_mul ht ht), ?_⟩
  obtain ⟨q1, q2⟩ := nat_div_close (t * t) (b := cosScale) (by unfold cosScale; norm_num)
  have e : ((t * t : ℕ) : ℝ) / (cosScale : ℝ) = ((t : ℝ) / realScale) ^ 2 * realScale := by
    push_cast; unfold realScale; field_simp
  rw [e] at q1 q2
  set X : ℝ := ((t * t / cosScale : ℕ) : ℝ)
  rw [abs_le]
  constructor
  · rw [neg_le_sub_iff_le_add, ← add_div, le_div_iff₀ hS]; exact q2
  · have : X / realScale ≤ ((t : ℝ) / realScale) ^ 2 := (div_le_iff₀ hS).2 q1
    have : 0 ≤ 1 / realScale := by positivity
    linarith

theorem inv_scale : 1 / realScale ≤ 1 / 10 ^ 30 := by
  unfold realScale cosScale; norm_num

/-- The cosine of an angle of at most a quarter turn. -/
theorem quarterCos_close {a b : ℕ} (hb : 0 < b) (h : 4 * a ≤ b) :
    |(quarterCos a b : ℝ) / realScale - Real.cos (2 * Real.pi * (a / b))| ≤ 1 / 10 ^ 18 := by
  have hS := realScale_pos
  have hI := inv_scale
  have hb' : (0 : ℝ) < b := by exact_mod_cast hb
  unfold quarterCos
  split
  · next h6 =>
    have ha : (a : ℝ) / b = 1 / 6 := by
      rw [← h6]; push_cast
      have : (a : ℝ) ≠ 0 := by
        have : 0 < a := by omega
        positivity
      field_simp
    have h2 : ((cosScale / 2 : ℕ) : ℝ) / realScale = 1 / 2 := by
      unfold realScale cosScale; norm_num
    rw [ha, show 2 * Real.pi * (1 / 6) = Real.pi / 3 by ring, Real.cos_pi_div_three, h2]
    norm_num
  · split
    · next h8 =>
      obtain ⟨ht, hτ⟩ := turn_close hb h8
      simp only
      set t := turnScaled * a / b
      obtain ⟨h1, h2⟩ := square_close ht
      set τ : ℝ := (t : ℝ) / realScale
      have τ0 : 0 ≤ τ := by positivity
      have τ1 : τ ≤ 1 := (div_le_one hS).2 (by exact_mod_cast ht)
      have hc := hornerCos_close (sq_nonneg τ) (pow_le_one₀ τ0 τ1) h1 h2 22 (n := 1) le_rfl
      have hs := (series_close (x := τ) (by rwa [abs_of_nonneg τ0])).1
      have hl := Real.abs_cos_sub_cos_le τ (2 * Real.pi * (a / b))
      have hl' := hl.trans hτ
      rw [abs_sub_comm] at hs
      have := abs_sub_le ((hornerCos (t * t / cosScale) 22 1 : ℝ) / realScale) (realCos (τ ^ 2) 22 1)
        (Real.cos (2 * Real.pi * (a / b)))
      have := abs_sub_le (realCos (τ ^ 2) 22 1) (Real.cos τ) (Real.cos (2 * Real.pi * (a / b)))
      have h3 : 1 / realScale + 2 / realScale ≤ 3 * (1 / 10 ^ 30) := by
        have : 1 / realScale + 2 / realScale = 3 * (1 / realScale) := by ring
        linarith
      have : (3 * (1 / 10 ^ 30) + (1 / 10 ^ 30 + 1 / 10 ^ 19) : ℝ) ≤ 1 / 10 ^ 18 := by norm_num
      linarith
    · next h8 =>
      obtain ⟨ht, hτ⟩ := turn_close (p := b - 4 * a) (q := 4 * b) (by omega) (by omega)
      simp only
      set t := turnScaled * (b - 4 * a) / (4 * b)
      have ey : 2 * Real.pi * (((b - 4 * a : ℕ) : ℝ) / ((4 * b : ℕ) : ℝ)) =
          Real.pi / 2 - 2 * Real.pi * (a / b) := by
        rw [Nat.cast_sub h]; push_cast; field_simp; ring
      rw [ey] at hτ
      rw [← Real.sin_pi_div_two_sub]
      set y := Real.pi / 2 - 2 * Real.pi * (a / b)
      obtain ⟨h1, h2⟩ := square_close ht
      have hh := hornerSin_le (t * t / cosScale) 22 1
      set τ : ℝ := (t : ℝ) / realScale with eτ
      have τ0 : 0 ≤ τ := by positivity
      have τ1 : τ ≤ 1 := (div_le_one hS).2 (by exact_mod_cast ht)
      have hc := hornerSin_close (sq_nonneg τ) (pow_le_one₀ τ0 τ1) h1 h2 22 (n := 1) le_rfl
      set g := hornerSin (t * t / cosScale) 22 1
      have hs := (series_close (x := τ) (by rwa [abs_of_nonneg τ0])).2
      have hl := (Real.abs_sin_sub_sin_le τ y).trans hτ
      obtain ⟨q1, q2⟩ := nat_div_close (t * g) (b := cosScale) (by unfold cosScale; norm_num)
      have e : ((t * g : ℕ) : ℝ) / (cosScale : ℝ) = τ * (g / realScale) * realScale := by
        rw [eτ]; push_cast; unfold realScale; field_simp
      rw [e] at q1 q2
      set X : ℝ := ((t * g / cosScale : ℕ) : ℝ)
      have b1 : |X / realScale - τ * (g / realScale)| ≤ 1 / realScale := by
        rw [abs_le]
        constructor
        · rw [neg_le_sub_iff_le_add, ← add_div, le_div_iff₀ hS]; exact q2
        · have : X / realScale ≤ τ * (g / realScale) := (div_le_iff₀ hS).2 q1
          have : 0 ≤ 1 / realScale := by positivity
          linarith
      have b2 : |τ * (g / realScale) - τ * realSin (τ ^ 2) 22 1| ≤ 1 / realScale + 2 / realScale := by
        rw [← mul_sub, abs_mul, abs_of_nonneg τ0]
        exact (mul_le_of_le_one_left (abs_nonneg _) τ1).trans hc
      rw [abs_sub_comm] at hs
      have := abs_sub_le (X / realScale) (τ * (g / realScale)) (Real.sin y)
      have := abs_sub_le (τ * (g / realScale)) (τ * realSin (τ ^ 2) 22 1) (Real.sin y)
      have := abs_sub_le (τ * realSin (τ ^ 2) 22 1) (Real.sin τ) (Real.sin y)
      have h3 : 1 / realScale + 2 / realScale ≤ 3 * (1 / 10 ^ 30) := by
        have : 1 / realScale + 2 / realScale = 3 * (1 / realScale) := by ring
        linarith
      have : (1 / 10 ^ 30 + (3 * (1 / 10 ^ 30) + (1 / 10 ^ 30 + 1 / 10 ^ 19)) : ℝ) ≤ 1 / 10 ^ 18 := by norm_num
      linarith

/-! ### Entries -/

/-- Rounding a scaled value in `[0, 1]`, given to within `ε`. -/
theorem roundScaled_close {tabOne c : ℕ} {v ε : ℝ} (hv : v ≤ 1) (h : |(c : ℝ) / realScale - v| ≤ ε) :
    |(roundScaled tabOne c : ℝ) - tabOne * v| ≤ 1 / 2 + tabOne * ε := by
  have hS := realScale_pos
  have hT : (0 : ℝ) ≤ tabOne := by positivity
  have hm : |((min c cosScale : ℕ) : ℝ) / realScale - v| ≤ ε := by
    rcases le_total c cosScale with hc | hc
    · rwa [min_eq_left hc]
    · rw [min_eq_right hc, show ((cosScale : ℕ) : ℝ) = realScale from rfl, div_self hS.ne', abs_of_nonneg (by linarith)]
      have h1 : 1 ≤ (c : ℝ) / realScale := (one_le_div hS).2 (by exact_mod_cast hc)
      have := (abs_le.1 h).2
      linarith
  unfold roundScaled
  obtain ⟨q1, q2⟩ := nat_div_close (2 * tabOne * min c cosScale + cosScale) (b := 2 * cosScale)
    (by unfold cosScale; norm_num)
  have e : ((2 * tabOne * min c cosScale + cosScale : ℕ) : ℝ) / ((2 * cosScale : ℕ) : ℝ) =
      tabOne * (((min c cosScale : ℕ) : ℝ) / realScale) + 1 / 2 := by
    push_cast
    have : (cosScale : ℝ) ≠ 0 := hS.ne'
    unfold realScale; field_simp
  rw [e] at q1 q2
  set w : ℝ := ((min c cosScale : ℕ) : ℝ) / realScale
  set X : ℝ := (((2 * tabOne * min c cosScale + cosScale) / (2 * cosScale) : ℕ) : ℝ)
  have h1 : |X - tabOne * w| ≤ 1 / 2 := by rw [abs_le]; constructor <;> linarith
  have h2 : |(tabOne : ℝ) * w - tabOne * v| ≤ tabOne * ε := by
    rw [← mul_sub, abs_mul, abs_of_nonneg hT]; exact mul_le_mul_of_nonneg_left hm hT
  have := abs_sub_le X (tabOne * w) (tabOne * v)
  linarith

/-- An entry of a nominal cosine table (R132). -/
theorem nominalCos_close (tabOne a : ℕ) {b : ℕ} (hb : 0 < b) :
    |(nominalCos tabOne a b : ℝ) - tabOne * Real.cos (2 * Real.pi * (a / b))| ≤ 1 / 2 + tabOne / 10 ^ 18 := by
  have hb' : (b : ℝ) ≠ 0 := by positivity
  have e1 : Real.cos (2 * Real.pi * (a / b)) = Real.cos (2 * Real.pi * ((a % b : ℕ) / b)) := by
    have h : ((b * (a / b) + a % b : ℕ) : ℝ) = a := by exact_mod_cast Nat.div_add_mod a b
    push_cast at h
    have : 2 * Real.pi * ((a : ℝ) / b) = 2 * Real.pi * ((a % b : ℕ) / b) + (a / b : ℕ) * (2 * Real.pi) := by
      rw [← h]; field_simp; ring
    rw [this, Real.cos_add_nat_mul_two_pi]
  have hr := Nat.mod_lt a hb
  have e2 : Real.cos (2 * Real.pi * ((a % b : ℕ) / b)) =
      Real.cos (2 * Real.pi * (((if b < 2 * (a % b) then b - a % b else a % b : ℕ) : ℝ) / b)) := by
    split
    · have : 2 * Real.pi * (((b - a % b : ℕ) : ℝ) / b) = 2 * Real.pi - 2 * Real.pi * ((a % b : ℕ) / b) := by
        rw [Nat.cast_sub hr.le]; field_simp
      rw [this, Real.cos_two_pi_sub]
    · rfl
  rw [e1, e2]
  unfold nominalCos
  simp only
  have hh : 2 * (if b < 2 * (a % b) then b - a % b else a % b) ≤ b := by split <;> omega
  set h := if b < 2 * (a % b) then b - a % b else a % b
  split
  · next h4 =>
    have := roundScaled_close (tabOne := tabOne) (Real.cos_le_one _) (quarterCos_close hb h4)
    rw [mul_one_div] at this
    exact_mod_cast this
  · next h4 =>
    have hq := quarterCos_close (a := b - 2 * h) (b := 2 * b) (by omega) (by omega)
    have e3 : 2 * Real.pi * (((b - 2 * h : ℕ) : ℝ) / ((2 * b : ℕ) : ℝ)) = Real.pi - 2 * Real.pi * (h / b) := by
      rw [Nat.cast_sub hh]; push_cast; field_simp
    rw [e3, Real.cos_pi_sub] at hq
    have := roundScaled_close (tabOne := tabOne) (by have := Real.neg_one_le_cos (2 * Real.pi * (h / b)); linarith) hq
    rw [mul_one_div] at this
    push_cast
    rw [abs_sub_comm]
    have e4 : (tabOne : ℝ) * Real.cos (2 * Real.pi * (h / b)) - -(roundScaled tabOne (quarterCos (b - 2 * h) (2 * b)) : ℝ)
        = (roundScaled tabOne (quarterCos (b - 2 * h) (2 * b)) : ℝ) - tabOne * -Real.cos (2 * Real.pi * (h / b)) := by
      ring
    rw [e4]
    exact this

/-- An entry of a nominal sine table (R132). -/
theorem nominalSin_close (tabOne a : ℕ) {b : ℕ} (hb : 0 < b) :
    |(nominalSin tabOne a b : ℝ) - tabOne * Real.sin (2 * Real.pi * (a / b))| ≤ 1 / 2 + tabOne / 10 ^ 18 := by
  have h := nominalCos_close tabOne (4 * a + 3 * b) (b := 4 * b) (by omega)
  have hb' : (b : ℝ) ≠ 0 := by positivity
  have e : 2 * Real.pi * (((4 * a + 3 * b : ℕ) : ℝ) / ((4 * b : ℕ) : ℝ)) =
      2 * Real.pi * (a / b) - Real.pi / 2 + 2 * Real.pi := by
    push_cast; field_simp; ring
  rw [e, Real.cos_add_two_pi, Real.cos_sub_pi_div_two] at h
  exact h

end Machine
end Sys2Proof
end

