-- ==== Sys2Proof/Tests/Slice0.lean ====
section
/-!
SUPPORT. The package's own tests. Expected results are the spec's (spec/95_test_vectors.md V1 to V53 and P1 to P3,
spec/42_codec_fsk.md R158, spec/43_codec_qpsk.md R178), cited at each test. Last, a witness for every statement that
has hypotheses.
-/

set_option Elab.async false

namespace Sys2Proof
namespace Machine

/-! ### Well-formed operands: a term of each kind that the check refuses -/

theorem test_wf_ringPush_wrong_size : Instr.wellFormed 2 (.ringPush [1]) = false := by decide
theorem test_wf_outqPush_empty : Instr.wellFormed 2 (.outqPush []) = false := by decide
theorem test_wf_outqPop_wrong_size : Instr.wellFormed 2 (.outqPop [1, 2, 3]) = false := by decide
theorem test_wf_codecNew_type : Instr.wellFormed 2 (.codecNew 2 8000 1000) = false := by decide
theorem test_wf_codecNew_negative : Instr.wellFormed 2 (.codecNew 0 (-8) (-4)) = false := by decide
theorem test_wf_codecNew_zero_baud : Instr.wellFormed 2 (.codecNew 0 8000 0) = false := by decide
theorem test_wf_codecNew_zero_rate : Instr.wellFormed 2 (.codecNew 0 0 1000) = false := by decide
theorem test_wf_codecNew_not_dividing : Instr.wellFormed 2 (.codecNew 0 44100 600) = false := by decide
theorem test_wf_pktBuild_oversize : Instr.wellFormed 2 (.pktBuild 0 0 (List.replicate 65530 0)) = false := by
  rw [Instr.wellFormed, List.length_replicate]; decide
theorem test_wf_pktqPush_no_packet : Instr.wellFormed 2 (.pktqPush [1, 0, 7, 0, 0, 0]) = false := by decide
theorem test_wf_engCallback_wrong_size : Instr.wellFormed 2 (.engCallback []) = false := by decide
theorem test_wf_engTransmit_oversize : Instr.wellFormed 2 (.engTransmit (List.replicate 65536 0)) = false := by
  rw [Instr.wellFormed, List.length_replicate]; decide
theorem test_wf_engSetConfig_chunk :
    Instr.wellFormed 2 (.engSetConfig { Config.testConfigA with chunk := 0 }) = false := by decide
theorem test_wf_engSetConfig_type :
    Instr.wellFormed 2 (.engSetConfig { Config.testConfigA with codecType := 2 }) = false := by decide
theorem test_wf_engSetConfig_legal : Instr.wellFormed 2 (.engSetConfig Config.testConfigA) = true := by decide
theorem test_wf_same_but_volume :
    ModemConfig.sameButVolume { Config.testConfigA with outVol := 5 } Config.testConfigA = true := by decide
theorem test_wf_not_same_but_volume :
    ModemConfig.sameButVolume { Config.testConfigA with inDev := 1 } Config.testConfigA = false := by decide

/-! ### Decoding: the opcode byte of each row of R81 written bit by bit, `unit ++ operation` -/

theorem test_decode_ringPush : decode ⟨0b0000_0000, [.samples [1, 2]]⟩ = .instr (.ringPush [1, 2]) := by decide
theorem test_decode_ringPop : decode ⟨0b0000_0001, []⟩ = .instr .ringPop := by decide
theorem test_decode_ringClear : decode ⟨0b0000_0010, []⟩ = .instr .ringClear := by decide
theorem test_decode_outqPush : decode ⟨0b0001_0000, [.samples [3]]⟩ = .instr (.outqPush [3]) := by decide
theorem test_decode_outqPop : decode ⟨0b0001_0001, [.samples [9, 9]]⟩ = .instr (.outqPop [9, 9]) := by decide
theorem test_decode_outqClear : decode ⟨0b0001_0010, []⟩ = .instr .outqClear := by decide
theorem test_decode_codecSync : decode ⟨0b0010_0000, [.samples [4]]⟩ = .instr (.codecSync [4]) := by decide
theorem test_decode_codecDemod :
    decode ⟨0b0010_0001, [.samples [4], .bytes [7]]⟩ = .instr (.codecDemod [4] [7]) := by decide
theorem test_decode_codecMod : decode ⟨0b0010_0010, [.bytes [0xA5]]⟩ = .instr (.codecMod [0xA5]) := by decide
theorem test_decode_codecType : decode ⟨0b0010_0011, []⟩ = .instr .codecType := by decide
theorem test_decode_codecNew :
    decode ⟨0b0010_0100, [.int 1, .int 48000, .int 600]⟩ = .instr (.codecNew 1 48000 600) := by decide
theorem test_decode_pktPush : decode ⟨0b0011_0000, [.bytes [1]]⟩ = .instr (.pktPush [1]) := by decide
theorem test_decode_pktFinished : decode ⟨0b0011_0001, []⟩ = .instr .pktFinished := by decide
theorem test_decode_pktValid : decode ⟨0b0011_0010, []⟩ = .instr .pktValid := by decide
theorem test_decode_pktChecksum : decode ⟨0b0011_0011, []⟩ = .instr .pktChecksum := by decide
theorem test_decode_pktNew : decode ⟨0b0011_0100, []⟩ = .instr .pktNew := by decide
theorem test_decode_pktBuild :
    decode ⟨0b0011_0101, [.byte 1, .byte 2, .bytes [3]]⟩ = .instr (.pktBuild 1 2 [3]) := by decide
theorem test_decode_pktqPush : decode ⟨0b0100_0000, [.bytes [5]]⟩ = .instr (.pktqPush [5]) := by decide
theorem test_decode_pktqPop : decode ⟨0b0100_0001, []⟩ = .instr .pktqPop := by decide
theorem test_decode_engStartStream :
    decode ⟨0b0101_0000, [.bool true, .bool false]⟩ = .instr (.engStartStream true false) := by decide
theorem test_decode_engStopStream : decode ⟨0b0101_0001, []⟩ = .instr .engStopStream := by decide
theorem test_decode_engStartDemod : decode ⟨0b0101_0010, []⟩ = .instr .engStartDemod := by decide
theorem test_decode_engStopDemod : decode ⟨0b0101_0011, []⟩ = .instr .engStopDemod := by decide
theorem test_decode_engCallback : decode ⟨0b0101_0100, [.samples [6]]⟩ = .instr (.engCallback [6]) := by decide
theorem test_decode_engWorkerStep : decode ⟨0b0101_0101, []⟩ = .instr .engWorkerStep := by decide
theorem test_decode_engTransmit : decode ⟨0b0101_0110, [.bytes [8]]⟩ = .instr (.engTransmit [8]) := by decide
theorem test_decode_engSetConfig :
    decode ⟨0b0101_0111, [.config Config.testConfigA]⟩ = .instr (.engSetConfig Config.testConfigA) := by decide
theorem test_decode_engGetConfig : decode ⟨0b0101_1000, []⟩ = .instr .engGetConfig := by decide

/-- R83: an unlisted operation number of a listed unit, in every unit. -/
theorem test_decode_reserved_op :
    ([0b0000_0011, 0b0001_0011, 0b0010_0101, 0b0011_0110, 0b0100_0010, 0b0101_1001].map
      fun b : Byte => decide (decode ⟨b, []⟩ = .reserved b)) = List.replicate 6 true := by decide
/-- R83: the units 6 to 15 are reserved. -/
theorem test_decode_reserved_unit :
    ((List.range 160).map fun k => decide (decode ⟨BitVec.ofNat 8 (0x60 + k), []⟩ = .reserved (BitVec.ofNat 8 (0x60 + k)))) =
      List.replicate 160 true := by decide +kernel
/-- R83: operands of the wrong type, and too many of them. -/
theorem test_decode_bad_operands :
    decode ⟨0b0000_0000, [.bytes [1]]⟩ = .badOperands 0 ∧ decode ⟨0b0000_0001, [.int 0]⟩ = .badOperands 1 := by
  decide
/-- The host's words: the 28 listed bytes decode, with operands of zeros, and no other byte does. -/
theorem test_decodeTableWord_count :
    ((List.range 256).filter fun w => (decodeTableWord 8 w).isSome) =
      [0x00, 0x01, 0x02, 0x10, 0x11, 0x12, 0x20, 0x21, 0x22, 0x23, 0x24, 0x30, 0x31, 0x32, 0x33, 0x34, 0x35,
       0x40, 0x41, 0x50, 0x51, 0x52, 0x53, 0x54, 0x55, 0x56, 0x57, 0x58] := by decide +kernel
theorem test_decodeTableWord_operands : decodeTableWord 8 0x24 = some (.codecNew 0 0 0) := by decide +kernel

/-! ### Operand forms, flags and tables -/

/-- R64: total 00 01 little-endian is 256. -/
theorem test_word16 : word16 0x00 0x01 = 256 ∧ lowByte 0x956C = 0x6C ∧ highByte 0x956C = 0x95 := by decide
/-- R87: the bit groups of A5 = 10100101, V17 and V18. -/
theorem test_bitGroups :
    bitGroups 1 0xA5 = [[true], [false], [true], [false], [false], [true], [false], [true]] ∧
    bitGroups 2 0xA5 = [[true, false], [true, false], [false, true], [false, true]] := by decide
/-- V14: the checksum of the empty buffer is 0xFFFF (D23). -/
theorem test_cksum_empty : cksum16 [] = 0xFFFF := by decide
/-- V14: bytes 4 and 5 are read as zero. -/
theorem test_cksum_field :
    cksum16 [1, 1, 9, 0, 0x6C, 0x95, 0x68, 0x69, 0x21] = 0x956C ∧
    cksum16 [1, 1, 9, 0, 0xFF, 0x12, 0x68, 0x69, 0x21] = 0x956C ∧
    cksum16 [1, 1, 9, 0, 0x6C, 0x95, 0x68, 0x68, 0x21] = 0x966C := by decide
/-- R94: text is bit 0 of the flags byte, file bit 1. -/
theorem test_flag_bits : isText [0, 1] = true ∧ isFile [0, 1] = false ∧ isFile [0, 2] = true := by decide
/-- R204: a packet with a wrong checksum is corrupt, and so is a file packet too short for its own header. -/
theorem test_corrupt :
    corruptPayload Config.testParams [1, 1, 9, 0, 0x6C, 0x95, 0x68, 0x69, 0x21] = false ∧
    corruptPayload Config.testParams [1, 1, 9, 0, 0x6C, 0x95, 0x68, 0x68, 0x21] = true ∧
    corruptPayload Config.testParams [0x12, 2, 9, 0, 0xE5, 0xFC, 0xFF, 0xFF, 0xFF] = true := by decide +kernel
/-- R252, R256: the code numbers. -/
theorem test_codes :
    [Status.ok, .deviceUnavailable, .hwStreamError, .state, .corrupt, .oversize, .refused].map Status.code =
      [0, 1, 2, 3, 4, 5, 6] ∧
    [Event.byteProgress 0 0, .packetReceived, .packetLost, .configChanged].map Event.code = [1, 2, 3, 4] := by decide

/-- The instance of TC-A. -/
def codecA : Codec := buildCodec Config.testParams .fsk 8000 1000
/-- The instance of TC-B. -/
def codecB : Codec := buildCodec Config.testParams .qpsk 8000 1000
/-- The idle waveform of TC-A. -/
def waveI : List Sample := [29490, 20853, 0, -20853, -29490, -20853, 0, 20853]
/-- The start waveform of TC-A. -/
def waveS : List Sample := [29490, 0, -29490, 0, 29490, 0, -29490, 0]

/-- R158: the tables of TC-A. -/
theorem test_tables_A :
    codecA.tables = { cosL := [32767, 23170, 0, -23170, -32767, -23170, 0, 23170],
                      sinL := [0, 23170, 32767, 23170, 0, -23170, -32767, -23170],
                      cosH := [32767, 0, -32767, 0, 32767, 0, -32767, 0],
                      sinH := [0, 32767, 0, -32767, 0, 32767, 0, -32767], cosC := [], sinC := [] } := by
  decide +kernel
/-- R178: the tables of TC-B. -/
theorem test_tables_B :
    codecB.tables.cosC = [32767, 30273, 23170, 12539, 0, -12539, -23170, -30273, -32767, -30273, -23170, -12539, 0,
                          12539, 23170, 30273] ∧
    codecB.tables.sinC = [0, 12539, 23170, 30273, 32767, 30273, 23170, 12539, 0, -12539, -23170, -30273, -32767,
                          -30273, -23170, -12539] := by decide +kernel
/-- R132 for a rate with no symmetry: round(32767 cos(2π 600/48000)) and the next, from E7's first idle samples
29399, 29127 (0.9 of the entries, truncated). -/
theorem test_nominal_C :
    (List.range 8).map (fun k => (9 * 32767 * nominalCos 32767 (600 * k) 48000).tdiv (10 * 32767)) =
      [29490, 29399, 29127, 28675, 28046, 27245, 26276, 25144] := by decide +kernel
/-- R158: the waveforms of TC-A. -/
theorem test_waves_A :
    wave Config.testParams codecA [false] = waveI ∧ wave Config.testParams codecA [true] = waveS := by decide +kernel
/-- R178: the waveforms (0, 1) and (1, 1) of TC-B. -/
theorem test_waves_B :
    wave Config.testParams codecB [false, true] = [20852, 11285, 0, -11285, -20852, -27245, -29490, -27245, -20852,
      -11285, 0, 11285, 20852, 27245, 29490, 27245] ∧
    wave Config.testParams codecB [true, true] = [-20852, -27245, -29490, -27245, -20852, -11285, 0, 11285, 20852,
      27245, 29490, 27245, 20852, 11285, 0, -11285] := by decide +kernel
/-- V30 to V32: equal to the threshold, just above it, just below it. -/
theorem test_threshold :
    (above Config.testParams codecA [32767, 0, 0, 0, -32767, 0, 0, 0],
     below Config.testParams codecA [32767, 0, 0, 0, -32767, 0, 0, 0]) = (false, false) ∧
    above Config.testParams codecA [32767, 0, 0, 0, -32768, 0, 0, 0] = true ∧
    below Config.testParams codecA [32767, 0, 0, 0, -32766, 0, 0, 0] = true := by decide +kernel
/-- V33 to V35: a tie decodes 0; I and S. -/
theorem test_decide_A :
    [zeros 8, waveI, waveS].map (decideBits codecA) = [[false], [false], [true]] ∧
    [zeros 8, waveI, waveS].map (confirm codecA) = [false, false, true] ∧
    4 * 4 * power2 codecA waveI = 239042978645819040000 := by decide +kernel
/-- R158: the discriminant over one symbol interval of TC-A. -/
theorem test_disc_A :
    (List.range 8).map (fun d => disc codecA ((waveI ++ waveI ++ waveI).drop d)) =
      [7730507400, 0, -7730507400, -10932588408, -7730507400, -10932588408, -7730507400, 0] := by decide +kernel
/-- R178: the first discriminants of TC-B. -/
theorem test_disc_B :
    (List.range 6).map (fun d => disc codecB ((rep 3 (idleSymbol Config.testParams codecB)).drop d)) =
      [21864655312, 11833066184, 0, -11833066184, -21864655312, -28567548872] := by decide +kernel

/-! ### One operation on a small state -/

/-- A state after reset but for the chunk length, the ring's capacity and the issuer. -/
def small (a : Agent) (chunk : U32) (cap : Nat) : State :=
  { State.init { Config.testParams with ringCap := cap } with
    config := { Config.testConfigA with chunk := chunk }, issuer := a }

/-- The answer is a next state of which `f` holds. -/
def nextIs (r : Answer) (f : State → Bool) : Bool :=
  match r with
  | .next t => f t
  | .fault _ => false
  | .refused _ => false

/-- The answer is exactly the next state `t`. -/
def nextEq (r : Answer) (t : State) : Bool := nextIs r fun u => decide (u = t)

/-- The chunk `[k, −k]` of the ring vectors. -/
def ck (k : Int) : List Sample := [BitVec.ofInt 16 k, BitVec.ofInt 16 (-k)]

/-- The full ring of V1 before its last push: the next push writes slot 1. -/
def fullRing : Ring := { slots := [(0, ck 5), (1, ck 2), (2, ck 3), (3, ck 4)], tail := 1, size := 4 }

/-- V1: the push on a full ring overwrites the oldest chunk. -/
theorem test_ringPush_full :
    nextIs (exec (.ringPush (ck 6)) { small .callback 2 4 with ring := fullRing }) (fun t =>
      decide (t.ring = { slots := [(0, ck 5), (1, ck 6), (2, ck 3), (3, ck 4)], tail := 2, size := 4 })) = true := by
  decide +kernel
/-- V4: a chunk of `CHUNK − 1` samples is refused. -/
theorem test_ringPush_short :
    nextEq (exec (.ringPush [1]) (small .callback 2 4))
      { small .callback 2 4 with rsp := some ⟨.refused, .none⟩ } = true := by decide +kernel
/-- V1: after the pushes the head is slot 2. -/
theorem test_ringPop_head :
    nextIs (exec .ringPop { small .worker 2 4 with
        ring := { slots := [(0, ck 5), (1, ck 6), (2, ck 3), (3, ck 4)], tail := 2, size := 4 } }) (fun t =>
      decide (t.rsp = some ⟨.ok, .chunk true (ck 3)⟩ ∧ t.ring.size = 3 ∧ t.ring.tail = 2)) = true := by decide +kernel
/-- V4: an empty ring answers absent. -/
theorem test_ringPop_empty :
    nextEq (exec .ringPop (small .worker 2 4))
      { small .worker 2 4 with rsp := some ⟨.ok, .chunk false []⟩ } = true := by decide +kernel
/-- V4, R112: the slots stay. -/
theorem test_ringClear :
    nextIs (exec .ringClear { small .caller 2 4 with ring := fullRing }) (fun t =>
      decide (t.ring = { slots := fullRing.slots, tail := 0, size := 0 })) = true := by decide +kernel

/-- V5: padding to two windows. -/
theorem test_outqPush_pads :
    nextIs (exec (.outqPush [1, 2, 3, 4, 5, 6]) (small .caller 4 4)) (fun t =>
      decide (t.outq = [{ data := [1, 2, 3, 4, 5, 6, 0, 0], cursor := 0 }])) = true := by decide +kernel
/-- V9: the empty sequence is refused. -/
theorem test_outqPush_empty :
    nextEq (exec (.outqPush []) (small .caller 4 4))
      { small .caller 4 4 with rsp := some ⟨.refused, .none⟩ } = true := by decide +kernel
/-- V5, V7: the last window retires the head entry and does not join the next. -/
theorem test_outqPop_retires :
    nextIs (exec (.outqPop [9, 9, 9, 9]) { small .callback 4 4 with
        outq := [{ data := [1, 2, 3, 4, 5, 6, 0, 0], cursor := 4 }, { data := [7, 0, 0, 0], cursor := 0 }] }) (fun t =>
      decide (t.rsp = some ⟨.ok, .chunk true [5, 6, 0, 0]⟩ ∧ t.outq = [{ data := [7, 0, 0, 0], cursor := 0 }])) =
        true := by decide +kernel
/-- V5: an empty queue leaves the destination. -/
theorem test_outqPop_empty :
    nextIs (exec (.outqPop [9, 9, 9, 9]) (small .callback 4 4)) (fun t =>
      decide (t.rsp = some ⟨.ok, .chunk false [9, 9, 9, 9]⟩)) = true := by decide +kernel
/-- V8. -/
theorem test_outqClear :
    nextIs (exec .outqClear { small .caller 4 4 with outq := [{ data := [1, 2, 3, 4], cursor := 0 }] }) (fun t =>
      decide (t.outq = [])) = true := by decide +kernel

/-- V10. -/
theorem test_codecNew_qpsk :
    nextIs (exec (.codecNew 1 48000 600) (small .caller 4 4)) (fun t =>
      decide (t.codec.symLen = 160 ∧ t.codec.minWin = 3200 ∧ t.codec.bps = 2 ∧ t.codec.synchronized = false)) =
        true := by decide +kernel
/-- R131, R12: rates of more than 32 bits, which divide, are legal. -/
theorem test_codecNew_wide :
    nextIs (exec (.codecNew 0 (2 ^ 34) (2 ^ 32)) (small .caller 4 4)) (fun t =>
      decide (t.codec.symLen = 4 ∧ t.codec.minWin = 80 ∧ t.rsp = some ⟨.ok, .none⟩)) = true := by decide +kernel
/-- V11. -/
theorem test_codecNew_not_dividing :
    nextEq (exec (.codecNew 0 44100 600) (small .caller 4 4))
      { small .caller 4 4 with rsp := some ⟨.refused, .none⟩ } = true := by decide +kernel
/-- V17: the symbols of A5 in TC-A. -/
theorem test_codecMod_A5 :
    nextIs (exec (.codecMod [0xA5]) (small .caller 4 4)) (fun t =>
      decide (t.rsp = some ⟨.ok, .samples (rep 6 waveI ++ waveS ++ waveS ++ waveI ++ waveS ++ waveI ++ waveI ++ waveS ++
        waveI ++ waveS ++ waveI ++ waveI)⟩)) = true := by decide +kernel
/-- V15: no byte is the trailer alone, 16 samples. -/
theorem test_codecMod_empty :
    nextIs (exec (.codecMod []) (small .caller 4 4)) (fun t =>
      decide (t.rsp = some ⟨.ok, .samples (waveI ++ waveI)⟩)) = true := by decide +kernel
/-- V19. -/
theorem test_codecType_qpsk :
    nextIs (exec .codecType { small .caller 4 4 with codec := codecB }) (fun t =>
      decide (t.rsp = some ⟨.ok, .kind 1⟩)) = true := by decide +kernel
/-- V20: lock behind a lead of five samples, 61 consumed, 280 left. -/
theorem test_codecSync_offset :
    nextIs (exec (.codecSync (zeros 5 ++ modulate Config.testParams codecA [0xA5] ++ zeros 200)) (small .worker 4 4))
      (fun t => decide (t.codec.synchronized = true ∧ t.rsp = some ⟨.ok, .sync true (waveS ++ waveI ++ waveS ++ waveI ++
        waveI ++ waveS ++ waveI ++ waveS ++ waveI ++ waveI ++ zeros 200)⟩)) = true := by decide +kernel
/-- V22: silence of 169 samples, 16 consumed. -/
theorem test_codecSync_silence :
    nextIs (exec (.codecSync (zeros 169)) (small .worker 4 4)) (fun t =>
      decide (t.rsp = some ⟨.ok, .sync false (zeros 153)⟩ ∧ t.codec.synchronized = false)) = true := by decide +kernel
/-- V23: the loop guard ends with three bits held. -/
theorem test_codecDemod_guard :
    nextIs (exec (.codecDemod (waveS ++ waveI ++ waveS ++ waveI ++ waveI ++ waveS ++ waveI ++ waveS ++ waveI ++ waveI ++
        zeros 100) []) { small .worker 4 4 with codec := { codecA with synchronized := true } }) (fun t =>
      decide (t.codec.bitVal = 0b101 ∧ t.codec.bitCnt = 3 ∧ t.codec.synchronized = true ∧
        t.rsp = some ⟨.ok, .demod false (waveI ++ waveI ++ waveS ++ waveI ++ waveS ++ waveI ++ waveI ++ zeros 100) []⟩)) =
      true := by decide +kernel
/-- V21: the byte, then sync-lost on silence with 200 samples left. -/
theorem test_codecDemod_lost :
    nextIs (exec (.codecDemod (waveS ++ waveI ++ waveS ++ waveI ++ waveI ++ waveS ++ waveI ++ waveS ++ waveI ++ waveI ++
        zeros 200) []) { small .worker 4 4 with codec := { codecA with synchronized := true } }) (fun t =>
      decide (t.rsp = some ⟨.ok, .demod true (zeros 200) [0xA5]⟩ ∧ t.codec = codecA)) = true := by decide +kernel

/-- The packet of P3 and V12. -/
def hi : List Byte := [0x01, 0x01, 0x09, 0x00, 0x6C, 0x95, 0x68, 0x69, 0x21]

/-- V36: the surplus byte is left. -/
theorem test_pktPush_surplus :
    nextIs (exec (.pktPush (hi ++ [0xAA])) (small .worker 4 4)) (fun t =>
      decide (t.pkt = hi ∧ t.rsp = some ⟨.ok, .bytes [0xAA]⟩)) = true := by decide +kernel
/-- V38: a declared length of 3 takes nothing more. -/
theorem test_pktPush_malformed :
    nextIs (exec (.pktPush [1, 1, 3, 0, 0, 0, 0xAA, 0xBB]) (small .worker 4 4)) (fun t =>
      decide (t.pkt = [1, 1, 3, 0, 0, 0] ∧ t.rsp = some ⟨.ok, .bytes [0xAA, 0xBB]⟩)) = true := by decide +kernel
/-- V12: finished after the ninth byte, not after the eighth. -/
theorem test_pktFinished :
    nextIs (exec .pktFinished { small .worker 4 4 with pkt := hi }) (fun t =>
      decide (t.rsp = some ⟨.ok, .flag true⟩)) = true ∧
    nextIs (exec .pktFinished { small .worker 4 4 with pkt := hi.take 8 }) (fun t =>
      decide (t.rsp = some ⟨.ok, .flag false⟩)) = true := by decide +kernel
/-- V14: byte 7 changed. -/
theorem test_pktValid :
    nextIs (exec .pktValid { small .worker 4 4 with pkt := hi }) (fun t =>
      decide (t.rsp = some ⟨.ok, .flag true⟩)) = true ∧
    nextIs (exec .pktValid { small .consumer 4 4 with held := [(0, hi.set 7 0x68)] }) (fun t =>
      decide (t.rsp = some ⟨.ok, .flag false⟩)) = true := by decide +kernel
/-- P3. -/
theorem test_pktChecksum :
    nextIs (exec .pktChecksum { small .worker 4 4 with pkt := hi }) (fun t =>
      decide (t.rsp = some ⟨.ok, .checksum 0x956C⟩)) = true := by decide +kernel
/-- P3. -/
theorem test_pktNew :
    nextIs (exec .pktNew { small .worker 4 4 with pkt := hi }) (fun t => decide (t.pkt = [])) = true := by
  decide +kernel
/-- V13. -/
theorem test_pktBuild :
    nextIs (exec (.pktBuild 0x12 0x02 [0xFF, 0xFF, 0xFF]) (small .caller 4 4)) (fun t =>
      decide (t.rsp = some ⟨.ok, .bytes [0x12, 0x02, 0x09, 0x00, 0xE5, 0xFC, 0xFF, 0xFF, 0xFF]⟩)) = true := by
  decide +kernel
/-- V13: the end-around carry. -/
theorem test_pktBuild_carry :
    nextIs (exec (.pktBuild 0xFF 0xFF (List.replicate 10 0xFF)) (small .caller 4 4)) (fun t =>
      decide (t.rsp = some ⟨.ok, .bytes ([0xFF, 0xFF, 0x10, 0x00, 0xEF, 0xFF] ++ List.replicate 10 0xFF)⟩)) = true := by
  decide +kernel
/-- The packet of six bytes that is its header alone (R38, R195). -/
def bare : List Byte := [1, 0, 6, 0, 0, 0]
/-- V39. -/
theorem test_pktqPush :
    nextIs (exec (.pktqPush bare) { small .worker 4 4 with pktq := [hi] }) (fun t => decide (t.pktq = [hi, bare])) =
      true := by decide +kernel
/-- R39: a byte sequence that is no complete packet does not enter the queue. -/
theorem test_pktqPush_incomplete :
    nextEq (exec (.pktqPush (hi.take 8)) (small .worker 4 4))
      { small .worker 4 4 with rsp := some ⟨.refused, .none⟩ } = true := by decide +kernel
/-- V39: the oldest first; R262: it goes to the CONSUMER that popped it, beside what another holds. -/
theorem test_pktqPop :
    nextIs (exec .pktqPop { small .consumer 4 4 with pktq := [hi, bare], who := 3, held := [(1, bare)] }) (fun t =>
      decide (t.pktq = [bare] ∧ t.rsp = some ⟨.ok, .packet true hi⟩ ∧ t.held = [(1, bare), (3, hi)])) = true := by
  decide +kernel
/-- V39: absent. -/
theorem test_pktqPop_empty :
    nextIs (exec .pktqPop (small .consumer 4 4)) (fun t =>
      decide (t.rsp = some ⟨.ok, .packet false []⟩)) = true := by decide +kernel

/-- V41: the three answers. -/
theorem test_engStartStream :
    [(false, true), (true, false), (true, true)].map (fun p =>
      nextIs (exec (.engStartStream p.1 p.2) (small .caller 4 4)) fun t => decide (t.streaming = (p.1 && p.2) ∧
        t.rsp = some (if p.1 then if p.2 then ⟨.ok, .flag true⟩ else ⟨.hwStreamError, .flag false⟩
          else ⟨.deviceUnavailable, .flag false⟩))) = [true, true, true] := by decide +kernel
/-- V42. -/
theorem test_engStartStream_twice :
    nextEq (exec (.engStartStream true true) { small .caller 4 4 with streaming := true })
      { small .caller 4 4 with streaming := true, rsp := some ⟨.state, .flag false⟩ } = true := by decide +kernel
/-- V44. -/
theorem test_engStopStream :
    nextIs (exec .engStopStream { small .caller 2 4 with
        streaming := true, demodulating := true, ring := fullRing, outq := [{ data := ck 1, cursor := 0 }] }) (fun t =>
      decide (t.streaming = false ∧ t.demodulating = true ∧ t.ring.size = 0 ∧ t.outq = [] ∧
        t.rsp = some ⟨.ok, .flag true⟩)) = true := by decide +kernel
/-- V45. -/
theorem test_engStopStream_off :
    nextEq (exec .engStopStream { small .caller 2 4 with demodulating := true })
      { small .caller 2 4 with demodulating := true, rsp := some ⟨.state, .flag false⟩ } = true := by decide +kernel
/-- V43. -/
theorem test_engStartDemod :
    nextIs (exec .engStartDemod { small .caller 2 4 with streaming := true, ring := fullRing, work := [1], pend := [2] })
      (fun t => decide (t.demodulating = true ∧ t.ring.size = 0 ∧ t.work = [] ∧ t.pend = [] ∧
        t.rsp = some ⟨.ok, .flag true⟩)) = true := by decide +kernel
/-- V40. -/
theorem test_engStartDemod_not_streaming :
    nextEq (exec .engStartDemod (small .caller 2 4))
      { small .caller 2 4 with rsp := some ⟨.state, .flag false⟩ } = true := by decide +kernel
/-- V46. -/
theorem test_engStopDemod :
    nextIs (exec .engStopDemod { small .caller 2 4 with demodulating := true, ring := fullRing }) (fun t =>
      decide (t.demodulating = false ∧ t.ring.size = 0 ∧ t.ring.tail = 0)) = true := by decide +kernel
/-- V53, the first access (R224): the chunk is pushed, and nothing is answered yet. -/
theorem test_engCallback_push :
    nextIs (exec (.engCallback (ck 7)) { small .callback 2 4 with streaming := true }) (fun t =>
      decide (t.ring = { slots := [(0, ck 7)], tail := 1, size := 1 } ∧ t.audOut = none ∧ t.rsp = none)) = true := by
  decide +kernel
/-- V52. -/
theorem test_engCallback_off :
    nextEq (exec (.engCallback (ck 7)) (small .callback 2 4))
      { small .callback 2 4 with rsp := some ⟨.refused, .none⟩ } = true := by decide +kernel
/-- P4, iteration 10 in small: the bytes are framed and delivered first, then the loss leaves no event. -/
theorem test_engWorkerStep_delivers :
    nextIs (exec .engWorkerStep { small .worker 4 4 with
        demodulating := true, codec := { codecA with synchronized := true },
        work := (hi.map (byteSymbols Config.testParams codecA)).flatten ++ waveI ++ waveI ++ zeros 3600 }) (fun t =>
      decide (t.pktq = [hi] ∧ t.pkt = [] ∧ t.pend = [] ∧ t.evt = [.byteProgress 9 9, .packetReceived] ∧
        t.work.length = 3600 ∧ t.codec = codecA)) = true := by decide +kernel
/-- P4, iteration 1: below 4096 samples it is idle. -/
theorem test_engWorkerStep_idle :
    nextIs (exec .engWorkerStep { small .worker 2 4 with demodulating := true, ring := fullRing }) (fun t =>
      decide (t.work = ck 2 ∧ t.ring.size = 3 ∧ t.evt = [])) = true := by decide +kernel
/-- V47's chunking in TC-A: 136 samples are padded to 192. -/
theorem test_engTransmit :
    nextIs (exec (.engTransmit [0xA5]) (small .caller 64 4)) (fun t =>
      decide (t.outq = [{ data := modulate Config.testParams codecA [0xA5] ++ zeros 56, cursor := 0 }] ∧
        t.rsp = some ⟨.ok, .flag true⟩)) = true := by decide +kernel
/-- V49. -/
theorem test_engSetConfig_volume :
    nextEq (exec (.engSetConfig { Config.testConfigA with chunk := 2, outVol := 5 })
        { small .caller 2 4 with streaming := true, demodulating := true, ring := fullRing })
      { small .caller 2 4 with
        streaming := true, demodulating := true, ring := fullRing,
        config := { Config.testConfigA with chunk := 2, outVol := 5 }, mix := some (0, 5), rsp := some ⟨.ok, .none⟩ } =
      true := by decide +kernel
/-- V50. -/
theorem test_engSetConfig_type :
    nextIs (exec (.engSetConfig { Config.testConfigA with chunk := 2, codecType := 1 })
        { small .caller 2 4 with streaming := true, demodulating := true, ring := fullRing,
                                 codec := { codecA with synchronized := true } }) (fun t =>
      decide (t.streaming = false ∧ t.demodulating = false ∧ t.ring.size = 0 ∧ t.codec = codecB ∧
        t.evt = [.configChanged] ∧ t.config = { Config.testConfigA with chunk := 2, codecType := 1 })) = true := by
  decide +kernel
/-- P7: get config. -/
theorem test_engGetConfig :
    nextIs (exec .engGetConfig State.reset) (fun t =>
      decide (t.rsp = some ⟨.ok, .config Config.testConfigA⟩)) = true := by decide +kernel

/-! ### Steps -/

/-- R263: a `RING.PUSH` from the WORKER is refused. -/
theorem test_step_wrong_agent :
    nextIs (step { small .caller 2 4 with cmd := [.op .worker 0 (encode (.ringPush (ck 1)))] }) (fun t =>
      decide (t = { small .worker 2 4 with rsp := some ⟨.refused, .none⟩ })) = true := by decide +kernel
/-- R83: a reserved opcode byte is refused. -/
theorem test_step_reserved :
    nextIs (step { small .caller 2 4 with cmd := [.op .caller 0 ⟨0x60, []⟩] }) (fun t =>
      decide (t = { small .caller 2 4 with rsp := some ⟨.refused, .none⟩ })) = true := by decide +kernel
/-- R280: reset in mid-stream. -/
theorem test_step_reset :
    nextIs (step { State.reset with
        cmd := [.reset], streaming := true, pktq := [hi], held := [(0, hi)], work := [1],
        evt := [.packetReceived] }) (fun t =>
      decide (t = { State.reset with evt := [.packetReceived] })) = true := by decide +kernel
/-- V53, the second access (R224): with nothing more pending, silence is put out, and the CALLBACK is answered. -/
theorem test_step_callback_silence :
    nextIs (step { small .caller 2 4 with streaming := true, playing := true }) (fun t =>
      decide (t.audOut = some [0, 0] ∧ t.rsp = some ⟨.ok, .samples [0, 0]⟩ ∧ t.issuer = .callback ∧
        t.playing = false)) = true := by decide +kernel
/-- R72, R224: another agent's operation, here a transmission, falls between the two accesses of a callback, and the
second access plays what it queued. -/
theorem test_step_transmit_inside_callback :
    nextIs (step { small .callback 16 4 with
        streaming := true, playing := true, cmd := [.op .caller 0 (encode (.engTransmit [])), .turn] }) (fun t =>
      t.playing && nextIs (step t) fun u => decide (u.audOut = some (waveI ++ waveI) ∧ u.outq = [] ∧ u.cmd = [])) =
      true := by decide +kernel
/-- R267, R221: a stop between the two accesses waits for the second; R228: what is queued after the stop waits too. -/
theorem test_step_stop_inside_callback :
    nextIs (step { small .callback 2 4 with
        streaming := true, playing := true, ring := fullRing, outq := [{ data := ck 1, cursor := 0 }],
        cmd := [.op .caller 0 (encode .engStopStream), .turn] }) (fun t =>
      decide (t.streaming = true ∧ t.playing = false ∧ t.audOut = some (ck 1) ∧ t.rsp = some ⟨.ok, .samples (ck 1)⟩) &&
        nextIs (step t) fun u =>
          decide (u.streaming = false ∧ u.ring.size = 0 ∧ u.outq = [] ∧ u.playing = false ∧ u.cmd = [.turn]) &&
            nextIs (step { u with outq := [{ data := ck 2, cursor := 0 }] }) fun v =>
              decide (v.outq = [{ data := ck 2, cursor := 0 }] ∧ v.audOut = some (ck 1) ∧ v.cmd = [])) = true := by
  decide +kernel
/-- Log entry 14: a change of the volumes alone stops no stream, and falls between the two accesses. -/
theorem test_step_volume_inside_callback :
    nextIs (step { small .callback 2 4 with
        streaming := true, playing := true,
        cmd := [.op .caller 0 (encode (.engSetConfig { Config.testConfigA with chunk := 2, outVol := 5 }))] }) (fun t =>
      decide (t.playing = true ∧ t.mix = some (0, 5) ∧ t.audOut = none)) = true := by decide +kernel
/-- The words of the opcode table that the state after reset serves with a status other than `REFUSED`: all but
`CODEC.DEMOD` (not synchronized), `CODEC.NEW` and `ENG.SET_CONFIG` (rates of zero), `PKTQ.PUSH` (no packet),
`ENG.CALLBACK` (not streaming) and `ENG.WORKER_STEP` (not demodulating). -/
theorem test_step_every_table_word :
    ((List.range 256).filter fun w => nextIs (step (State.reset.withFetchWord 8 w)) fun t =>
      decide (t.rsp ≠ some ⟨.refused, .none⟩)) =
      [0x00, 0x01, 0x02, 0x10, 0x11, 0x12, 0x20, 0x22, 0x23, 0x30, 0x31, 0x32, 0x33, 0x34, 0x35,
       0x41, 0x50, 0x51, 0x52, 0x53, 0x56, 0x58] := by decide +kernel

/-! ### Witnesses: concrete states and operands that meet the hypotheses of the statements -/

theorem test_witness_RingPushStoresAtTail :
    (small .callback 2 4).issuer = .callback ∧ (ck 1).length = (small .callback 2 4).chunkLen ∧
      ([1] : List Sample).length ≠ (small .callback 2 4).chunkLen := by decide +kernel
/-- An empty ring, and a full one, whose head is its tail. -/
theorem test_witness_RingPopReturnsOldest :
    (small .worker 2 4).issuer = .worker ∧ (small .worker 2 4).ring.size = 0 ∧
    ((0 : Nat) : Int) = (((small .worker 2 4).ring.tail : Int) - ((small .worker 2 4).ring.size : Int)) %
      ((small .worker 2 4).params.ringCap : Int) ∧
    fullRing.size ≠ 0 ∧ fullRing.size ≤ (small .worker 2 4).params.ringCap ∧ 1 ≤ (small .worker 2 4).params.ringCap ∧
    ((1 : Nat) : Int) = ((fullRing.tail : Int) - (fullRing.size : Int)) % ((small .worker 2 4).params.ringCap : Int) := by
  decide +kernel
/-- With no stream, no callback is in progress at reset; a transmission waits there. -/
theorem test_witness_StopStreamClearsBothBuffers :
    State.reset.issuer = .caller ∧ State.reset.streaming = false ∧ State.reset.playing = false ∧
    nextIs (step { State.reset with cmd := [.op .caller 0 (encode (.engTransmit []))] }) (fun t =>
      decide (t.outq.length = 1)) = true := by decide +kernel
theorem test_witness_issuer_caller : State.reset.issuer = .caller := by decide +kernel
/-- A full ring of four, and a ring of one. -/
theorem test_witness_RingKeepsTheNewestInOrder :
    fullRing.tail < 4 ∧ fullRing.size ≤ 4 ∧ Ring.fresh.tail < 1 ∧ Ring.fresh.size ≤ 1 := by decide
/-- A queue that holds its one entry, with a cursor of 3 bits. -/
def fullQueue : State :=
  { small .caller 4 4 with
    params := { Config.testParams with outqDepth := some 1, cursorW := 3 }, outq := [{ data := zeros 4, cursor := 0 }] }
/-- Accepted: six samples in two windows; refused: none, an entry of 8 for a cursor of 3 bits, a full queue. -/
theorem test_witness_OutqPushPadsAndAppends :
    (small .caller 4 4).issuer = .caller ∧ 1 ≤ (small .caller 4 4).chunkLen ∧
    (zeros 6).length ≤ 2 * (small .caller 4 4).chunkLen ∧
    2 * (small .caller 4 4).chunkLen < (zeros 6).length + (small .caller 4 4).chunkLen ∧ (zeros 6).length ≠ 0 ∧
    2 * (small .caller 4 4).chunkLen < 2 ^ (small .caller 4 4).params.cursorW ∧
    (small .caller 4 4).params.outqDepth ≠ some (small .caller 4 4).outq.length ∧
    ([] : List Sample).length ≤ 0 * (small .caller 4 4).chunkLen ∧
    0 * (small .caller 4 4).chunkLen < ([] : List Sample).length + (small .caller 4 4).chunkLen ∧
    fullQueue.issuer = .caller ∧ fullQueue.chunkLen = 4 ∧ 2 ^ fullQueue.params.cursorW ≤ 2 * fullQueue.chunkLen ∧
    fullQueue.params.outqDepth = some fullQueue.outq.length := by decide +kernel
/-- Another size; an empty queue; an entry of two windows before its last. -/
theorem test_witness_OutqPopDeliversTheHeadWindow :
    (small .callback 4 4).issuer = .callback ∧ ([9] : List Sample).length ≠ (small .callback 4 4).chunkLen ∧
    (zeros 4).length = (small .callback 4 4).chunkLen ∧ (small .callback 4 4).outq = [] ∧
    ({ small .callback 4 4 with outq := [{ data := zeros 8, cursor := 4 }] }).outq =
      { data := zeros 8, cursor := 4 } :: [] := by decide +kernel
theorem test_witness_OutqReplaysPushedSamples : 1 ≤ 4 ∧ 1 ≤ ([1, 2, 3, 4, 5] : List Sample).length := by decide
/-- The legal boundary `t = 1`, also with rates of more than 32 bits; illegal types; zero rates; rates that do not divide;
a running stream. -/
theorem test_witness_CodecNewBuildsAFreshInstance :
    State.reset.issuer = .caller ∧ State.reset.streaming = false ∧ State.reset.demodulating = false ∧
    (1 : Int) ≤ 1000 ∧ (1 : Int) ≤ 8000 ∧ (8000 : Int) % 1000 = 0 ∧ (2 ^ 40 : Int) % 2 ^ 32 = 0 ∧
    ((2 : Int) ≠ 0 ∧ (2 : Int) ≠ 1) ∧ ((-1 : Int) ≠ 0 ∧ (-1 : Int) ≠ 1) ∧ (44100 : Int) % 600 ≠ 0 ∧ (0 : Int) < 1 ∧
    ({ State.reset with streaming := true }).issuer = .caller := by decide +kernel
theorem test_witness_CodecTypeAnswersTheVariant :
    State.reset.issuer = .caller ∧ State.reset.codec.kind = .fsk ∧
    ({ State.reset with codec := codecB }).issuer = .caller ∧ ({ State.reset with codec := codecB }).codec.kind = .qpsk := by
  decide +kernel

/-- The constants of TC-A and TC-B are as R30 says. -/
theorem codecA_const_wf : CodecConstWf Config.testParams codecA := by
  refine ⟨?_, ?_, ?_, ?_, ?_⟩
  · decide +kernel
  · decide +kernel
  · decide +kernel
  · decide +kernel
  · show TableLegal _ _ _ ∧ TableLegal _ _ _ ∧ TableLegal _ _ _ ∧ TableLegal _ _ _
    decide +kernel
theorem codecB_const_wf : CodecConstWf Config.testParams codecB := by
  refine ⟨?_, ?_, ?_, ?_, ?_⟩
  · decide +kernel
  · decide +kernel
  · decide +kernel
  · decide +kernel
  · show TableLegal _ _ _ ∧ TableLegal _ _ _
    decide +kernel
/-- The test defaults of R10 are legal. -/
theorem testParams_legal : ParamsLegal Config.testParams := by
  refine ⟨by decide, by decide +kernel, ?_⟩
  decide +kernel
/-- Parameters with one loaded table: that of the low tone's cosine at the rates of TC-A, of zeros. -/
def loadedParams : Params :=
  { Config.testParams with rom := [{ name := .cosL, sampleRate := 8000, baud := 1000, entries := List.replicate 8 0 }] }
/-- The nominal tables of legal parameters, the last entry of one; and a loaded table. -/
theorem test_witness_CodecNewBuildsAFreshInstance_tables :
    ParamsLegal State.reset.params ∧ State.reset.params.rom = [] ∧ 7 < codecA.symLen ∧
    ((1000 : ℝ) = match State.reset.params.fLow with
      | .hz num den => (num : ℝ) / den
      | .ofBaud num den => (num : ℝ) * (1000 : Int).toNat / den) ∧
    loadedParams.rom.find? (fun e => decide (e.name = .cosL ∧ e.sampleRate = (8000 : Int).toNat ∧
      e.baud = (1000 : Int).toNat)) = some { name := .cosL, sampleRate := 8000, baud := 1000, entries := List.replicate 8 0 } := by
  refine ⟨testParams_legal, rfl, by decide +kernel, ?_, by decide +kernel⟩
  have h : (1000 : Int).toNat = 1000 := rfl
  rw [h]
  norm_num [State.reset, State.init, Config.testParams]
/-- R10: one frequency written twice, and a frequency of half the sample rate, are not legal. -/
theorem test_tones_illegal :
    ¬ TonesLegal { Config.testParams with fLow := .ofBaud 1 1, fHigh := .ofBaud 2 2 } 8000 1000 ∧
    ¬ TonesLegal { Config.testParams with fC := .hz 4000 1 } 8000 1000 := by decide +kernel
/-- R157: the tones of TC-A meet (a) to (c). -/
theorem codecA_suitable : Suitable Config.testParams codecA where
  apart _ := by decide +kernel
  decides bits h := by
    have hb : codecA.bps = 1 := by decide +kernel
    obtain ⟨b, rfl⟩ := List.length_eq_one_iff.1 (h.trans hb)
    cases b <;> decide +kernel
  loud bits h := by
    have hb : codecA.bps = 1 := by decide +kernel
    obtain ⟨b, rfl⟩ := List.length_eq_one_iff.1 (h.trans hb)
    cases b <;> decide +kernel
  aligned := by
    have h : ∀ d < 8, 1 ≤ d → disc codecA ((rep 3 (idleSymbol Config.testParams codecA)).drop d) <
        disc codecA (rep 3 (idleSymbol Config.testParams codecA)) := by decide +kernel
    have hl : codecA.symLen = 8 := by decide +kernel
    exact fun d h1 h2 => h d (hl ▸ h2) h1
/-- R177: the carrier of TC-B meets (a) to (c). -/
theorem codecB_suitable : Suitable Config.testParams codecB where
  apart h := by revert h; decide +kernel
  decides bits h := by
    have hb : codecB.bps = 2 := by decide +kernel
    obtain ⟨b, c, rfl⟩ := List.length_eq_two.1 (h.trans hb)
    cases b <;> cases c <;> decide +kernel
  loud bits h := by
    have hb : codecB.bps = 2 := by decide +kernel
    obtain ⟨b, c, rfl⟩ := List.length_eq_two.1 (h.trans hb)
    cases b <;> cases c <;> decide +kernel
  aligned := by
    have h : ∀ d < 16, 1 ≤ d → disc codecB ((rep 3 (idleSymbol Config.testParams codecB)).drop d) <
        disc codecB (rep 3 (idleSymbol Config.testParams codecB)) := by decide +kernel
    have hl : codecB.symLen = 16 := by decide +kernel
    exact fun d h1 h2 => h d (hl ▸ h2) h1

/-- `zeros(5)`, the frame of A5 and silence (V20). -/
def v20 : List Sample := zeros 5 ++ modulate Config.testParams codecA [0xA5] ++ zeros 200
/-- Twenty-one idle symbols: above the threshold, and never confirmed. -/
def idle21 : List Sample := rep 21 waveI

/-- The sums of R133 that the first clause of `SyncRunsTheThreePhases` speaks of. -/
def sums (c : Codec) (x : List Sample) (n : Nat) (t : List Int) : Int :=
  ((List.range n).map fun k => (x.getD k 0).toInt * t.getD (k % c.symLen) 0).sum
/-- Windows of TC-A and of TC-B of just two symbols. -/
theorem test_witness_SyncRunsTheThreePhases_sums :
    CodecConstWf Config.testParams codecA ∧ CodecConstWf Config.testParams codecB ∧
    codecA.kind = .fsk ∧ codecB.kind = .qpsk ∧ 2 * codecA.symLen = (waveI ++ waveS).length ∧
    2 * codecB.symLen = (zeros 32).length ∧ ∀ (c : Codec) (x : List Sample), ∃ S : Nat → List Int → Int,
      ∀ n T, S n T = ((List.range n).map fun k => (x.getD k 0).toInt * T.getD (k % c.symLen) 0).sum :=
  ⟨codecA_const_wf, codecB_const_wf, by decide +kernel, by decide +kernel, by decide +kernel, by decide +kernel,
    fun c x => ⟨sums c x, fun _ _ => rfl⟩⟩
/-- V30: the window is at the threshold, by the sums alone. -/
theorem test_threshold_sums :
    ((codecA.symLen * codecA.fullScale * Config.testParams.tabOne : Nat) : Int) ^ 2 =
      16 * max (sums codecA [32767, 0, 0, 0, -32767, 0, 0, 0] 8 codecA.tables.cosL ^ 2 +
          sums codecA [32767, 0, 0, 0, -32767, 0, 0, 0] 8 codecA.tables.sinL ^ 2)
        (sums codecA [32767, 0, 0, 0, -32767, 0, 0, 0] 8 codecA.tables.cosH ^ 2 +
          sums codecA [32767, 0, 0, 0, -32767, 0, 0, 0] 8 codecA.tables.sinH ^ 2) := by decide +kernel
/-- V20: `k = 1`, `d = 5`, `q = 5`, locked. -/
theorem test_witness_SyncRunsTheThreePhases_locks :
    1 ≤ codecA.symLen ∧ codecA.minWin = 20 * codecA.symLen ∧
    (∀ k' < 1, above Config.testParams codecA (v20.drop (k' * codecA.symLen)) = false) ∧
    1 * codecA.symLen + codecA.minWin < v20.length ∧
    above Config.testParams codecA (v20.drop (1 * codecA.symLen)) = true ∧ 5 < codecA.symLen ∧
    (∀ d' < codecA.symLen, disc codecA (v20.drop (1 * codecA.symLen + d')) ≤
      disc codecA (v20.drop (1 * codecA.symLen + 5))) ∧
    (∀ d' < 5, disc codecA (v20.drop (1 * codecA.symLen + d')) < disc codecA (v20.drop (1 * codecA.symLen + 5))) ∧
    (∀ q' < 5, confirm codecA (v20.drop (1 * codecA.symLen + 5 + q' * codecA.symLen)) = false) ∧
    1 * codecA.symLen + 5 + 5 * codecA.symLen + codecA.symLen ≤ v20.length ∧
    confirm codecA (v20.drop (1 * codecA.symLen + 5 + 5 * codecA.symLen)) = true := by decide +kernel
/-- V22 with 169 zeros: `k = 2`. -/
theorem test_witness_SyncRunsTheThreePhases_silence :
    (∀ k' < 2, above Config.testParams codecA ((zeros 169).drop (k' * codecA.symLen)) = false) ∧
    (zeros 169).length ≤ 2 * codecA.symLen + codecA.minWin ∧
    (∀ k' < 2, k' * codecA.symLen + codecA.minWin < (zeros 169).length) := by decide +kernel
/-- Idle symbols only: `k = 0`, `d = 0`, and the scan ends at `q = 21` with nothing left. -/
theorem test_witness_SyncRunsTheThreePhases_unconfirmed :
    0 * codecA.symLen + codecA.minWin < idle21.length ∧
    above Config.testParams codecA (idle21.drop (0 * codecA.symLen)) = true ∧
    (∀ d' < codecA.symLen, disc codecA (idle21.drop (0 * codecA.symLen + d')) ≤
      disc codecA (idle21.drop (0 * codecA.symLen + 0))) ∧
    (∀ q' < 21, confirm codecA (idle21.drop (0 * codecA.symLen + 0 + q' * codecA.symLen)) = false) ∧
    0 * codecA.symLen + 0 + 21 * codecA.symLen ≤ idle21.length ∧
    idle21.length < 0 * codecA.symLen + 0 + 21 * codecA.symLen + codecA.symLen := by decide +kernel
theorem test_witness_CodecSyncSetsTheFlagOnLock :
    (small .worker 4 4).issuer = .worker ∧ (small .worker 4 4).codec.synchronized = false ∧
      ({ codecA with synchronized := true }).synchronized = true := by decide +kernel
theorem test_witness_SilenceNeverLocks : CodecConstWf Config.testParams codecA := codecA_const_wf
theorem test_witness_BitAccumulatorShiftsFromTheRight : codecA.bitCnt = 0 := by decide +kernel
/-- A window of just one symbol in TC-A and in TC-B. -/
theorem test_witness_DemodRunsSymbolBySymbol_sums :
    CodecConstWf Config.testParams codecA ∧ CodecConstWf Config.testParams codecB ∧
    codecA.kind = .fsk ∧ codecB.kind = .qpsk ∧ codecA.symLen = waveS.length ∧ codecB.symLen = (zeros 16).length ∧
    ∀ (c : Codec) (x : List Sample), ∃ S : List Int → Int,
      ∀ T, S T = ((List.range c.symLen).map fun k => (x.getD k 0).toInt * T.getD k 0).sum :=
  ⟨codecA_const_wf, codecB_const_wf, by decide +kernel, by decide +kernel, by decide +kernel, by decide +kernel,
    fun c x => ⟨fun T => ((List.range c.symLen).map fun k => (x.getD k 0).toInt * T.getD k 0).sum, fun _ => rfl⟩⟩
/-- The guard; a window of silence; a bit of a byte; the last bit of a byte; the last bit of the 128th byte. -/
theorem test_witness_DemodRunsSymbolBySymbol :
    (zeros 159).length < codecA.minWin ∧ codecA.minWin ≤ (zeros 160).length ∧
    below Config.testParams codecA (zeros 160) = true ∧
    codecA.minWin ≤ (waveS ++ zeros 152).length ∧ below Config.testParams codecA (waveS ++ zeros 152) = false ∧
    ((decideBits codecA (waveS ++ zeros 152)).foldl accumulate codecA).bitCnt ≠ 8 ∧
    ((decideBits codecA (waveS ++ zeros 152)).foldl accumulate { codecA with bitCnt := 7 }).bitCnt = 8 ∧
    ((decideBits codecA (waveS ++ zeros 152)).foldl accumulate { codecA with bitCnt := 7 }).byteCnt + 1 ≠ 128 ∧
    ((decideBits codecA (waveS ++ zeros 152)).foldl accumulate
      { codecA with bitCnt := 7, byteCnt := 127 }).byteCnt + 1 = 128 := by decide +kernel
/-- A refused instance; a synchronized one that loses the signal. -/
theorem test_witness_CodecDemodAppendsAndClearsOnLoss :
    (small .worker 4 4).issuer = .worker ∧ (small .worker 4 4).codec.synchronized = false ∧
    ({ codecA with synchronized := true }).synchronized = true ∧
    (demodSamples Config.testParams { codecA with synchronized := true } (zeros 160) []).lost = true := by
  decide +kernel
theorem test_witness_CodecModEmitsTheFrame :
    1 ≤ (List.replicate 128 (0 : Byte)).length ∧ (List.replicate 128 (0 : Byte)).length ≤ 128 ∧
      (List.replicate 128 (0 : Byte)).length = 128 := by decide +kernel
theorem test_witness_BytesGoOutMostSignificantBitFirst : codecA.bps = 1 ∧ codecB.bps = 2 := by decide +kernel
/-- The fullest sample of TC-B, where both tables hold 23170. -/
theorem test_witness_WaveSamplesAreTruncatedAndFit :
    codecA.tables.cosH[0]? = some 32767 ∧ codecB.tables.cosC[2]? = some 23170 ∧ codecB.tables.sinC[2]? = some 23170 ∧
    40000 * (Config.testParams.qpskKNum : Int) * |(if false then -1 else 1) * 23170 + (if false then -1 else 1) * 23170| ≤
      40001 * Config.testParams.qpskKDen * Config.testParams.tabOne := by decide +kernel
/-- 127 bytes counted in all, followed by 152 samples. -/
theorem test_witness_DataSymbolsDemodulateToTheirBytes :
    codecA.bitCnt = 0 ∧ 126 + ([0xA5] : List Byte).length < 128 ∧
    codecA.minWin ≤ (zeros 152).length + codecA.symLen ∧ (zeros 152).length < codecA.minWin := by decide +kernel
theorem test_witness_ModulatedBytesAreReceived :
    codecB.synchronized = false ∧ codecB.bitCnt = 0 ∧ codecB.byteCnt = 0 ∧ 1 ≤ ([0xA5] : List Byte).length ∧
      codecB.minWin ≤ 320 := by decide +kernel
/-- Five bytes are too few, six are a header; a packet in progress. -/
theorem test_witness_PktPushTakesTheMissingBytes :
    (small .worker 4 4).issuer = .worker ∧ (small .worker 4 4).pkt = [] ∧ (hi.take 5).length < 6 ∧
    6 ≤ (hi.take 6).length ∧ ({ small .worker 4 4 with pkt := hi.take 8 }).pkt ≠ [] := by decide +kernel
theorem test_witness_MalformedLengthTakesNothing :
    (small .worker 4 4).issuer = .worker ∧
    ([1, 1, 5, 0, 0, 0], [7]) = pktPushed (small .worker 4 4).pkt [1, 1, 5, 0, 0, 0, 7] ∧
    6 ≤ ([1, 1, 5, 0, 0, 0] : List Byte).length ∧
    ({ small .worker 4 4 with pkt := [1, 1, 5, 0, 0, 0] }).pkt.length = 6 ∧
    (({ small .worker 4 4 with pkt := [1, 1, 5, 0, 0, 0] }).pkt.getD 2 0).toNat +
      256 * (({ small .worker 4 4 with pkt := [1, 1, 5, 0, 0, 0] }).pkt.getD 3 0).toNat < 6 := by decide +kernel
theorem test_witness_PktBuildMakesAFinishedValidPacket :
    65529 < (List.replicate 65530 (0 : Byte)).length ∧ (List.replicate 65529 (0 : Byte)).length ≤ 65529 := by
  simp only [List.length_replicate]; decide
theorem test_witness_ConsumerReadsThePacketItGot :
    (small .consumer 4 4).issuer = .consumer ∧ ({ small .consumer 4 4 with pktq := [hi] }).pktq = hi :: [] ∧
    ({ small .consumer 4 4 with who := 3, held := [(1, bare), (3, hi)] }).held.find 3 = some hi ∧
    ({ small .consumer 4 4 with who := 0, held := [(1, bare), (3, hi)] }).held.find 0 = none := by
  decide +kernel
/-- V14's packet: the words 0x0101, 9, 0, 0x6968 and the odd byte 0x21 sum to 0x6A93; and the empty packet, whose sum
is 0. -/
theorem test_witness_PktChecksumIsTheOnesComplementSum :
    ({ small .worker 4 4 with pkt := hi }).issuer = .worker ∧ ({ small .worker 4 4 with pkt := hi }).pkt = hi ∧
    ((hi.set 4 0).set 5 0) = (if 6 ≤ hi.length then (hi.set 4 0).set 5 0 else hi) ∧
    0x6A93 = ((List.range (hi.length / 2)).map fun w =>
      (((hi.set 4 0).set 5 0).getD (2 * w) 0).toNat + 256 * (((hi.set 4 0).set 5 0).getD (2 * w + 1) 0).toNat).sum +
      (if hi.length % 2 = 1 then (((hi.set 4 0).set 5 0).getD (hi.length - 1) 0).toNat else 0) ∧
    0 < 0x6A93 ∧ (small .worker 4 4).pkt = [] ∧
    0 = ((List.range (([] : List Byte).length / 2)).map fun w =>
      (([] : List Byte).getD (2 * w) 0).toNat + 256 * (([] : List Byte).getD (2 * w + 1) 0).toNat).sum +
      (if ([] : List Byte).length % 2 = 1 then (([] : List Byte).getD (([] : List Byte).length - 1) 0).toNat else 0) := by
  decide +kernel
theorem test_witness_ChecksumIgnoresItsOwnField :
    6 ≤ hi.length ∧ 6 ≤ (hi.getD 2 0).toNat + 256 * (hi.getD 3 0).toNat := by decide
theorem test_witness_ChecksumDetectsEverySingleByteChange : 8 < hi.length ∧ hi.getD 8 0 ≠ 0x20 := by decide
/-- Eight bytes, all nine, and a surplus. -/
theorem test_witness_FragmentsFinishThePacketOnce :
    finished hi = true ∧ [hi.take 4, (hi.take 8).drop 4].flatten = hi.take 8 ∧
    [hi.take 4, hi.drop 4].flatten = hi.take 9 ∧ [hi, [7, 1]].flatten = hi ++ [7, 1] := by decide
/-- A packet of its header alone, and one byte less; a queue without a limit, and a full one of a single packet. -/
theorem test_witness_PktqPushAppends :
    (small .worker 4 4).issuer = .worker ∧
    (6 ≤ bare.length ∧ bare.length = (bare.getD 2 0).toNat + 256 * (bare.getD 3 0).toNat) ∧
    (bare.take 5).length < 6 ∧
    (hi.take 8).length ≠ ((hi.take 8).getD 2 0).toNat + 256 * ((hi.take 8).getD 3 0).toNat ∧
    (∀ d, (small .worker 4 4).params.pktqDepth = some d → (small .worker 4 4).pktq.length < d) ∧
    ({ small .worker 4 4 with params := { Config.testParams with pktqDepth := some 1 }, pktq := [hi] }).issuer = .worker ∧
    ({ small .worker 4 4 with
       params := { Config.testParams with pktqDepth := some 1 }, pktq := [hi] }).params.pktqDepth = some 1 ∧
    1 ≤ ({ small .worker 4 4 with
           params := { Config.testParams with pktqDepth := some 1 }, pktq := [hi] }).pktq.length := by
  refine ⟨by decide +kernel, by decide, by decide, by decide, fun d h => ?_, by decide +kernel⟩
  have h0 : (small .worker 4 4).params.pktqDepth = none := by decide +kernel
  rw [h0] at h; cases h
/-- Not streaming; another size; inside a callback; a push. Then the second access: with nothing pending and an empty
queue; at its turn, with the last window of an entry. Then a step inside a callback, before a stop of the stream. -/
theorem test_witness_CallbackPushesThenPlays :
    (small .callback 2 4).issuer = .callback ∧ (small .callback 2 4).streaming = false ∧
    ([1] : List Sample).length ≠ (small .callback 2 4).chunkLen ∧
    ({ small .callback 2 4 with playing := true }).playing = true ∧
    ({ small .callback 2 4 with streaming := true }).issuer = .callback ∧
    ({ small .callback 2 4 with streaming := true }).streaming = true ∧
    ({ small .callback 2 4 with streaming := true }).playing = false ∧
    (ck 1).length = ({ small .callback 2 4 with streaming := true }).chunkLen ∧
    ({ small .caller 2 4 with streaming := true, playing := true }).cmd = [] ∧
    ({ small .caller 2 4 with streaming := true, playing := true }).outq = [] ∧
    ({ small .caller 2 4 with
       playing := true, cmd := [.turn, .reset], outq := [{ data := zeros 4, cursor := 2 }] }).cmd = .turn :: [.reset] ∧
    ({ small .caller 2 4 with
       playing := true, cmd := [.turn, .reset], outq := [{ data := zeros 4, cursor := 2 }] }).outq =
      { data := zeros 4, cursor := 2 } :: [] ∧
    nextIs (step { small .caller 2 4 with
        streaming := true, playing := true, cmd := [.op .caller 0 (encode .engStopStream)] })
      (fun t => !t.playing && t.streaming) = true := by decide +kernel
/-- A worker that holds `x`, with an empty ring and an unsynchronized codec. -/
def workerWith (x : List Sample) : State := { small .worker 4 4 with demodulating := true, work := x }
/-- The pop of its empty ring adds nothing. -/
theorem workerWith_pop (x : List Sample) : x = (workerWith x).work ++
    (ringOldest (workerWith x).params.ringCap (workerWith x).chunkLen (workerWith x).ring).getD [] :=
  (List.append_nil x).symm
/-- 4095 and 4096 samples with an empty ring; a worker that does not demodulate. -/
theorem test_witness_WorkerIdlesOrSynchronizes :
    (workerWith (zeros 4095)).issuer = .worker ∧ (workerWith (zeros 4095)).demodulating = true ∧
    zeros 4095 = (workerWith (zeros 4095)).work ++ (ringOldest (workerWith (zeros 4095)).params.ringCap
      (workerWith (zeros 4095)).chunkLen (workerWith (zeros 4095)).ring).getD [] ∧
    withinCap (workerWith (zeros 4095)).params.workCap (zeros 4095).length = true ∧ (zeros 4095).length < 4096 ∧
    zeros 4096 = (workerWith (zeros 4096)).work ++ (ringOldest (workerWith (zeros 4096)).params.ringCap
      (workerWith (zeros 4096)).chunkLen (workerWith (zeros 4096)).ring).getD [] ∧
    4096 ≤ (zeros 4096).length ∧ (workerWith (zeros 4096)).codec.synchronized = false ∧
    (small .worker 4 4).demodulating = false :=
  ⟨rfl, rfl, workerWith_pop _, rfl, by decide +kernel, workerWith_pop _, by decide +kernel, rfl, rfl⟩
/-- The samples of P4's iteration 10, in small. -/
def frameWork : List Sample :=
  (hi.map (byteSymbols Config.testParams codecA)).flatten ++ waveI ++ waveI ++ zeros 3600
/-- The worker that holds them, synchronized. -/
def frameState : State := { workerWith frameWork with codec := { codecA with synchronized := true } }
/-- What demodulating them answers. -/
def frameResult : DemodResult := demodSamples frameState.params frameState.codec frameWork frameState.pend
theorem test_witness_WorkerFramesDeliversThenDrops :
    frameState.issuer = .worker ∧ frameState.demodulating = true ∧
    frameWork = frameState.work ++
      (ringOldest frameState.params.ringCap frameState.chunkLen frameState.ring).getD [] ∧
    withinCap frameState.params.workCap frameWork.length = true ∧ 4096 ≤ frameWork.length ∧
    frameState.codec.synchronized = true ∧
    frameResult = demodSamples frameState.params frameState.codec frameWork frameState.pend ∧
    withinCap frameState.params.pendCap frameResult.out.length = true ∧
    (hi, []) = pktPushed frameState.pkt frameResult.out ∧
    withinCap frameState.params.pktqDepth
      (if finished hi then frameState.pktq.length + 1 else frameState.pktq.length) = true ∧
    frameResult.lost = true := by
  refine ⟨rfl, rfl, workerWith_pop frameWork, rfl, ?_, rfl, rfl, ?_⟩ <;> decide +kernel
/-- A worker that receives a header declaring five bytes, and then silence. -/
def shortWork : List Sample :=
  (([1, 1, 5, 0, 0, 0] : List Byte).map (byteSymbols Config.testParams codecA)).flatten ++ zeros 3712
/-- That worker, synchronized. -/
def shortState : State := { workerWith shortWork with codec := { codecA with synchronized := true } }
/-- The iteration takes the header and drops it again for the loss; the trace keeps the report (R193, U6). -/
theorem test_witness_MalformedLengthTakesNothing_worker :
    shortState.issuer = .worker ∧ shortState.demodulating = true ∧
    shortWork = shortState.work ++
      (ringOldest shortState.params.ringCap shortState.chunkLen shortState.ring).getD [] ∧
    4096 ≤ shortWork.length ∧ shortState.codec.synchronized = true ∧
    ([1, 1, 5, 0, 0, 0], []) =
      pktPushed shortState.pkt (demodSamples shortState.params shortState.codec shortWork shortState.pend).out ∧
    nextIs (exec .engWorkerStep shortState) (fun t => decide (t.pkt = []) && t.tookMalformed) = true := by
  refine ⟨rfl, rfl, workerWith_pop shortWork, ?_, rfl, ?_, ?_⟩ <;> decide +kernel
/-- The same worker with finite capacities: 4095 samples; 8 pending bytes; a full delivery queue of one. -/
def frameStateCap : State :=
  { frameState with
    params := { frameState.params with workCap := some 4095, pendCap := some 8, pktqDepth := some 1 }, pktq := [hi] }
/-- What demodulating answers there. -/
def frameResultCap : DemodResult :=
  demodSamples frameStateCap.params frameStateCap.codec frameWork frameStateCap.pend
theorem test_witness_WorkerOverCapacityIsRefused :
    frameStateCap.issuer = .worker ∧ frameStateCap.demodulating = true ∧
    frameWork = frameStateCap.work ++
      (ringOldest frameStateCap.params.ringCap frameStateCap.chunkLen frameStateCap.ring).getD [] ∧
    frameResultCap = demodSamples frameStateCap.params frameStateCap.codec frameWork frameStateCap.pend ∧
    withinCap frameStateCap.params.workCap frameWork.length = false ∧ 4096 ≤ frameWork.length ∧
    frameStateCap.codec.synchronized = true ∧
    withinCap frameStateCap.params.pendCap frameResultCap.out.length = false ∧
    finished (pktPushed frameStateCap.pkt frameResultCap.out).1 = true ∧
    withinCap frameStateCap.params.pktqDepth (frameStateCap.pktq.length + 1) = false := by
  refine ⟨rfl, rfl, workerWith_pop frameWork, rfl, ?_, ?_, rfl, ?_, ?_, rfl⟩ <;> decide +kernel
/-- 65536 bytes; the trailer alone, 16 samples, in four windows of 4, with a cursor of 32 bits, or of 3 and a full
queue; and an instance without a symbol, which modulates to nothing. -/
theorem test_witness_TransmitModulatesAndEnqueues :
    65535 < (List.replicate 65536 (0 : Byte)).length ∧ (small .caller 4 4).issuer = .caller ∧
    1 ≤ (small .caller 4 4).chunkLen ∧
    (modulate (small .caller 4 4).params (small .caller 4 4).codec []).length = 16 ∧
    (16 ≤ 4 * (small .caller 4 4).chunkLen ∧ 4 * (small .caller 4 4).chunkLen < 16 + (small .caller 4 4).chunkLen) ∧
    4 * (small .caller 4 4).chunkLen < 2 ^ (small .caller 4 4).params.cursorW ∧
    (small .caller 4 4).params.outqDepth ≠ some (small .caller 4 4).outq.length ∧
    fullQueue.issuer = .caller ∧ fullQueue.chunkLen = 4 ∧
    (modulate fullQueue.params fullQueue.codec []).length = 16 ∧ 2 ^ fullQueue.params.cursorW ≤ 4 * fullQueue.chunkLen ∧
    fullQueue.params.outqDepth = some fullQueue.outq.length ∧
    (modulate fullQueue.params { codecB with tables := { codecB.tables with cosC := [] } } []).length = 0 := by
  refine ⟨?_, by decide +kernel⟩
  rw [List.length_replicate]; decide
/-- An illegal configuration; only the volumes differ; the type differs. -/
theorem test_witness_SetConfigReconfigures :
    ({ Config.testConfigA with baud := 0 }).legal = false ∧ ({ Config.testConfigA with outVol := 5 }).legal = true ∧
    { Config.testConfigA with outVol := 5 } =
      { State.reset.config with inVol := Config.testConfigA.inVol, outVol := 5 } ∧
    ({ Config.testConfigA with codecType := 1 }).legal = true ∧
    { Config.testConfigA with codecType := 1 } ≠
      { State.reset.config with inVol := Config.testConfigA.inVol, outVol := Config.testConfigA.outVol } := by
  decide +kernel
theorem test_witness_FailuresChangeNothing :
    exec .engStopStream State.reset = .next { State.reset with rsp := some ⟨.state, .flag false⟩ } ∧
      Status.state ≠ .ok := ⟨rfl, by decide⟩
theorem test_witness_OnlyTheListedAgentsAreServed : State.reset.issuer ≠ .worker ∧ State.reset.issuer ≠ .consumer := by
  decide +kernel
/-- Outside a callback; inside one, from another agent: a reserved byte, and a listed byte without its operand. -/
theorem test_witness_UndecodableRequestsAreRefused :
    ({ State.reset with cmd := [.op .callback 0 ⟨0x60, []⟩] }).playing = false ∧
    Agent.worker ≠ .callback ∧
    (∀ i : Instr, encode i ≠ ⟨0x60, []⟩) ∧ ∀ i : Instr, encode i ≠ ⟨0x00, []⟩ := by
  refine ⟨by decide +kernel, by decide, ?_, ?_⟩ <;> intro i <;> cases i <;> simp [encode, Instr.opcode, Instr.values]
theorem test_witness_StepServesTheOldestRequest :
    decode (encode .ringPop) = .instr .ringPop ∧ State.reset.cmd = [] ∧ State.reset.playing = false ∧
    ({ State.reset with playing := true }).playing = true ∧ Agent.worker ≠ .callback ∧
    decode (encode (.engCallback (ck 1))) = .instr (.engCallback (ck 1)) ∧
    decode (encode .engStopStream) = .instr .engStopStream := by decide +kernel
/-- Inside a callback with nothing pending. -/
theorem test_witness_EveryOperationAnswers :
    ({ State.reset with playing := true }).playing = true ∧ ({ State.reset with playing := true }).cmd = [] := by
  decide +kernel

/-- A state in the middle of its work: a full ring, an entry half read, a byte half received, a packet one byte short
of its end, a packet delivered and one with a consumer, a callback between its accesses, and two requests. -/
def busy : State :=
  { small .caller 2 4 with
    ring := fullRing, outq := [{ data := [1, 2, 3, 0], cursor := 2 }], work := [1, 2, 3], pkt := hi.take 8,
    codec := { codecA with synchronized := true, bitVal := 0b101, bitCnt := 3, byteCnt := 127 },
    streaming := true, demodulating := true, playing := true, pktq := [hi], held := [(2, bare)],
    cmd := [.op .callback 0 (encode (.engCallback (ck 9))), .reset] }
theorem test_witness_EveryStepKeepsTheInvariant : Inv busy ∧ ∃ t, step busy = .next t := by
  refine ⟨⟨?_, by decide +kernel, by decide +kernel, by decide +kernel, ?_, by decide +kernel, by decide +kernel,
    by decide +kernel, by decide +kernel, by decide +kernel, by decide +kernel, by decide +kernel, by decide +kernel⟩,
    _, rfl⟩
  · exact ⟨by decide +kernel, testParams_legal.2⟩
  · exact codecA_const_wf
theorem test_witness_ResetHasTheInvariant : ParamsLegal Config.testParams := testParams_legal
/-- Both switches move, up and down. -/
theorem test_witness_SwitchesMoveOnlyByTheirOperations :
    nextIs (exec (.engStartStream true true) State.reset) (fun t => t.streaming) = true ∧
    nextIs (exec .engStopStream { busy with issuer := .caller }) (fun t => !t.streaming) = true ∧
    nextIs (exec .engStopDemod busy) (fun t => !t.demodulating) = true ∧
    nextIs (step { busy with playing := false, cmd := [.op .caller 0 (encode .engStopStream)] })
      (fun t => !t.streaming && !t.playing) = true := by decide +kernel
theorem test_witness_ConstantsChangeOnlyByConstruction :
    nextIs (exec (.codecNew 1 8000 1000) State.reset) (fun t => decide (t.codec = codecB)) = true := by decide +kernel
/-- The flag goes up at a lock and down at a construction. -/
theorem test_witness_SynchronizedMovesOnlyByTheCodec :
    nextIs (exec (.codecSync v20) (small .worker 4 4)) (fun t => t.codec.synchronized) = true ∧
    nextIs (exec (.codecNew 0 8000 1000) { State.reset with codec := { codecA with synchronized := true } })
      (fun t => !t.codec.synchronized) = true := by decide +kernel
theorem test_witness_EventsAreOnlyAppended :
    nextIs (step busy) (fun t => decide (t.evt = busy.evt)) = true := by decide +kernel
theorem test_witness_DeliveredPacketsSurvive :
    nextIs (step { busy with pktq := [hi], playing := false, cmd := [.op .consumer 0 (encode .pktqPop)] }) (fun t =>
      decide (t.pktq = [])) = true := by decide +kernel
theorem test_witness_HiddenStateIsNotObservable :
    State.reset.issuer ≠ .worker ∧ SameConst busy.codec State.reset.codec := by decide +kernel

end Machine
end Sys2Proof
end

section
/-!
PROOFS. The state after reset (spec/10_state.md R49).
-/

namespace Sys2Proof
namespace Machine

theorem kindOfCode_eq_ite (t : Nat) : kindOfCode t = if t = 0 then .fsk else .qpsk := by
  cases t with
  | zero => rfl
  | succ n => simp [kindOfCode]

/-- The instance of a configuration, with the variant that the type code names (R40, R136) written out. -/
theorem codecOfConfig_eq_buildCodec (P : Params) (c : ModemConfig) :
    codecOfConfig P c =
      buildCodec P (if c.codecType = 0 then .fsk else .qpsk) c.sampleRate.toNat c.baud.toNat := by
  rw [codecOfConfig, kindOfCode_eq_ite]

/-- R131: the registers of a fresh instance. -/
theorem buildCodec_registers (P : Params) (k : CodecType) (sr bd : Nat) :
    (buildCodec P k sr bd).synchronized = false ∧ (buildCodec P k sr bd).bitVal = 0 ∧
      (buildCodec P k sr bd).bitCnt = 0 ∧ (buildCodec P k sr bd).byteCnt = 0 :=
  ⟨rfl, rfl, rfl, rfl⟩

theorem SameConst.refl (c : Codec) : SameConst c c := ⟨rfl, rfl, rfl, rfl, rfl, rfl⟩

/-- D31: the codec after reset is the fresh instance of `CONFIG0`. -/
theorem State.init_codec (P : Params) :
    (State.init P).codec =
      buildCodec P (if P.config0.codecType = 0 then .fsk else .qpsk) P.config0.sampleRate.toNat
        P.config0.baud.toNat :=
  codecOfConfig_eq_buildCodec P P.config0

/-- Settles O54: the codec is the fresh instance of `CONFIG0`; every other row of the table is a field of
`State.init`. -/
theorem resetValues : Obligations.ResetValues := by
  intro P
  obtain ⟨hsync, hval, hcnt, hbyte⟩ := buildCodec_registers P (if P.config0.codecType = 0 then .fsk else .qpsk)
    P.config0.sampleRate.toNat P.config0.baud.toNat
  rw [State.init_codec]
  exact ⟨rfl, rfl, rfl, SameConst.refl _, hsync, hval, hcnt, hbyte, rfl, rfl, rfl, rfl, rfl, rfl, rfl⟩

end Machine
end Sys2Proof
end

section
/-!
PROOFS. The audio callback (spec/45_engine.md R224, R267): the push, the pop of its own step, and that nothing cancels a
callback between them.
-/

namespace Sys2Proof
namespace Machine

variable {s t : State}

/-! ### The first access -/

/-- `ENG.CALLBACK` is refused when not streaming, for a chunk of another length, and inside a callback (R224, R261). -/
theorem exec_engCallback_refused {c : List Sample}
    (h : s.streaming = false ∨ c.length ≠ s.chunkLen ∨ s.playing = true) :
    exec (.engCallback c) s = refuse s := by
  rw [exec, execEngCallback, withRight]
  rcases h with hs | hc | hp
  · simp [hs]
  · simp [hc]
  · simp [hp]

/-- Otherwise the captured chunk is pushed, and a callback is in progress (R224). -/
theorem exec_engCallback_pushes {c : List Sample} (hi : s.issuer = .callback) (hs : s.streaming = true)
    (hc : c.length = s.chunkLen) (hp : s.playing = false) :
    exec (.engCallback c) s = .next (s.callbackPush c) := by
  simp [exec, execEngCallback, withRight, holders, hi, hs, hc, hp]

/-! ### The second access -/

theorem step_of_callbackDue (h : s.callbackDue = true) : step s = .next s.finishCallback := if_pos h

theorem callbackDue_of_idle (hp : s.playing = true) (hc : s.cmd = []) : s.callbackDue = true := by
  simp [State.callbackDue, hp, hc]

theorem callbackDue_of_turn {rest : List Request} (hp : s.playing = true) (hc : s.cmd = .turn :: rest) :
    s.callbackDue = true := by
  simp [State.callbackDue, State.waits, hp, hc]

theorem callbackDue_of_reset {rest : List Request} (hp : s.playing = true) (hc : s.cmd = .reset :: rest) :
    s.callbackDue = true := by
  simp [State.callbackDue, State.waits, hp, hc]

/-- With nothing pending, or at its turn, a callback in progress ends, and only its turn leaves the schedule. -/
theorem step_finishes_callback {rest : List Request} (hp : s.playing = true)
    (hc : s.cmd = [] ∧ rest = [] ∨ s.cmd = .turn :: rest) :
    step s = .next { s.callbackPop with cmd := rest } := by
  rcases hc with ⟨hc, rfl⟩ | hc
  · rw [step_of_callbackDue (callbackDue_of_idle hp hc), State.finishCallback, hc, afterTurn]
  · rw [step_of_callbackDue (callbackDue_of_turn hp hc), State.finishCallback, hc, afterTurn]

/-- The pop of an empty queue: silence (R224). -/
theorem callbackPop_of_empty (hq : s.outq = []) :
    s.callbackPop =
      { s with issuer := .callback, playing := false, audOut := some (zeros s.chunkLen),
               rsp := some ⟨.ok, .samples (zeros s.chunkLen)⟩ } := by
  rw [State.callbackPop, State.callbackBlock, hq, outqWindow, outqPopped, ← hq]

/-- The pop of a head entry: its next window (R224, R115). -/
theorem callbackPop_of_entry {e : OutEntry} {r : List OutEntry} (hq : s.outq = e :: r) :
    s.callbackPop =
      { s with issuer := .callback, playing := false,
               outq := if e.cursor + s.chunkLen = e.data.length then r
                       else { data := e.data, cursor := e.cursor + s.chunkLen } :: r,
               audOut := some ((e.data.drop e.cursor).take s.chunkLen),
               rsp := some ⟨.ok, .samples ((e.data.drop e.cursor).take s.chunkLen)⟩ } := by
  rw [State.callbackPop, State.callbackBlock, hq, outqWindow, outqPopped]

/-! ### Between the accesses -/

theorem workerStep_playing (h : s.workerStep = some t) : t.playing = s.playing := by
  obtain ⟨-, ⟨rfl, -⟩ | ⟨rfl, -⟩ | ⟨r, -, rfl, -⟩⟩ := workerStep_cases h
  · rfl
  · rfl
  · obtain ⟨-, -, -, -, -, -, -, -, -, hp, -⟩ := workerDemod_frame s.workerPop r
    exact hp

theorem reconfigure_playing (s : State) (n : ModemConfig) : (s.reconfigure n).playing = s.playing := by
  simp only [State.reconfigure, State.stopStreamIfOn, State.emit]
  split_ifs <;> rfl

/-- No operation's effect ends a callback in progress. -/
theorem effect_keeps_playing (i : Instr) (hp : s.playing = true) : (effect i s).playing = true := by
  cases i
  case engCallback => rfl
  case engWorkerStep =>
    rw [effect]
    cases hw : s.workerStep with
    | none => exact hp
    | some u => exact (workerStep_playing hw).trans hp
  case engSetConfig n =>
    rw [effect]
    split
    · exact hp
    · exact (reconfigure_playing _ n).trans hp
  all_goals exact hp

theorem exec_keeps_playing {i : Instr} (h : exec i s = .next t) (hp : s.playing = true) : t.playing = true := by
  obtain ⟨st, r, -, rfl⟩ | ⟨-, -, ⟨r, rfl⟩ | ⟨c, -, rfl⟩⟩ := exec_cases h
  · exact hp
  · exact effect_keeps_playing i hp
  · exact effect_keeps_playing i hp

/-- R267: a callback in progress outlasts every step that is not its second access. -/
theorem step_keeps_playing (h : step s = .next t) (hp : s.playing = true) (hd : s.callbackDue = false) :
    t.playing = true := by
  obtain ⟨hd', -⟩ | ⟨-, hcase⟩ := step_cases h
  · rw [hd] at hd'; cases hd'
  · obtain ⟨-, rfl⟩ | ⟨_, hc, -⟩ | ⟨_, -, rfl⟩ | ⟨_, _, _, _, _, -, -, he⟩ | ⟨_, _, _, _, -, -, rfl⟩ := hcase
    · exact hp
    · rw [callbackDue_of_reset hp hc] at hd; cases hd
    · exact hp
    · exact exec_keeps_playing he hp
    · exact hp

/-- Settles O38: the push by the cases of R224, the pop by the queue's head; a callback in progress lasts until the step
that is due to end it, and that step is the one with nothing pending, but for what the schedule holds. -/
theorem callbackPushesThenPlays : Obligations.CallbackPushesThenPlays := by
  refine ⟨fun s c hi => ⟨rfl, exec_engCallback_refused, fun hs hc hp => ?_⟩,
    fun s rest _ hp hc => ⟨fun hq => ?_, fun e r hq => ?_⟩, fun s t hp h => ?_⟩
  · exact ⟨s.ring.slots.write s.ring.tail c, exec_engCallback_pushes hi hs hc hp, Cells.find_write_self _ _ _,
      fun k hk => Cells.find_write_other _ c hk⟩
  · rw [step_finishes_callback hp hc, callbackPop_of_empty hq]
  · rw [step_finishes_callback hp hc, callbackPop_of_entry hq]
  · cases hd : s.callbackDue
    · exact .inl (step_keeps_playing h hp hd)
    · obtain rfl : s.finishCallback = t := by simpa [step_of_callbackDue hd] using h
      exact .inr ⟨rfl, step_finishes_callback (s := { s with cmd := [] }) hp (.inl ⟨rfl, rfl⟩)⟩

end Machine
end Sys2Proof
end

section
/-!
PROOFS. The InboundRing and the OutboundQueue (spec/40_buffers.md R110 to R116): what each operation answers to the agent
with the right to it.
-/

namespace Sys2Proof
namespace Machine

variable {s : State}

/-- An agent with the right to an operation gets past the rights check (R263). -/
theorem withRight_of_mem {i : Instr} {k : Answer} (h : s.issuer ∈ holders i) : withRight i s k = k := if_pos h

/-! ### InboundRing -/

/-- The head of R26 as the spec computes it, in the integers. -/
theorem ringHead_eq_emod {cap : Nat} {r : Ring} (h : r.size ≤ cap) :
    (ringHead cap r : Int) = ((r.tail : Int) - (r.size : Int)) % (cap : Int) := by
  have hsum : ((r.tail + cap - r.size : Nat) : Int) = (r.tail : Int) - r.size + cap := by omega
  rw [ringHead, Int.natCast_emod, hsum, Int.add_emod_right]

theorem ringOldest_of_empty {cap chunk : Nat} {r : Ring} (h : r.size = 0) : ringOldest cap chunk r = none :=
  if_pos h

theorem ringOldest_of_nonempty {cap chunk : Nat} {r : Ring} (h : r.size ≠ 0) :
    ringOldest cap chunk r = some (r.slots.read (ringHead cap r) chunk) :=
  if_neg h

/-- A chunk of another length than `CHUNK` is refused (R110, D19). -/
theorem exec_ringPush_refused {c : List Sample} (hc : c.length ≠ s.chunkLen) :
    exec (.ringPush c) s = refuse s := by
  rw [exec, execRingPush, if_neg hc, withRight, ite_self]

/-- A chunk of `CHUNK` samples is pushed (R110). -/
theorem exec_ringPush_pushes {c : List Sample} (hi : s.issuer = .callback) (hc : c.length = s.chunkLen) :
    exec (.ringPush c) s = done { s with ring := ringPushed s.params.ringCap s.ring c } .none := by
  rw [exec, execRingPush, withRight_of_mem (by simp [hi, holders]), if_pos hc]

/-- A pop of an empty ring answers absent (R111). -/
theorem exec_ringPop_absent (hi : s.issuer = .worker) (h0 : s.ring.size = 0) :
    exec .ringPop s = done s (.chunk false []) := by
  rw [exec, execRingPop, withRight_of_mem (by simp [hi, holders]), ringOldest_of_empty h0]

/-- A pop of a ring that retains a chunk answers the head's slot (R111). -/
theorem exec_ringPop_head (hi : s.issuer = .worker) (h0 : s.ring.size ≠ 0) :
    exec .ringPop s = done { s with ring := ringPopped s.ring }
      (.chunk true (s.ring.slots.read (ringHead s.params.ringCap s.ring) s.chunkLen)) := by
  rw [exec, execRingPop, withRight_of_mem (by simp [hi, holders]), ringOldest_of_nonempty h0]

/-- A clear empties the ring (R112). -/
theorem exec_ringClear (hi : s.issuer = .caller) :
    exec .ringClear s = done { s with ring := ringCleared s.ring } .none := by
  rw [exec, execRingClear, withRight_of_mem (by simp [hi, holders])]

/-- Settles O1: the ring written at its tail holds the chunk there and the old contents elsewhere. -/
theorem ringPushStoresAtTail : Obligations.RingPushStoresAtTail := by
  refine fun s c hi => ⟨rfl, exec_ringPush_refused, fun hc => ?_⟩
  exact ⟨s.ring.slots.write s.ring.tail c, exec_ringPush_pushes hi hc, Cells.find_write_self _ _ _,
    fun k hk => Cells.find_write_other _ c hk⟩

/-- Settles O2: the slot `h` of R111 is the model's head. -/
theorem ringPopReturnsOldest : Obligations.RingPopReturnsOldest := by
  intro s h hi hs _ hh
  obtain rfl : h = ringHead s.params.ringCap s.ring := by
    exact_mod_cast hh.trans (ringHead_eq_emod hs).symm
  exact ⟨rfl, exec_ringPop_absent hi, exec_ringPop_head hi⟩

/-- Settles O3: the cleared ring of the model is R112's. -/
theorem ringClearEmpties : Obligations.RingClearEmpties := fun _ hi => ⟨rfl, exec_ringClear hi⟩

/-! ### OutboundQueue -/

/-- R91: `ceil(n / CHUNK)` is the only number of windows that holds `n` samples with less than a window to spare. -/
theorem windowsOf_unique {n chunk m : Nat} (hle : n ≤ m * chunk) (hlt : m * chunk < n + chunk) :
    windowsOf n chunk = m := by
  refine Nat.div_eq_of_lt_le (by omega) ?_
  rw [Nat.add_mul, Nat.one_mul]
  omega

/-- The three refusals of R114. -/
theorem outqRefuses_iff {P : Params} {chunk : Nat} {q : List OutEntry} {x : List Sample} :
    outqRefuses P chunk q x = true ↔
      x.length = 0 ∨ 2 ^ P.cursorW ≤ windowsOf x.length chunk * chunk ∨ P.outqDepth = some q.length := by
  simp only [outqRefuses, Bool.or_eq_true, decide_eq_true_eq, or_assoc]

/-- A push is refused in its three cases (R114). -/
theorem exec_outqPush_refused {x : List Sample} (hr : outqRefuses s.params s.chunkLen s.outq x = true) :
    exec (.outqPush x) s = refuse s := by
  rw [exec, execOutqPush, if_pos hr, withRight, ite_self]

/-- Otherwise the padded entry is appended (R114). -/
theorem exec_outqPush_appends {x : List Sample} (hi : s.issuer = .caller)
    (hr : ¬ outqRefuses s.params s.chunkLen s.outq x = true) :
    exec (.outqPush x) s = done { s with outq := outqPushed s.chunkLen s.outq x } .none := by
  rw [exec, execOutqPush, withRight_of_mem (by simp [hi, holders]), if_neg hr]

/-- A destination of another size than `CHUNK` is refused (R82, R83). -/
theorem exec_outqPop_refused {dst : List Sample} (hd : dst.length ≠ s.chunkLen) :
    exec (.outqPop dst) s = refuse s := by
  rw [exec, execOutqPop, if_neg hd, withRight, ite_self]

/-- A destination of `CHUNK` samples gets the window of the queue (R115). -/
theorem exec_outqPop_pops {dst : List Sample} (hi : s.issuer = .callback) (hd : dst.length = s.chunkLen) :
    exec (.outqPop dst) s = done { s with outq := outqPopped s.chunkLen s.outq }
      (.chunk (!outqEmpty s.outq) (outqWindow s.chunkLen s.outq dst)) := by
  rw [exec, execOutqPop, withRight_of_mem (by simp [hi, holders]), if_pos hd]

/-- A clear drops the queue (R116). -/
theorem exec_outqClear (hi : s.issuer = .caller) : exec .outqClear s = done { s with outq := [] } .none := by
  rw [exec, execOutqClear, withRight_of_mem (by simp [hi, holders])]

/-- Settles O5: the `m` of R114 is the model's number of windows, so its three cases are the model's refusals. -/
theorem outqPushPadsAndAppends : Obligations.OutqPushPadsAndAppends := by
  intro s x m hi _ hle hlt
  obtain rfl : windowsOf x.length s.chunkLen = m := windowsOf_unique hle hlt
  refine ⟨rfl, fun hr => exec_outqPush_refused (outqRefuses_iff.2 hr), fun h0 hcur hcap => ?_⟩
  refine exec_outqPush_appends hi fun hr => ?_
  obtain h | h | h := outqRefuses_iff.1 hr
  · exact h0 h
  · exact absurd h (Nat.not_le.2 hcur)
  · exact hcap h

/-- Settles O6: the window and the queue left, by the queue's head. -/
theorem outqPopDeliversTheHeadWindow : Obligations.OutqPopDeliversTheHeadWindow := by
  refine fun s dst hi => ⟨rfl, exec_outqPop_refused, fun hd hq => ?_, fun e r hd hq => ?_⟩
  · rw [exec_outqPop_pops hi hd, hq]
    rfl
  · rw [exec_outqPop_pops hi hd, hq]
    rfl

/-- Settles O7: the meaning writes the queue and nothing else. -/
theorem outqClearDropsEveryEntry : Obligations.OutqClearDropsEveryEntry := fun _ hi => ⟨rfl, exec_outqClear hi⟩

end Machine
end Sys2Proof
end

section
/-!
PROOFS. The modulator's frame and the variant's number (spec/41_codec_common.md R136, R143, spec/30_encoding.md R86).
-/

namespace Sys2Proof
namespace Machine

variable {s : State} {P : Params} {c : Codec}

/-! ### What the two operations answer -/

/-- The CALLER gets the modulated samples (R143). -/
theorem exec_codecMod (b : List Byte) (hi : s.issuer = .caller) :
    exec (.codecMod b) s = done s (.samples (modulate s.params s.codec b)) := by
  rw [exec, execCodecMod, withRight_of_mem (by simp [hi, holders])]

/-- The CALLER gets the number of the live instance's variant (R136). -/
theorem exec_codecType (hi : s.issuer = .caller) :
    exec .codecType s = done s (.kind (codeOfKind s.codec.kind)) := by
  rw [exec, execCodecType, withRight_of_mem (by simp [hi, holders])]

/-- Settles O10: the numbers are those of `codeOfKind`, one variant each. -/
theorem codecTypeAnswersTheVariant : Obligations.CodecTypeAnswersTheVariant := by
  refine fun s hi => ⟨rfl, fun hk => ?_, fun hk => ?_⟩
  · rw [exec_codecType hi, hk]
    rfl
  · rw [exec_codecType hi, hk]
    rfl

/-! ### Blocks -/

theorem rep_one (t : List Sample) : rep 1 t = t := List.append_nil t

theorem preamble_eq (P : Params) (c : Codec) :
    preamble P c = rep 6 (idleSymbol P c) ++ startSymbol P c := by
  rw [preamble, rep_one]

theorem dataSymbols_append (P : Params) (c : Codec) (i : Nat) (b b' : List Byte) :
    dataSymbols P c i (b ++ b') = dataSymbols P c i b ++ dataSymbols P c (i + b.length) b' := by
  induction b generalizing i with
  | nil => rfl
  | cons v vs ih =>
    have hi : i + 1 + vs.length = i + (v :: vs).length := by simp only [List.length_cons]; omega
    simp only [List.cons_append, dataSymbols, ih, hi, List.append_assoc]

/-- The symbols do not depend on the block that the bytes stand in. -/
theorem dataSymbols_add_block (P : Params) (c : Codec) (i : Nat) (b : List Byte) :
    dataSymbols P c (i + 128) b = dataSymbols P c i b := by
  induction b generalizing i with
  | nil => rfl
  | cons v vs ih => rw [dataSymbols, dataSymbols, Nat.add_mod_right, Nat.add_right_comm, ih]

/-- Behind the first byte of a block there is no preamble up to the block's end. -/
theorem dataSymbols_inside_block {i : Nat} {b : List Byte} (hi : 0 < i) (hb : i + b.length ≤ 128) :
    dataSymbols P c i b = (b.map (byteSymbols P c)).flatten := by
  induction b generalizing i with
  | nil => rfl
  | cons v vs ih =>
    rw [List.length_cons] at hb
    have hpre : i % 128 ≠ 0 := by omega
    rw [dataSymbols, if_neg hpre, ih (by omega) (by omega)]
    rfl

/-- R86: a block is its preamble and the symbols of its bytes. -/
theorem dataSymbols_block {b : List Byte} (h1 : 1 ≤ b.length) (hb : b.length ≤ 128) :
    dataSymbols P c 0 b = preamble P c ++ (b.map (byteSymbols P c)).flatten := by
  cases b with
  | nil => simp at h1
  | cons v vs =>
    rw [List.length_cons] at hb
    rw [dataSymbols, if_pos (Nat.zero_mod _), dataSymbols_inside_block (by omega) (by omega), List.append_assoc]
    rfl

/-- R143 for up to 128 bytes. -/
theorem modulate_block {b : List Byte} (h1 : 1 ≤ b.length) (hb : b.length ≤ 128) :
    modulate P c b =
      rep 6 (idleSymbol P c) ++ startSymbol P c ++ (b.map (byteSymbols P c)).flatten ++ rep 2 (idleSymbol P c) := by
  rw [modulate, dataSymbols_block h1 hb, preamble_eq]

/-- R143: a full block goes out in front, and the rest as if it stood alone. -/
theorem modulate_full_block_append {b : List Byte} (hb : b.length = 128) (b' : List Byte) :
    modulate P c (b ++ b') =
      rep 6 (idleSymbol P c) ++ startSymbol P c ++ (b.map (byteSymbols P c)).flatten ++ modulate P c b' := by
  rw [modulate, dataSymbols_append, hb, dataSymbols_add_block, dataSymbols_block (by omega) (by omega), preamble_eq,
    List.append_assoc, ← modulate]

/-! ### Lengths -/

section
variable (h : CodecConstWf P c)
include h

theorem preamble_length : (preamble P c).length = 7 * c.symLen := by
  rw [preamble_eq, List.length_append, rep_length, idleSymbol, startSymbol, wave_length h, wave_length h]
  omega

theorem byteSymbols_length (v : Byte) : (byteSymbols P c v).length = 8 / c.bps * c.symLen := by
  simp [byteSymbols, bitGroups, List.length_flatten, Function.comp_def, wave_length h]

/-- `(i + 127) / 128` counts the multiples of 128 below `i`: a preamble stands at each of them. -/
theorem preamble_at_length (i : Nat) :
    (if i % Config.blockBytes = 0 then preamble P c else []).length + (i + 127) / 128 * (7 * c.symLen) =
      (i + 1 + 127) / 128 * (7 * c.symLen) := by
  by_cases hi : i % 128 = 0
  · have hdiv : (i + 1 + 127) / 128 = 1 + (i + 127) / 128 := by omega
    rw [if_pos hi, preamble_length h, hdiv, Nat.add_mul, Nat.one_mul]
  · have hdiv : (i + 1 + 127) / 128 = (i + 127) / 128 := by omega
    rw [if_neg hi, hdiv, List.length_nil, Nat.zero_add]

/-- The bytes from number `i` on: their own symbols, and a preamble for every multiple of 128 among their numbers. -/
theorem dataSymbols_length (i : Nat) (b : List Byte) :
    (dataSymbols P c i b).length + (i + 127) / 128 * (7 * c.symLen) =
      (i + b.length + 127) / 128 * (7 * c.symLen) + b.length * (8 / c.bps * c.symLen) := by
  induction b generalizing i with
  | nil => simp [dataSymbols]
  | cons v vs ih =>
    have hfirst := preamble_at_length h i
    have hrest := ih (i + 1)
    have hnum : i + (vs.length + 1) = i + 1 + vs.length := by omega
    rw [dataSymbols, List.length_append, List.length_append, byteSymbols_length h, List.length_cons,
      Nat.add_one_mul vs.length, hnum]
    omega

/-- A byte is a whole number of symbols in both variants (R11). -/
theorem mul_byte_bits_div_bps (n : Nat) : n * 8 / c.bps = n * (8 / c.bps) := by
  obtain ⟨-, -, hbps, -⟩ := h
  refine Nat.mul_div_assoc n ?_
  rw [hbps]
  cases c.kind
  · exact one_dvd 8
  · exact ⟨4, rfl⟩

/-- R143: the number of samples. -/
theorem modulate_length (b : List Byte) :
    (modulate P c b).length = ((b.length + 127) / 128 * 7 + b.length * 8 / c.bps + 2) * c.symLen := by
  have hdata := dataSymbols_length h 0 b
  rw [modulate, List.length_append, rep_length, idleSymbol, wave_length h, mul_byte_bits_div_bps h]
  simp only [Nat.zero_add, Nat.reduceDiv, Nat.zero_mul, Nat.add_zero] at hdata
  rw [hdata]
  ring

end

/-- Settles O17: the frame by blocks, a byte's symbols by the definition of its bit groups, the number of samples by
the count of block boundaries. -/
theorem codecModEmitsTheFrame : Obligations.CodecModEmitsTheFrame := by
  refine fun s b hi => ⟨rfl, exec_codecMod b hi, rfl, modulate_block, fun b' hb => modulate_full_block_append hb b',
    fun v => ?_, fun h => modulate_length h b⟩
  rw [byteSymbols, bitGroups, List.map_map]
  rfl

end Machine
end Sys2Proof
end

section
/-!
PROOFS. The packet framer and the delivery queue (spec/44_packet.md R191 to R197, R200): what each operation answers to
the agent with the right to it.
-/

namespace Sys2Proof
namespace Machine

variable {s : State}

/-! ### What the operations answer -/

/-- The packet in the WORKER's view is the in-progress one (R263). -/
theorem readPacket_worker (hi : s.issuer = .worker) (f : List Byte → Result) : readPacket s f = done s (f s.pkt) := by
  rw [readPacket, State.packetInView, hi]

/-- A push answers the bytes that the framer left (R192). -/
theorem exec_pktPush (hi : s.issuer = .worker) (b : List Byte) :
    exec (.pktPush b) s = done { s with pkt := (pktPushed s.pkt b).1 } (.bytes (pktPushed s.pkt b).2) := by
  rw [exec, execPktPush, withRight_of_mem (by simp [hi, holders])]

/-- A new packet replaces the one in progress (R191). -/
theorem exec_pktNew (hi : s.issuer = .worker) : exec .pktNew s = done { s with pkt := [] } .none := by
  rw [exec, execPktNew, withRight_of_mem (by simp [hi, holders])]

/-- R195, for the in-progress packet. -/
theorem exec_pktFinished (hi : s.issuer = .worker) : exec .pktFinished s = done s (.flag (finished s.pkt)) := by
  rw [exec, execPktFinished, withRight_of_mem (by simp [hi, holders]), readPacket_worker hi]

/-- R196, for the in-progress packet. -/
theorem exec_pktValid (hi : s.issuer = .worker) : exec .pktValid s = done s (.flag (valid s.pkt)) := by
  rw [exec, execPktValid, withRight_of_mem (by simp [hi, holders]), readPacket_worker hi]

/-- R197, for the in-progress packet. -/
theorem exec_pktChecksum (hi : s.issuer = .worker) :
    exec .pktChecksum s = done s (.checksum (BitVec.ofNat 16 (cksum16 s.pkt))) := by
  rw [exec, execPktChecksum, withRight_of_mem (by simp [hi, holders]), readPacket_worker hi]

/-- A payload that fits a packet is built into one (R194). -/
theorem exec_pktBuild_builds {x : List Byte} (hi : s.issuer = .caller) (hx : x.length ≤ Config.maxPayload)
    (i f : Byte) :
    exec (.pktBuild i f x) s = done s (.bytes (pktBuilt i f x)) := by
  rw [exec, execPktBuild, withRight_of_mem (by simp [hi, holders]), if_pos hx]

/-- A longer payload answers `OVERSIZE` (R194). -/
theorem exec_pktBuild_oversize {x : List Byte} (hi : s.issuer = .caller) (hx : Config.maxPayload < x.length)
    (i f : Byte) :
    exec (.pktBuild i f x) s = .next (s.respond .oversize .none) := by
  rw [exec, execPktBuild, withRight_of_mem (by simp [hi, holders]), if_neg (Nat.not_le.2 hx), State.fail]

/-- A pop of an empty delivery queue answers absent (R200). -/
theorem exec_pktqPop_absent (hi : s.issuer = .consumer) (hq : s.pktq = []) :
    exec .pktqPop s = done s (.packet false []) := by
  rw [exec, execPktqPop, withRight_of_mem (by simp [hi, holders]), hq]

/-- Otherwise the oldest packet goes to the CONSUMER that issued the pop (R200, R262). -/
theorem exec_pktqPop_oldest {p : List Byte} {r : List (List Byte)} (hi : s.issuer = .consumer) (hq : s.pktq = p :: r) :
    exec .pktqPop s = done { s with pktq := r, held := s.held.write s.who p } (.packet true p) := by
  rw [exec, execPktqPop, withRight_of_mem (by simp [hi, holders]), hq]

/-! ### `PKT.PUSH` -/

/-- `take` and `drop` stop at a list's end by themselves, so the body is the declared total's missing bytes. -/
theorem pktTakeBody_eq (p b : List Byte) :
    pktTakeBody p b = (p ++ b.take (totalOf p - p.length), b.drop (totalOf p - p.length)) := by
  rw [pktTakeBody, ← List.take_eq_take_min, ← List.drop_eq_drop_min]

/-- An empty packet takes nothing of less than a header (R192). -/
theorem pktPushed_short {p b : List Byte} (hp : p = []) (hb : b.length < 6) : pktPushed p b = (p, b) := by
  rw [pktPushed, if_pos (List.length_eq_zero_iff.2 hp), if_pos hb]

/-- An empty packet takes a header and the rest of the declared total in one call (R192, D21). -/
theorem pktPushed_first {p b : List Byte} (hp : p = []) (hb : 6 ≤ b.length) :
    pktPushed p b = (b.take (max 6 (totalOf b)), b.drop (max 6 (totalOf b))) := by
  have hlen : (b.take 6).length = 6 := List.length_take_of_le hb
  have htotal : totalOf (b.take 6) = totalOf b := by
    rw [← totalOf_append (Nat.le_of_eq hlen.symm) (b.drop 6), List.take_append_drop]
  have hmax : max 6 (totalOf b) = 6 + (totalOf b - 6) := by omega
  rw [pktPushed, if_pos (List.length_eq_zero_iff.2 hp), if_neg (Nat.not_lt.2 hb), pktTakeBody_eq, htotal, hlen, hmax,
    List.take_add, List.drop_drop]

/-- A packet in progress takes its missing bytes (R192). -/
theorem pktPushed_next {p : List Byte} (hp : p ≠ []) (b : List Byte) :
    pktPushed p b = (p ++ b.take (totalOf p - p.length), b.drop (totalOf p - p.length)) := by
  rw [pktPushed, if_neg (mt List.length_eq_zero_iff.1 hp), pktTakeBody_eq]

/-- Settles O22: the packet's three cases are the framer's, `totalOf` being the little-endian word at offset 2. -/
theorem pktPushTakesTheMissingBytes : Obligations.PktPushTakesTheMissingBytes := by
  refine fun s b hi => ⟨rfl, fun hp hb => ?_, fun hp hb => ⟨_, rfl, ?_⟩, fun hp => ⟨_, rfl, ?_⟩⟩
  · rw [exec_pktPush hi, pktPushed_short hp hb]
    rfl
  · rw [exec_pktPush hi, pktPushed_first hp hb]
    rfl
  · rw [exec_pktPush hi, pktPushed_next hp]
    rfl

/-- Settles O24: the meaning writes the packet and nothing else. -/
theorem pktNewEmptiesThePacket : Obligations.PktNewEmptiesThePacket := fun _ hi => ⟨rfl, exec_pktNew hi⟩

/-! ### The predicates -/

theorem finished_eq_decide (p : List Byte) : finished p = decide (6 ≤ p.length ∧ p.length = totalOf p) := by
  rw [finished, hasHeader, Bool.decide_and]

theorem valid_eq_decide (p : List Byte) : valid p = decide (6 ≤ p.length ∧ storedCksum p = cksum16 p) := by
  rw [valid, hasHeader, Bool.decide_and]

theorem finished_iff {p : List Byte} : finished p = true ↔ 6 ≤ p.length ∧ p.length = totalOf p := by
  rw [finished_eq_decide, decide_eq_true_eq]

theorem valid_iff {p : List Byte} : valid p = true ↔ 6 ≤ p.length ∧ storedCksum p = cksum16 p := by
  rw [valid_eq_decide, decide_eq_true_eq]

/-- A complete packet is taken whole by an empty framer. -/
theorem pktPushed_of_finished {p : List Byte} (h : finished p = true) : pktPushed [] p = (p, []) := by
  obtain ⟨hhdr, htotal⟩ := finished_iff.1 h
  rw [pktPushed_first rfl hhdr, ← htotal, Nat.max_eq_right hhdr, List.take_length, List.drop_length]

/-- Settles O26: the two predicates with the header's words written out. -/
theorem pktPredicatesReadThePacket : Obligations.PktPredicatesReadThePacket := by
  refine fun s hi => ⟨rfl, rfl, ?_, ?_⟩
  · rw [exec_pktFinished hi, finished_eq_decide]
    rfl
  · rw [exec_pktValid hi, valid_eq_decide]
    rfl

/-! ### `PKT.BUILD` -/

/-- The checksum that `PKT.BUILD` stores, the draft's, is that of the packet it answers. -/
theorem cksum16_pktBuilt (i f : Byte) (x : List Byte) : cksum16 (pktBuilt i f x) = cksum16 (pktDraft i f x) :=
  cksum16_set (by simp [pktDraft]) _ _

theorem totalOf_pktBuilt {x : List Byte} (hx : x.length ≤ 65529) (i f : Byte) :
    totalOf (pktBuilt i f x) = 6 + x.length :=
  word16_lowByte_highByte (by simp only [Config.headerSize]; omega)

theorem storedCksum_pktBuilt (i f : Byte) (x : List Byte) :
    storedCksum (pktBuilt i f x) = cksum16 (pktBuilt i f x) :=
  (word16_lowByte_highByte (cksum16_lt _)).trans (cksum16_pktBuilt i f x).symm

theorem pktBuilt_finished {x : List Byte} (hx : x.length ≤ 65529) (i f : Byte) :
    finished (pktBuilt i f x) = true :=
  finished_iff.2 ⟨by rw [pktBuilt_length]; omega, by rw [pktBuilt_length, totalOf_pktBuilt hx]⟩

theorem pktBuilt_valid (i f : Byte) (x : List Byte) : valid (pktBuilt i f x) = true :=
  valid_iff.2 ⟨by rw [pktBuilt_length]; omega, storedCksum_pktBuilt i f x⟩

/-- Settles O25: the answer's header fields are read back from the draft and the two stored bytes; it is finished, so an
empty framer takes it whole. -/
theorem pktBuildMakesAFinishedValidPacket : Obligations.PktBuildMakesAFinishedValidPacket := by
  refine fun s i f x hi => ⟨rfl, fun hx => exec_pktBuild_oversize hi hx i f, fun hx => ?_⟩
  have hfin := pktBuilt_finished hx i f
  exact ⟨pktBuilt i f x, exec_pktBuild_builds hi hx i f, rfl, rfl, rfl, pktBuilt_length i f x, totalOf_pktBuilt hx i f,
    storedCksum_pktBuilt i f x, pktPushed_of_finished hfin, hfin, pktBuilt_valid i f x⟩

/-! ### `PKT.CHECKSUM` -/

/-- The recursive sum of R197 by word numbers: the words at even offsets, and the last byte of an odd length. -/
theorem sumWords_eq_sum_range (q : List Byte) :
    sumWords q = ((List.range (q.length / 2)).map fun w => word16 (byteAt q (2 * w)) (byteAt q (2 * w + 1))).sum
      + (if q.length % 2 = 1 then (byteAt q (q.length - 1)).toNat else 0) := by
  induction q using sumWords.induct with
  | case1 => rfl
  | case2 a => simp [sumWords, byteAt]
  | case3 a b r ih =>
    have hhalf : (a :: b :: r).length / 2 = r.length / 2 + 1 := by simp only [List.length_cons]; omega
    have hodd : (a :: b :: r).length % 2 = r.length % 2 := by simp only [List.length_cons]; omega
    have hlast : r.length % 2 = 1 → byteAt (a :: b :: r) ((a :: b :: r).length - 1) = byteAt r (r.length - 1) := by
      intro h
      obtain ⟨n, hn⟩ : ∃ n, r.length = n + 1 := ⟨r.length - 1, by omega⟩
      simp [byteAt, hn]
    rw [sumWords, ih, hhalf, hodd, List.range_succ_eq_map, List.map_cons, List.sum_cons, List.map_map, Nat.add_assoc]
    congr 2
    split
    · next h => rw [hlast h]
    · rfl

/-- R197: the checksum complements the folded sum, which is 0 only for sum 0 and otherwise the sum's residue modulo
65535 in 1 to 65535. -/
theorem cksum16_spec (p : List Byte) :
    (sumWords (zeroCksumField p) = 0 → cksum16 p = 65535) ∧
      (0 < sumWords (zeroCksumField p) →
        cksum16 p < 65535 ∧ (65535 - cksum16 p) % 65535 = sumWords (zeroCksumField p) % 65535) := by
  obtain ⟨hlt, hmod, hzero⟩ := foldCarry_spec (sumWords (zeroCksumField p)) _ le_rfl
  simp only [cksum16]
  refine ⟨fun h => by rw [hzero.2 h], fun h => ⟨by omega, ?_⟩⟩
  rw [Nat.sub_sub_self (by omega), hmod]

/-- Settles O28: the sum of R197 is the model's, and a checksum has 16 bits. -/
theorem pktChecksumIsTheOnesComplementSum : Obligations.PktChecksumIsTheOnesComplementSum := by
  rintro s p q sum hi rfl hq hsum
  have hlen : q.length = s.pkt.length := by rw [hq]; exact zeroCksumField_length s.pkt
  have hmodel : sum = sumWords (zeroCksumField s.pkt) := by
    rw [hsum, ← hlen]
    subst hq
    exact (sumWords_eq_sum_range _).symm
  have hw : (BitVec.ofNat 16 (cksum16 s.pkt)).toNat = cksum16 s.pkt := Nat.mod_eq_of_lt (cksum16_lt s.pkt)
  refine ⟨rfl, _, exec_pktChecksum hi, ?_⟩
  rw [hw, hmodel]
  exact cksum16_spec s.pkt

/-! ### `PKTQ.POP` -/

/-- Settles O33: the two cases of the queue. -/
theorem pktqPopReturnsTheOldest : Obligations.PktqPopReturnsTheOldest :=
  fun _ hi => ⟨rfl, exec_pktqPop_absent hi, fun _ _ hq => ⟨_, exec_pktqPop_oldest hi hq, rfl⟩⟩

end Machine
end Sys2Proof
end

section
/-!
PROOFS. The engine's operations of the CALLER (spec/45_engine.md R220, R222, R223, R228, R229, R231): what each answers,
and the state that a reconfiguration leaves.
-/

namespace Sys2Proof
namespace Machine

variable {s : State}

/-! ### The switches -/

/-- A running stream is not started again (R220). -/
theorem exec_engStartStream_running (hi : s.issuer = .caller) (hs : s.streaming = true) (devOk openOk : Bool) :
    exec (.engStartStream devOk openOk) s = failWith s .state := by
  rw [exec, execEngStartStream, withRight_of_mem (by simp [hi, holders]), if_pos hs]

/-- A stopped stream starts by the two answers of the `DEV` port, the device's tested first (R220, R259). -/
theorem exec_engStartStream_stopped (hi : s.issuer = .caller) (hs : ¬ s.streaming = true) (devOk openOk : Bool) :
    exec (.engStartStream devOk openOk) s =
      if devOk then
        if openOk then done { s with streaming := true } (.flag true) else failWith s .hwStreamError
      else failWith s .deviceUnavailable := by
  rw [exec, execEngStartStream, withRight_of_mem (by simp [hi, holders]), if_neg hs]

/-- Settles O34: by the stream's state, then by the device's answer and the stream's, in the order of R259. -/
theorem startStreamTestsInOrder : Obligations.StartStreamTestsInOrder := by
  refine fun s devOk openOk hi => ⟨rfl, ?_⟩
  by_cases hs : s.streaming = true
  · rw [exec_engStartStream_running hi hs, if_pos hs]
    rfl
  · rw [exec_engStartStream_stopped hi hs, if_neg hs]
    cases devOk with
    | false => rfl
    | true => cases openOk <;> rfl

/-- Demodulation needs a stream, and is not started twice (R222, D28). -/
theorem exec_engStartDemod_fails (hi : s.issuer = .caller) (h : s.streaming = false ∨ s.demodulating = true) :
    exec .engStartDemod s = failWith s .state := by
  rw [exec, execEngStartDemod, withRight_of_mem (by simp [hi, holders])]
  rcases h with hs | hd
  · rw [hs]; rfl
  · rw [hd]; exact ite_self _

/-- Otherwise it starts (R222). -/
theorem exec_engStartDemod_starts (hi : s.issuer = .caller) (h : ¬ (s.streaming = false ∨ s.demodulating = true)) :
    exec .engStartDemod s = done s.startDemod (.flag true) := by
  obtain ⟨hs, hd⟩ := not_or.1 h
  rw [exec, execEngStartDemod, withRight_of_mem (by simp [hi, holders]), if_pos (Bool.eq_true_of_not_eq_false hs),
    if_neg hd]

/-- Settles O36: the failing cases and the start, whose effect writes the ring, the worker's state and the switch. -/
theorem startDemodGivesTheWorkerFreshState : Obligations.StartDemodGivesTheWorkerFreshState := by
  refine fun s hi => ⟨rfl, ?_⟩
  split_ifs with h
  · exact exec_engStartDemod_fails hi h
  · exact exec_engStartDemod_starts hi h

/-- Demodulation stops in any state (R223). -/
theorem exec_engStopDemod (hi : s.issuer = .caller) : exec .engStopDemod s = done s.stopDemod .none := by
  rw [exec, execEngStopDemod, withRight_of_mem (by simp [hi, holders])]

/-- Settles O37: the effect writes the switch and the cleared ring. -/
theorem stopDemodClearsSwitchAndRing : Obligations.StopDemodClearsSwitchAndRing :=
  fun _ hi => ⟨rfl, exec_engStopDemod hi⟩

/-! ### `ENG.TRANSMIT` -/

/-- More than `MAX_TOTAL` bytes answer `OVERSIZE`, before any enqueue is tried (R228, D25). -/
theorem exec_engTransmit_oversize {b : List Byte} (hi : s.issuer = .caller) (hb : Config.maxTotal < b.length) :
    exec (.engTransmit b) s = failWith s .oversize := by
  rw [exec, execEngTransmit, withRight_of_mem (by simp [hi, holders]), if_neg (Nat.not_le.2 hb)]

/-- Samples that `OUTQ.PUSH` refuses answer `REFUSED` (R228). -/
theorem exec_engTransmit_refused {b : List Byte} (hi : s.issuer = .caller) (hb : b.length ≤ Config.maxTotal)
    (hr : outqRefuses s.params s.chunkLen s.outq (modulate s.params s.codec b) = true) :
    exec (.engTransmit b) s = failWith s .refused := by
  rw [exec, execEngTransmit, withRight_of_mem (by simp [hi, holders]), if_pos hb, if_pos hr]

/-- Otherwise the modulated samples are enqueued (R228). -/
theorem exec_engTransmit_enqueues {b : List Byte} (hi : s.issuer = .caller) (hb : b.length ≤ Config.maxTotal)
    (hr : ¬ outqRefuses s.params s.chunkLen s.outq (modulate s.params s.codec b) = true) :
    exec (.engTransmit b) s =
      done { s with outq := outqPushed s.chunkLen s.outq (modulate s.params s.codec b) } (.flag true) := by
  rw [exec, execEngTransmit, withRight_of_mem (by simp [hi, holders]), if_pos hb, if_neg hr]

/-- Settles O42: `m` is the number of windows of the modulated samples, so the refusals are those of `OUTQ.PUSH`. -/
theorem transmitModulatesAndEnqueues : Obligations.TransmitModulatesAndEnqueues := by
  rintro s b x m hi - rfl hle hlt
  obtain rfl := windowsOf_unique hle hlt
  refine ⟨rfl, exec_engTransmit_oversize hi, fun hb hr => exec_engTransmit_refused hi hb (outqRefuses_iff.2 hr),
    fun hb h0 hcur hcap => exec_engTransmit_enqueues hi hb (mt outqRefuses_iff.1 ?_)⟩
  exact not_or.2 ⟨h0, not_or.2 ⟨Nat.not_le.2 hcur, hcap⟩⟩

/-! ### The configuration -/

/-- The configuration is answered (R229). -/
theorem exec_engGetConfig (hi : s.issuer = .caller) : exec .engGetConfig s = done s (.config s.config) := by
  rw [exec, execEngGetConfig, withRight_of_mem (by simp [hi, holders])]

/-- Settles O43: the meaning reads the configuration and writes nothing but the response. -/
theorem getConfigReadsTheConfiguration : Obligations.GetConfigReadsTheConfiguration :=
  fun _ hi => ⟨rfl, exec_engGetConfig hi⟩

/-- R230: `new` is `old` but for volume exactly if `new`'s volumes put into `old` give `new`. -/
theorem sameButVolume_iff {new old : ModemConfig} :
    new.sameButVolume old = true ↔ new = { old with inVol := new.inVol, outVol := new.outVol } := by
  cases new
  simp [ModemConfig.sameButVolume]

/-- An illegal configuration is refused (R231, D37). -/
theorem exec_engSetConfig_refused {new : ModemConfig} (hl : new.legal = false) :
    exec (.engSetConfig new) s = refuse s := by
  rw [exec, execEngSetConfig, withRight, hl]
  exact ite_self _

/-- When only volumes differ, they are applied (R231). -/
theorem exec_engSetConfig_volume {new : ModemConfig} (hi : s.issuer = .caller) (hl : new.legal = true)
    (hv : new.sameButVolume s.config = true) :
    exec (.engSetConfig new) s = done (s.applyVolume new) .none := by
  rw [exec, execEngSetConfig, withRight_of_mem (by simp [hi, holders]), if_pos hl, if_pos hv]

/-- Otherwise the engine is also reconfigured (R231). -/
theorem exec_engSetConfig_reconfigures {new : ModemConfig} (hi : s.issuer = .caller) (hl : new.legal = true)
    (hv : ¬ new.sameButVolume s.config = true) :
    exec (.engSetConfig new) s = done ((s.applyVolume new).reconfigure new) .none := by
  rw [exec, execEngSetConfig, withRight_of_mem (by simp [hi, holders]), if_pos hl, if_neg hv]

/-- Both switches go off and the ring is cleared; only a running stream takes the queue with it (R231). -/
theorem stopDemod_stopStreamIfOn (s : State) :
    s.stopDemod.stopStreamIfOn =
      { s with streaming := false, demodulating := false, ring := ringCleared s.ring,
               outq := if s.streaming then [] else s.outq } := by
  rw [State.stopStreamIfOn, State.stopDemod_streaming]
  cases hs : s.streaming
  · simp [State.stopDemod, hs]
  · rfl

/-- The whole state after a reconfiguration (R231, R118). -/
theorem applyVolume_reconfigure (s : State) (new : ModemConfig) :
    (s.applyVolume new).reconfigure new =
      { s with
        config := new, mix := some (new.inVol, new.outVol), streaming := false, demodulating := false,
        ring := if new.chunk = s.config.chunk then ringCleared s.ring else Ring.fresh,
        outq := if s.streaming = true ∨ new.chunk ≠ s.config.chunk then [] else s.outq,
        codec := codecOfConfig s.params new,
        evt := s.evt ++ [.configChanged] } := by
  rw [State.reconfigure, stopDemod_stopStreamIfOn]
  by_cases hc : new.chunk = s.config.chunk
  · cases hs : s.streaming <;> simp [State.emit, State.applyVolume, ← hc, hs]
  · simp [State.emit, State.applyVolume, State.replaceBuffers, hc]

/-- Settles O44: by legality, then by whether a field other than volume differs. -/
theorem setConfigReconfigures : Obligations.SetConfigReconfigures := by
  refine fun s new hi => ⟨rfl, exec_engSetConfig_refused, fun hl hv => ?_, fun hl hv => ?_⟩
  · rw [exec_engSetConfig_volume hi hl (sameButVolume_iff.2 hv), State.applyVolume, ← hv]
    rfl
  · rw [exec_engSetConfig_reconfigures hi hl (mt sameButVolume_iff.1 hv), applyVolume_reconfigure,
      codecOfConfig_eq_buildCodec]
    rfl

end Machine
end Sys2Proof
end

section
/-!
PROOFS. The construction of a codec instance (spec/41_codec_common.md R131, R132): what `CODEC.NEW` answers, and what the
tables of the new instance hold.
-/

namespace Sys2Proof
namespace Machine

variable {s : State} {P : Params} {t sr bd : Int}

/-! ### What the operation answers -/

/-- The rates of R131. -/
theorem ratesLegal_iff : ratesLegal sr bd = true ↔ 1 ≤ bd ∧ 1 ≤ sr ∧ sr % bd = 0 := by
  simp [ratesLegal, and_assoc]

/-- A construction is refused while a stream or a worker runs, and for operands that are not R131's. -/
theorem exec_codecNew_refused
    (h : s.streaming = true ∨ s.demodulating = true ∨ ¬ ((t = 0 ∨ t = 1) ∧ ratesLegal sr bd = true)) :
    exec (.codecNew t sr bd) s = refuse s := by
  rw [exec, execCodecNew, withRight]
  rcases h with hs | hd | hop
  · simp [hs]
  · simp [hd]
  · have hop' : ¬ (decide (t = 0 ∨ t = 1) && ratesLegal sr bd) = true := by simpa using hop
    rw [if_neg hop', ite_self, ite_self]

/-- Otherwise the live instance is replaced by a fresh one (R131). -/
theorem exec_codecNew_builds (hi : s.issuer = .caller) (hs : s.streaming = false) (hd : s.demodulating = false)
    (ht : t = 0 ∨ t = 1) (hr : ratesLegal sr bd = true) :
    exec (.codecNew t sr bd) s =
      done { s with codec := buildCodec s.params (kindOfCode t.toNat) sr.toNat bd.toNat } .none := by
  rw [exec, execCodecNew, withRight_of_mem (by simp [hi, holders])]
  simp [hs, hd, ht, hr]

/-- R11: a symbol of `BPS` bits lasts `BPS` bit times. -/
theorem symLenOf_mul_baud {k : CodecType} (hr : ratesLegal sr bd = true) :
    (symLenOf k sr.toNat bd.toNat : Int) * bd = bpsOf k * sr := by
  obtain ⟨hb, hs, -⟩ := ratesLegal_iff.1 hr
  obtain ⟨-, -, hmod⟩ := ratesLegal_spec hr
  have hdvd : bd.toNat ∣ bpsOf k * sr.toNat := (Nat.dvd_of_mod_eq_zero hmod).mul_left _
  have hlen : symLenOf k sr.toNat bd.toNat = bpsOf k * sr.toNat / bd.toNat := by
    cases k
    · rw [symLenOf, bpsOf, Nat.one_mul]
    · rfl
  have hmul : symLenOf k sr.toNat bd.toNat * bd.toNat = bpsOf k * sr.toNat := by
    rw [hlen, Nat.div_mul_cancel hdvd]
  zify at hmul
  rwa [Int.toNat_of_nonneg (by omega), Int.toNat_of_nonneg (by omega)] at hmul

/-! ### What the tables hold -/

/-- The function that a table samples (R132). -/
noncomputable def trigOf (name : TableName) : ℝ → ℝ := if TableName.isSine name then Real.sin else Real.cos

/-- A table of a fresh instance with its name, its tone and its function. -/
noncomputable def tableRow (P : Params) (k : CodecType) (sampleRate baud : Nat) (name : TableName) :
    TableName × List Int × Tone × (ℝ → ℝ) :=
  (name, tableOf P name sampleRate baud (symLenOf k sampleRate baud), toneOf P name, trigOf name)

theorem eq_tableRow_of_mem {k : CodecType} {sampleRate baud : Nat} {names : List TableName}
    {row : TableName × List Int × Tone × (ℝ → ℝ)} (h : row ∈ names.map (tableRow P k sampleRate baud)) :
    row = tableRow P k sampleRate baud row.1 := by
  obtain ⟨name, -, rfl⟩ := List.mem_map.1 h
  rfl

/-- The contents loaded for a table's name and rates are the table (D8, log entry 8). -/
theorem tableOf_of_loaded {name : TableName} {sampleRate baud : Nat} {e : RomTable}
    (h : P.rom.find? (fun e => decide (e.name = name ∧ e.sampleRate = sampleRate ∧ e.baud = baud)) = some e)
    (len : Nat) : tableOf P name sampleRate baud len = e.entries := by
  rw [tableOf, h]

/-- With nothing loaded for its name and rates, a table is nominal (R132). -/
theorem tableOf_of_not_loaded {name : TableName} {sampleRate baud : Nat}
    (h : ∀ e ∈ P.rom, ¬ (e.name = name ∧ e.sampleRate = sampleRate ∧ e.baud = baud)) (len : Nat) :
    tableOf P name sampleRate baud len = nominalTable P name sampleRate baud len := by
  have hnone : P.rom.find? (fun e => decide (e.name = name ∧ e.sampleRate = sampleRate ∧ e.baud = baud)) = none :=
    List.find?_eq_none.2 fun e he => by simpa using h e he
  rw [tableOf, hnone]

theorem nominalTable_length (P : Params) (name : TableName) (sampleRate baud len : Nat) :
    (nominalTable P name sampleRate baud len).length = len := by
  simp [nominalTable]

/-- A tone legal at some rates has a denominator, at all of them (R10). -/
theorem toneFreq_den_pos {tone : Tone} {baud sampleRate : Nat} (h : FreqLegal (toneFreq tone baud) sampleRate)
    (baud' : Nat) : 0 < (toneFreq tone baud').2 := by
  obtain ⟨-, hden, -⟩ := h
  cases tone <;> exact hden

theorem toneOf_den_pos (h : ParamsLegal P) (name : TableName) (baud : Nat) :
    0 < (toneFreq (toneOf P name) baud).2 := by
  obtain ⟨-, ⟨hlow, hhigh, hc, -⟩, -⟩ := h
  cases name
  case cosL | sinL => exact toneFreq_den_pos hlow baud
  case cosH | sinH => exact toneFreq_den_pos hhigh baud
  case cosC | sinC => exact toneFreq_den_pos hc baud

/-- Entry `k` of a nominal table is the rounded value of its function at `2π f k / sample_rate`, `f` being the frequency
of its tone (R132, log entry 7). -/
theorem nominalTable_close (h : ParamsLegal P) (name : TableName) {sampleRate baud len k : Nat}
    (hs : 0 < sampleRate) (hk : k < len) {f : ℝ}
    (hf : f = ((toneFreq (toneOf P name) baud).1 : ℝ) / (toneFreq (toneOf P name) baud).2) :
    |(((nominalTable P name sampleRate baud len).getD k 0 : Int) : ℝ) -
        P.tabOne * trigOf name (2 * Real.pi * (f * k / sampleRate))| ≤ 1 / 2 + P.tabOne / 10 ^ 18 := by
  set q := toneFreq (toneOf P name) baud with hq
  have hden : 0 < q.2 * sampleRate := Nat.mul_pos (toneOf_den_pos h name baud) hs
  have hangle : f * k / sampleRate = ((q.1 * k : Nat) : ℝ) / ((q.2 * sampleRate : Nat) : ℝ) := by
    rw [hf]
    push_cast
    rw [div_mul_eq_mul_div, div_div]
  have hentry : (nominalTable P name sampleRate baud len).getD k 0 =
      if TableName.isSine name then nominalSin P.tabOne (q.1 * k) (q.2 * sampleRate)
      else nominalCos P.tabOne (q.1 * k) (q.2 * sampleRate) := by
    simp [nominalTable, List.getD_eq_getElem?_getD, hk, ← hq]
  rw [hangle, hentry, trigOf]
  split_ifs
  · exact nominalSin_close P.tabOne (q.1 * k) hden
  · exact nominalCos_close P.tabOne (q.1 * k) hden

/-- The frequency of a tone in hertz as the statement of R132 writes it. -/
theorem toneFreq_quotient (tone : Tone) (baud : Nat) :
    (match tone with
      | .hz num den => (num : ℝ) / den
      | .ofBaud num den => (num : ℝ) * baud / den) = ((toneFreq tone baud).1 : ℝ) / (toneFreq tone baud).2 := by
  cases tone
  · rfl
  · simp [toneFreq]

/-- Settles O9: the refused cases, and the instance that `buildCodec` makes; each of its tables is a row `tableRow`, so
loaded or nominal. -/
theorem codecNewBuildsAFreshInstance : Obligations.CodecNewBuildsAFreshInstance := by
  refine fun s t sr bd hi => ⟨rfl, fun h => exec_codecNew_refused ?_, fun hs hd ht hb hsr hmod => ?_⟩
  · rw [ratesLegal_iff, ← not_lt, ← not_lt]
    tauto
  have hr : ratesLegal sr bd = true := ratesLegal_iff.2 ⟨hb, hsr, hmod⟩
  obtain ⟨hsync, hval, hcnt, hbyte⟩ := buildCodec_registers s.params (kindOfCode t.toNat) sr.toNat bd.toNat
  refine ⟨_, exec_codecNew_builds hi hs hd ht hr, ?_, ?_, rfl, hsync, hval, hcnt, hbyte, fun name table tone g hmem => ?_⟩
  · rintro rfl
    exact ⟨rfl, (symLenOf_mul_baud (k := .fsk) hr).trans (one_mul sr), rfl, rfl⟩
  · rintro rfl
    exact ⟨rfl, symLenOf_mul_baud (k := .qpsk) hr, rfl, rfl⟩
  have hrow : (name, table, tone, g) = tableRow s.params (kindOfCode t.toNat) sr.toNat bd.toNat name := by
    rcases ht with rfl | rfl
    · exact eq_tableRow_of_mem (names := [.cosL, .sinL, .cosH, .sinH]) hmem
    · exact eq_tableRow_of_mem (names := [.cosC, .sinC]) hmem
  obtain ⟨-, rfl, rfl, rfl⟩ : _ ∧ _ ∧ _ ∧ _ := by simpa only [tableRow, Prod.mk.injEq] using hrow
  refine ⟨fun e he => tableOf_of_loaded he _, fun hp hno => ?_⟩
  have hnom := tableOf_of_not_loaded hno (symLenOf (kindOfCode t.toNat) sr.toNat bd.toNat)
  rw [hnom]
  exact ⟨nominalTable_length .., fun k f hk hf =>
    nominalTable_close hp name (by omega) hk (hf.trans (toneFreq_quotient ..))⟩

end Machine
end Sys2Proof
end

section
/-!
PROOFS. Every operation answers (spec/60_exceptions.md R250), and the transitions of the two switches (spec/45_engine.md
R233 (a), spec/10_state.md R43).
-/

namespace Sys2Proof
namespace Machine

variable {s t : State} {i : Instr}

/-! ### Every operation answers -/

/-- The answer is a next state: neither a fault nor a refusal of the model. -/
def Completes (a : Answer) : Prop := ∃ t, a = .next t

theorem next_completes (s : State) : Completes (.next s) := ⟨s, rfl⟩

theorem done_completes (s : State) (r : Result) : Completes (done s r) := next_completes _

theorem refuse_completes (s : State) : Completes (refuse s) := next_completes _

theorem failWith_completes (s : State) (st : Status) : Completes (failWith s st) := next_completes _

theorem ite_completes {c : Prop} [Decidable c] {a b : Answer} (ha : Completes a) (hb : Completes b) :
    Completes (if c then a else b) := by
  split
  · exact ha
  · exact hb

theorem withRight_completes (i : Instr) (s : State) {k : Answer} (hk : Completes k) : Completes (withRight i s k) :=
  ite_completes hk (refuse_completes s)

theorem readPacket_completes (s : State) (f : List Byte → Result) : Completes (readPacket s f) := by
  rw [readPacket]
  split
  · exact done_completes ..
  · exact refuse_completes s

/-- R250: the meaning of an operation is made of completions and refusals on `RSP` only. -/
theorem exec_completes (i : Instr) (s : State) : Completes (exec i s) := by
  cases i <;> refine withRight_completes _ s ?_
  case ringPop => split <;> exact done_completes ..
  case pktqPop => split <;> exact done_completes ..
  case pktFinished | pktValid | pktChecksum => exact readPacket_completes s _
  case engWorkerStep =>
    refine ite_completes ?_ (refuse_completes s)
    split
    · exact done_completes ..
    · exact refuse_completes s
  case ringPush | outqPop | codecDemod | pktqPush =>
    exact ite_completes (done_completes ..) (refuse_completes s)
  case outqPush | codecSync => exact ite_completes (refuse_completes s) (done_completes ..)
  case codecNew =>
    exact ite_completes (refuse_completes s) (ite_completes (done_completes ..) (refuse_completes s))
  case pktBuild => exact ite_completes (done_completes ..) (next_completes _)
  case engStartStream =>
    exact ite_completes (failWith_completes ..)
      (ite_completes (ite_completes (done_completes ..) (failWith_completes ..)) (failWith_completes ..))
  case engStopStream => exact ite_completes (done_completes ..) (failWith_completes ..)
  case engCallback => exact ite_completes (ite_completes (next_completes _) (refuse_completes s)) (refuse_completes s)
  case engStartDemod | engTransmit =>
    exact ite_completes (ite_completes (failWith_completes ..) (done_completes ..)) (failWith_completes ..)
  case engSetConfig =>
    exact ite_completes (ite_completes (done_completes ..) (done_completes ..)) (refuse_completes s)
  all_goals exact done_completes ..

/-- The next state holds a response, but after the first access of a callback (R224). -/
theorem exec_responds (h : exec i s = .next t) :
    t.rsp.isSome = true ∨ ∃ c, i = .engCallback c ∧ s.playing = false ∧ t.playing = true := by
  obtain ⟨st, r, -, rfl⟩ | ⟨-, hv, ⟨r, rfl⟩ | ⟨c, rfl, rfl⟩⟩ := exec_cases h
  · exact .inl rfl
  · exact .inl rfl
  · obtain ⟨-, hp, -⟩ := hv
    exact .inr ⟨c, rfl, hp, rfl⟩

/-- Settles O45: by the totality of the meanings and the response each leaves; a callback with nothing else pending is
due. -/
theorem everyOperationAnswers : Obligations.EveryOperationAnswers := by
  refine ⟨fun i s => ?_, fun s hp hc => ⟨_, step_of_callbackDue (callbackDue_of_idle hp hc), rfl, rfl⟩⟩
  obtain ⟨t, ht⟩ := exec_completes i s
  exact ⟨t, ht, exec_responds ht⟩

/-! ### The switches -/

/-- The rows of the transition table of R233 (a), by the operation: the two switches before, `str` and `dem`, and after.
`stays` is every other operation, and one that fails. -/
inductive SwitchMove (str dem str' dem' : Bool) : Instr → Prop
  | stays (i : Instr) (hs : str' = str) (hd : dem' = dem) : SwitchMove str dem str' dem' i
  | startStream (h0 : str = false) (h1 : str' = true) (hd : dem' = dem) :
      SwitchMove str dem str' dem' (.engStartStream true true)
  | stopStream (h1 : str = true) (h0 : str' = false) (hd : dem' = dem) : SwitchMove str dem str' dem' .engStopStream
  | startDemod (hs : str = true) (hs' : str' = true) (h0 : dem = false) (h1 : dem' = true) :
      SwitchMove str dem str' dem' .engStartDemod
  | stopDemod (hs : str' = str) (h0 : dem' = false) : SwitchMove str dem str' dem' .engStopDemod
  | reconfigure (n : ModemConfig) (hs : str' = false) (hd : dem' = false) :
      SwitchMove str dem str' dem' (.engSetConfig n)

theorem workerStep_switches (h : s.workerStep = some t) :
    t.streaming = s.streaming ∧ t.demodulating = s.demodulating := by
  obtain ⟨-, ⟨rfl, -⟩ | ⟨rfl, -⟩ | ⟨r, -, rfl, -⟩⟩ := workerStep_cases h
  · exact ⟨rfl, rfl⟩
  · exact ⟨rfl, rfl⟩
  · obtain ⟨-, -, -, -, hs, hd, -⟩ := workerDemod_frame s.workerPop r
    exact ⟨hs, hd⟩

/-- An operation that is served moves the switches as its row says. -/
theorem effect_switchMove (hv : served i s) :
    SwitchMove s.streaming s.demodulating (effect i s).streaming (effect i s).demodulating i := by
  cases i
  case engStartStream =>
    obtain ⟨h0, rfl, rfl⟩ := hv
    exact .startStream h0 rfl rfl
  case engStopStream => exact .stopStream hv rfl rfl
  case engStartDemod =>
    obtain ⟨hs, h0⟩ := hv
    exact .startDemod hs hs h0 rfl
  case engStopDemod => exact .stopDemod rfl rfl
  case engWorkerStep =>
    obtain ⟨-, hsome⟩ := hv
    obtain ⟨u, hu⟩ := Option.isSome_iff_exists.1 hsome
    obtain ⟨hs, hd⟩ := workerStep_switches hu
    rw [effect, hu]
    exact .stays _ hs hd
  case engSetConfig n =>
    rw [effect]
    split
    · exact .stays _ rfl rfl
    · rw [applyVolume_reconfigure]
      exact .reconfigure n rfl rfl
  all_goals exact .stays _ rfl rfl

/-- Every operation moves the switches as its row says, or leaves them. -/
theorem exec_switchMove (h : exec i s = .next t) :
    SwitchMove s.streaming s.demodulating t.streaming t.demodulating i := by
  obtain ⟨st, r, -, rfl⟩ | ⟨-, hv, ⟨r, rfl⟩ | ⟨c, -, rfl⟩⟩ := exec_cases h
  · exact .stays i rfl rfl
  · exact effect_switchMove hv
  · exact effect_switchMove hv

/-- An operation that stops the stream neither begins nor ends a callback. -/
theorem exec_playing_of_stops (h : exec i s = .next t) (hi : s.stopsStream i = true) : t.playing = s.playing := by
  obtain ⟨st, r, -, rfl⟩ | ⟨-, -, ⟨r, rfl⟩ | ⟨c, rfl, rfl⟩⟩ := exec_cases h
  · rfl
  · cases i
    case engStopStream => rfl
    case engSetConfig n =>
      rw [State.respond_playing, effect]
      split
      · rfl
      · exact reconfigure_playing _ n
    all_goals cases hi
  · cases hi

/-- R221, R267: a step in which the stream goes down finds no callback in progress, and leaves none. -/
theorem step_stops_without_callback (h : step s = .next t) (hs : s.streaming = true) (ht : t.streaming = false) :
    s.playing = false ∧ t.playing = false := by
  obtain ⟨-, rfl⟩ | ⟨hd, ⟨-, rfl⟩ | ⟨rest, hc, rfl⟩ | ⟨rest, -, rfl⟩ | ⟨a, w, c, rest, i, hc, hi, he⟩ |
    ⟨a, w, c, rest, -, -, rfl⟩⟩ := step_cases h
  · simp [hs] at ht
  · simp [hs] at ht
  · refine ⟨Bool.eq_false_iff.2 fun hp => ?_, rfl⟩
    rw [callbackDue_of_reset hp hc] at hd
    cases hd
  · simp [hs] at ht
  · obtain ⟨hright, hstops⟩ := exec_stops he hs ht
    have hp : s.playing = false := by
      refine Bool.eq_false_iff.2 fun hp => ?_
      rw [(callbackDue_op hc hi).2 ⟨hp, .inr ⟨hright, hstops⟩⟩] at hd
      cases hd
    exact ⟨hp, (exec_playing_of_stops he hstops).trans hp⟩
  · simp [hs] at ht

/-- Settles O56: by the rows of the table, a switch that a row puts down having been up or down before; and by the stops
that wait for a callback. -/
theorem switchesMoveOnlyByTheirOperations : Obligations.SwitchesMoveOnlyByTheirOperations := by
  refine ⟨fun i s t h => ?_, fun s t => step_stops_without_callback⟩
  cases exec_switchMove h with
  | stays _ hs hd => exact ⟨.inl hs, .inl hd⟩
  | startStream h0 h1 hd => exact ⟨.inr (.inl ⟨h0, h1, hd, rfl⟩), .inl hd⟩
  | stopStream h1 h0 hd => exact ⟨.inr (.inr ⟨h1, h0, .inl ⟨rfl, hd⟩⟩), .inl hd⟩
  | startDemod hs hs' h0 h1 => exact ⟨.inl (hs'.trans hs.symm), .inr (.inl ⟨h0, h1, hs, hs', rfl⟩)⟩
  | stopDemod hs h0 =>
    refine ⟨.inl hs, ?_⟩
    cases hd : s.demodulating
    · exact .inl h0
    · exact .inr (.inr ⟨rfl, h0, .inl ⟨rfl, hs⟩⟩)
  | reconfigure n hs hd =>
    constructor
    · cases hs0 : s.streaming
      · exact .inl hs
      · exact .inr (.inr ⟨rfl, hs, .inr ⟨n, rfl, hd⟩⟩)
    · cases hd0 : s.demodulating
      · exact .inl hd
      · exact .inr (.inr ⟨rfl, hd, .inr ⟨n, rfl, hs⟩⟩)

end Machine
end Sys2Proof
end

section
/-!
PROOFS. Commands and the schedule (spec/30_encoding.md R80 to R83, spec/60_exceptions.md R262, log entries 2, 13 and
14): the decoder against the encoder, and the request that a step serves.
-/

namespace Sys2Proof

/-! ### The decoder against the encoder -/

theorem decode_encode (i : Instr) : decode (encode i) = .instr i := by
  cases i with
  | ringPush c => exact Laws.DecodeEncode.ringPush c
  | ringPop => exact Laws.DecodeEncode.ringPop
  | ringClear => exact Laws.DecodeEncode.ringClear
  | outqPush x => exact Laws.DecodeEncode.outqPush x
  | outqPop dst => exact Laws.DecodeEncode.outqPop dst
  | outqClear => exact Laws.DecodeEncode.outqClear
  | codecSync x => exact Laws.DecodeEncode.codecSync x
  | codecDemod x out => exact Laws.DecodeEncode.codecDemod x out
  | codecMod b => exact Laws.DecodeEncode.codecMod b
  | codecType => exact Laws.DecodeEncode.codecType
  | codecNew t r b => exact Laws.DecodeEncode.codecNew t r b
  | pktPush b => exact Laws.DecodeEncode.pktPush b
  | pktFinished => exact Laws.DecodeEncode.pktFinished
  | pktValid => exact Laws.DecodeEncode.pktValid
  | pktChecksum => exact Laws.DecodeEncode.pktChecksum
  | pktNew => exact Laws.DecodeEncode.pktNew
  | pktBuild i f x => exact Laws.DecodeEncode.pktBuild i f x
  | pktqPush p => exact Laws.DecodeEncode.pktqPush p
  | pktqPop => exact Laws.DecodeEncode.pktqPop
  | engStartStream d o => exact Laws.DecodeEncode.engStartStream d o
  | engStopStream => exact Laws.DecodeEncode.engStopStream
  | engStartDemod => exact Laws.DecodeEncode.engStartDemod
  | engStopDemod => exact Laws.DecodeEncode.engStopDemod
  | engCallback c => exact Laws.DecodeEncode.engCallback c
  | engWorkerStep => exact Laws.DecodeEncode.engWorkerStep
  | engTransmit b => exact Laws.DecodeEncode.engTransmit b
  | engSetConfig n => exact Laws.DecodeEncode.engSetConfig n
  | engGetConfig => exact Laws.DecodeEncode.engGetConfig

variable {c : Command} {i : Instr}

/-- An opcode byte is its unit and operation numbers (R80), so these and the operands make the command. -/
theorem encode_eq_of_fields {u o : Nat} (hu : unitOf c.opcode = u) (ho : opOf c.opcode = o)
    (hv : c.operands = i.values) (hi : i.opcode = BitVec.ofNat 8 (16 * u + o)) : encode i = c := by
  have hop : i.opcode = c.opcode := by
    apply BitVec.eq_of_toNat_eq
    have hlt := c.opcode.isLt
    simp only [unitOf, opOf] at hu ho
    rw [hi, BitVec.toNat_ofNat]
    omega
  rw [encode, hop, ← hv]

/-- A command that decodes to an operation is the one that the encoder writes: every branch that answers one is a row of
R81 and R82. -/
theorem encode_of_decode (h : decode c = .instr i) : encode i = c := by
  unfold decode decodeRing decodeOutq decodeCodec decodePkt decodePktq decodeEng at h
  repeat' split at h
  all_goals cases h
  all_goals exact encode_eq_of_fields (by assumption) (by assumption) (by assumption) (by rfl)

/-- Settles O49: by the operation one way, by the unit and the row of the opcode the other. -/
theorem decodeAndEncodeAgree : Obligations.DecodeAndEncodeAgree :=
  ⟨decode_encode, fun _ _ => encode_of_decode⟩

/-- Settles O50: the decoder run on the twelve commands. -/
theorem opcodeBytesDecode : Obligations.OpcodeBytesDecode := by
  unfold Obligations.OpcodeBytesDecode
  decide

namespace Machine

variable {s : State} {a : Agent} {w : Nat} {cmd : Command} {rest : List Request}

/-! ### The request that a step serves -/

theorem callbackDue_of_not_playing (hp : s.playing = false) : s.callbackDue = false := by
  rw [State.callbackDue, hp, Bool.false_and]

/-- A request that decodes to nothing waits for a callback in progress only if it is the CALLBACK's own. -/
theorem callbackDue_of_undecodable (hc : s.cmd = .op a w cmd :: rest) (hd : ∀ i, decode cmd ≠ .instr i)
    (hw : s.playing = false ∨ a ≠ .callback) : s.callbackDue = false := by
  rcases hw with hp | ha
  · exact callbackDue_of_not_playing hp
  · rw [State.callbackDue, hc]
    simp only [State.waits, ha, decide_false, Bool.false_or]
    split
    · next i hi => exact absurd hi (hd i)
    · exact Bool.and_false _
    · exact Bool.and_false _

/-- An operation that does not wait is run, with its request taken (R262). -/
theorem step_op {i : Instr} (hc : s.cmd = .op a w cmd :: rest) (hi : decode cmd = .instr i)
    (hd : s.callbackDue = false) : step s = exec i (s.accept a w rest) := by
  rw [step, hd, hc]
  simp [hi]

/-- A request that decodes to nothing is refused (R83). -/
theorem step_undecodable (hc : s.cmd = .op a w cmd :: rest) (hi : ∀ i, decode cmd ≠ .instr i)
    (hd : s.callbackDue = false) : step s = refuse (s.accept a w rest) := by
  rw [step, hd, hc]
  cases hcmd : decode cmd with
  | instr i => exact absurd hcmd (hi i)
  | reserved op => simp [hcmd]
  | badOperands op => simp [hcmd]

theorem step_reset (hc : s.cmd = .reset :: rest) (hp : s.playing = false) : step s = .next (s.resetWith rest) := by
  rw [step, callbackDue_of_not_playing hp, hc]
  rfl

theorem step_turn (hc : s.cmd = .turn :: rest) (hp : s.playing = false) : step s = .next { s with cmd := rest } := by
  rw [step, callbackDue_of_not_playing hp, hc]
  rfl

theorem step_idle (hc : s.cmd = []) (hp : s.playing = false) : step s = .next s := by
  rw [step, callbackDue_of_not_playing hp, hc]
  rfl

/-- Settles O48: what is no operation's command decodes to nothing, and does not wait for a callback. -/
theorem undecodableRequestsAreRefused : Obligations.UndecodableRequestsAreRefused := by
  intro s a w cmd rest hc hw hi
  have hd : ∀ i, decode cmd ≠ .instr i := fun i h => hi i (encode_of_decode h)
  exact step_undecodable hc hd (callbackDue_of_undecodable hc hd hw)

/-- The operations that stop the stream, from the only agent with the right to them (R221, R231, R263). -/
theorem right_and_stopsStream_iff {i : Instr} :
    a ∈ holders i ∧ s.stopsStream i = true ↔
      a = .caller ∧ (i = .engStopStream ∨
        ∃ n, i = .engSetConfig n ∧ n.legal = true ∧ n ≠ { s.config with inVol := n.inVol, outVol := n.outVol }) := by
  cases i
  case engStopStream => simp [holders, State.stopsStream]
  case engSetConfig n =>
    simp only [holders, State.stopsStream, List.mem_singleton, Bool.and_eq_true, Bool.not_eq_true',
      ← Bool.not_eq_true, sameButVolume_iff]
    simp
  all_goals simp [State.stopsStream]

/-- The step in which a callback ends before a request that waits for it: the request stays, and the rest of the next
state is that of a step with nothing pending. -/
theorem step_ends_callback_first {r : Request} (hc : s.cmd = r :: rest) (hr : r ≠ .turn) (hp : s.playing = true)
    (hd : s.callbackDue = true) :
    ∃ t : State, step s = .next t ∧ t.playing = false ∧ t.cmd = s.cmd ∧
      step { s with cmd := [] } = .next { t with cmd := [] } := by
  refine ⟨s.finishCallback, step_of_callbackDue hd, rfl, ?_,
    step_finishes_callback (s := { s with cmd := [] }) hp (.inl ⟨rfl, rfl⟩)⟩
  rw [State.finishCallback_cmd, hc]
  cases r with
  | op => rfl
  | turn => exact absurd rfl hr
  | reset => rfl

/-- Settles O51: by the oldest request; an operation waits exactly if it is the CALLBACK's or stops the stream. -/
theorem stepServesTheOldestRequest : Obligations.StepServesTheOldestRequest := by
  refine ⟨fun s a w cmd rest i hc hi waits hw => ?_, fun s rest hc => ?_, fun s rest hp hc => step_turn hc hp,
    fun s hp hc => step_idle hc hp⟩
  · have hdue : s.callbackDue = true ↔ s.playing = true ∧ waits := by
      rw [callbackDue_op hc hi, right_and_stopsStream_iff, hw]
    refine ⟨fun h => step_op hc hi (Bool.eq_false_iff.2 fun hd => ?_),
      fun hp hwait => step_ends_callback_first hc (by simp) hp (hdue.2 ⟨hp, hwait⟩)⟩
    obtain ⟨hp, hwait⟩ := hdue.1 hd
    rcases h with h | h
    · rw [hp] at h; cases h
    · exact h hwait
  · exact ⟨step_reset hc, fun hp => step_ends_callback_first hc (by simp) hp (callbackDue_of_reset hp hc)⟩

end Machine
end Sys2Proof
end

section
/-!
PROOFS. The invariant of the block (spec/10_state.md sections 3 to 7): the reset state has it, and every step keeps it.
-/

namespace Sys2Proof
namespace Machine

variable {s t : State}

/-! ### Parts of the invariant -/

theorem legal_iff {c : ModemConfig} :
    c.legal = true ↔ ratesLegal c.sampleRate.toNat c.baud.toNat = true ∧ 1 ≤ c.chunk.toNat ∧ c.codecType ≤ 1 := by
  rw [ModemConfig.legal, Bool.and_eq_true, Bool.and_eq_true, decide_eq_true_eq, decide_eq_true_eq, and_assoc]

theorem withinCap_mono {cap : Option Nat} {m n : Nat} (h : withinCap cap n = true) (hmn : m ≤ n) :
    withinCap cap m = true := by
  cases cap with
  | none => rfl
  | some c => exact decide_eq_true (hmn.trans (of_decide_eq_true h))

theorem withinCap_zero (cap : Option Nat) : withinCap cap 0 = true := by
  cases cap with
  | none => rfl
  | some c => exact decide_eq_true (Nat.zero_le c)

theorem outqWf_nil (P : Params) (chunk : Nat) : OutqWf P chunk [] :=
  ⟨by simp, by simp, withinCap_zero _⟩

theorem pktWf_nil : PktWf [] := .inl rfl

theorem codecOfConfig_const_wf {P : Params} {c : ModemConfig} (hP : ParamsLegal P) (hc : c.legal = true) :
    CodecConstWf P (codecOfConfig P c) := by
  obtain ⟨hrates, -, -⟩ := legal_iff.1 hc
  obtain ⟨hb, hs, hd⟩ := ratesLegal_spec hrates
  exact buildCodec_const_wf hP hb hs hd

theorem ParamsLegal.config0_legal {P : Params} (h : ParamsLegal P) : P.config0.legal = true := by
  obtain ⟨-, -, -, -, -, -, -, -, -, -, -, -, -, -, -, hc⟩ := h
  exact hc

theorem ParamsLegal.ringCap_pos {P : Params} (h : ParamsLegal P) : 1 ≤ P.ringCap := by
  obtain ⟨hcap, -⟩ := h
  exact hcap

theorem Inv.chunk_pos (h : Inv s) : 1 ≤ s.chunkLen := by
  obtain ⟨-, hc, -⟩ := legal_iff.1 h.config
  exact hc

/-! ### Reset -/

theorem init_inv {P : Params} (h : ParamsLegal P) : Inv (State.init P) where
  params := h
  config := h.config0_legal
  ring := Ring.fresh_wf h.ringCap_pos
  outq := outqWf_nil _ _
  codec := codecOfConfig_const_wf h h.config0_legal
  regs := buildCodec_regs_wf ..
  pkt := pktWf_nil
  work := withinCap_zero _
  pend := withinCap_zero _
  pktq := withinCap_zero _
  packets := by simp [State.init]
  held := ⟨rfl, by simp [State.init]⟩
  callback := nofun

/-- The test defaults of R10 are legal. -/
theorem defaultParams_legal : ParamsLegal Config.testParams := by
  refine ⟨by decide, by decide +kernel, ?_⟩
  decide +kernel

/-- Settles O53: every part of the reset state by its own lemma; the test defaults are legal. -/
theorem resetHasTheInvariant : Obligations.ResetHasTheInvariant :=
  ⟨fun _ => init_inv, init_inv defaultParams_legal⟩

/-! ### Updates that keep the invariant

The schedule, the issuer and the ports are no part of it. -/

theorem Inv.respond (h : Inv s) (st : Status) (r : Result) : Inv (s.respond st r) := { h with }

theorem Inv.accept (h : Inv s) (a : Agent) (w : Nat) (rest : List Request) : Inv (s.accept a w rest) := { h with }

theorem Inv.finishCallback (h : Inv s) : Inv s.finishCallback :=
  { h with outq := outqPopped_wf h.outq, callback := nofun }

theorem Inv.resetWith (h : Inv s) (rest : List Request) : Inv (s.resetWith rest) :=
  { init_inv h.params with }

theorem Inv.stopDemod (h : Inv s) : Inv s.stopDemod := { h with ring := ringCleared_wf h.ring }

theorem Inv.stopStream (h : Inv s) (hp : s.playing = false) : Inv s.stopStream :=
  { h with
    ring := ringCleared_wf h.ring
    outq := outqWf_nil _ _
    callback := fun hp' => by rw [State.stopStream_playing, hp] at hp'; cases hp' }

theorem Inv.startDemod (h : Inv s) : Inv s.startDemod :=
  { h with
    ring := ringCleared_wf h.ring
    work := withinCap_zero _
    pend := withinCap_zero _
    pkt := pktWf_nil }

theorem Inv.callbackPush (h : Inv s) (hs : s.streaming = true) {c : List Sample} (hc : c.length = s.chunkLen) :
    Inv (s.callbackPush c) :=
  { h with ring := ringPushed_wf h.ring hc, callback := fun _ => hs }

theorem Inv.outqPushed (h : Inv s) {x : List Sample} (hr : outqRefuses s.params s.chunkLen s.outq x = false) :
    Inv { s with outq := outqPushed s.chunkLen s.outq x } :=
  { h with outq := outqPushed_wf h.chunk_pos h.outq hr }

/-- A codec with the old constants and registers of its own. -/
theorem Inv.with_registers (h : Inv s) {c : Codec} (hc : SameConst c s.codec) (hr : CodecRegsWf c) :
    Inv { s with codec := c } :=
  { h with codec := hc.const_wf h.codec, regs := hr }

theorem Inv.pktqPush (h : Inv s) {p : List Byte} (hp : finished p = true)
    (hcap : withinCap s.params.pktqDepth (s.pktq.length + 1) = true) : Inv { s with pktq := s.pktq ++ [p] } :=
  { h with
    pktq := by rw [List.length_append]; exact hcap
    packets := fun q hq => by
      rcases List.mem_append.1 hq with hq | hq
      · exact h.packets q hq
      · rw [List.mem_singleton.1 hq]; exact hp }

theorem Inv.pktqPop (h : Inv s) : Inv (effect .pktqPop s) := by
  rw [effect]
  cases hq : s.pktq with
  | nil => exact { h with pktq := withinCap_zero _, packets := by simp }
  | cons p r =>
    have hcap := h.pktq
    have hall := h.packets
    rw [hq] at hcap hall
    exact
      { h with
        pktq := withinCap_mono hcap (Nat.le_succ _)
        packets := fun q hq => hall q (List.mem_cons_of_mem _ hq)
        held := by
          refine ⟨Cells.write_wf h.held.1 _ _, fun e he => ?_⟩
          rcases Cells.mem_write he with rfl | he
          · exact hall p (List.mem_cons_self ..)
          · exact h.held.2 e he }

theorem Inv.applyVolume (h : Inv s) (n : ModemConfig) : Inv (s.applyVolume n) := { h with }

/-- A reconfiguration: new buffers if the chunk length changed, and a fresh instance (R231, R118). -/
theorem Inv.reconfigure (h : Inv s) (hp : s.playing = false) {n : ModemConfig} (hn : n.legal = true) :
    Inv ((s.applyVolume n).reconfigure n) := by
  rw [applyVolume_reconfigure]
  exact
    { h with
      config := hn
      ring := by
        show RingWf s.params.ringCap n.chunk.toNat (if _ then _ else _)
        split
        · next hc => rw [hc]; exact ringCleared_wf h.ring
        · exact Ring.fresh_wf h.params.ringCap_pos
      outq := by
        show OutqWf s.params n.chunk.toNat (if _ then _ else _)
        split
        · exact outqWf_nil _ _
        · next hc => rw [not_not.1 (not_or.1 hc).2]; exact h.outq
      codec := codecOfConfig_const_wf h.params hn
      regs := buildCodec_regs_wf ..
      callback := fun hp' => by rw [show s.playing = true from hp'] at hp; cases hp }

/-! ### The worker iteration -/

theorem Inv.workerPop (h : Inv s) (hw : withinCap s.params.workCap s.workerPop.work.length = true) :
    Inv s.workerPop :=
  { h with ring := ringPopped_wf h.ring, work := hw }

theorem Inv.workerSync (h : Inv s) : Inv s.workerSync :=
  { h with
    codec := (codecAfterSync_const ..).const_wf h.codec
    regs := codecAfterSync_regs h.regs _
    work := withinCap_mono h.work (syncScan_suffix ..).length_le }

/-- R226 with a synchronized codec, within the capacities. -/
theorem Inv.workerDemod (h : Inv s) (hs : s.codec.synchronized = true) {r : DemodResult}
    (hr : r = demodSamples s.params s.codec s.work s.pend) (hpend : withinCap s.params.pendCap r.out.length = true)
    (hpktq : withinCap s.params.pktqDepth (s.workerDemod r).pktq.length = true) : Inv (s.workerDemod r) := by
  obtain ⟨hconst, hrest, -⟩ := demodLoop_spec s.params (s.work.length + 1) s.codec s.work s.pend
  have hregs := demodLoop_regs s.params (s.work.length + 1) s.work s.pend h.regs hs
  rw [← demodSamples, ← hr] at hconst hrest hregs
  obtain ⟨fparams, fring, foutq, fconfig, fstreaming, -, -, -, -, fplaying, -, -, -, fheld, fcodec, fwork⟩ :=
    workerDemod_frame s r
  obtain ⟨fpkt, fpend, fpktq⟩ := workerDemod_packet s r
  have fchunk : (s.workerDemod r).chunkLen = s.chunkLen := by rw [State.chunkLen, fconfig, ← State.chunkLen]
  have hframed := pktPushed_wf r.out h.pkt
  constructor
  case params => rw [fparams]; exact h.params
  case config => rw [fconfig]; exact h.config
  case ring => rw [fparams, fring, fchunk]; exact h.ring
  case outq => rw [fparams, foutq, fchunk]; exact h.outq
  case codec => rw [fparams, fcodec]; exact hconst.const_wf h.codec
  case regs => rw [fcodec]; exact hregs
  case pkt =>
    rw [fpkt]
    split
    · exact pktWf_nil
    · exact hframed
  case work => rw [fparams, fwork]; exact withinCap_mono h.work hrest.length_le
  case pend =>
    rw [fparams, fpend]
    split
    · exact withinCap_zero _
    · exact withinCap_mono hpend (pktPushed_left_length _ _)
  case pktq => rw [fparams]; exact hpktq
  case packets =>
    rw [fpktq]
    split
    · next hf =>
      intro p hp
      rcases List.mem_append.1 hp with hp | hp
      · exact h.packets p hp
      · rw [List.mem_singleton.1 hp]; exact hf
    · exact h.packets
  case held => rw [fheld]; exact h.held
  case callback => rw [fplaying, fstreaming]; exact h.callback

theorem Inv.workerStep (h : Inv s) (ht : s.workerStep = some t) : Inv t := by
  obtain ⟨hw, ⟨rfl, -⟩ | ⟨rfl, -⟩ | ⟨r, hr, rfl, -, hs, hpend, hpktq⟩⟩ := workerStep_cases ht
  · exact h.workerPop hw
  · exact (h.workerPop hw).workerSync
  · exact (h.workerPop hw).workerDemod hs hr hpend hpktq

/-! ### Operations and steps -/

/-- An operation that is served keeps the invariant, a stop of the stream finding no callback in progress. -/
theorem Inv.effect {i : Instr} (h : Inv s) (hv : served i s) (hstop : s.stopsStream i = true → s.playing = false) :
    Inv (effect i s) := by
  cases i
  case ringPush c => exact { h with ring := ringPushed_wf h.ring hv }
  case ringPop => exact { h with ring := ringPopped_wf h.ring }
  case ringClear => exact { h with ring := ringCleared_wf h.ring }
  case outqPush x => exact h.outqPushed hv
  case outqPop dst => exact { h with outq := outqPopped_wf h.outq }
  case outqClear => exact { h with outq := outqWf_nil _ _ }
  case codecSync x => exact h.with_registers (codecAfterSync_const ..) (codecAfterSync_regs h.regs _)
  case codecDemod x out =>
    obtain ⟨hconst, -⟩ := demodLoop_spec s.params (x.length + 1) s.codec x out
    exact h.with_registers hconst (demodLoop_regs _ _ x out h.regs hv)
  case codecNew k r b =>
    obtain ⟨-, -, -, hrates⟩ := hv
    obtain ⟨hb, hr, hd⟩ := ratesLegal_spec hrates
    exact { h with codec := buildCodec_const_wf h.params hb hr hd, regs := buildCodec_regs_wf .. }
  case pktPush b => exact { h with pkt := pktPushed_wf b h.pkt }
  case pktNew => exact { h with pkt := pktWf_nil }
  case pktqPush p => exact h.pktqPush hv.1 hv.2
  case pktqPop => exact h.pktqPop
  case engStartStream d o => exact { h with callback := fun _ => rfl }
  case engStopStream => exact h.stopStream (hstop rfl)
  case engStartDemod => exact h.startDemod
  case engStopDemod => exact h.stopDemod
  case engCallback c =>
    obtain ⟨hs, -, hc⟩ := hv
    exact h.callbackPush hs hc
  case engWorkerStep =>
    obtain ⟨u, hu⟩ := Option.isSome_iff_exists.1 hv.2
    rw [Machine.effect, hu]
    exact h.workerStep hu
  case engTransmit b => exact h.outqPushed hv.2
  case engSetConfig n =>
    have hn : n.legal = true := hv
    rw [Machine.effect]
    split
    · exact h.applyVolume n
    · next hdiff => exact h.reconfigure (hstop (by simp [State.stopsStream, hn, hdiff])) hn
  all_goals exact h

theorem Inv.exec {i : Instr} (h : Inv s) (he : exec i s = .next t)
    (hstop : s.issuer ∈ holders i → s.stopsStream i = true → s.playing = false) : Inv t := by
  obtain ⟨st, r, -, rfl⟩ | ⟨hi, hv, ⟨r, rfl⟩ | ⟨c, -, rfl⟩⟩ := exec_cases he
  · exact h.respond st r
  · exact (h.effect hv (hstop hi)).respond _ _
  · exact h.effect hv (hstop hi)

/-- Outside a callback's second access, a request that stops the stream finds no callback in progress. -/
theorem not_playing_of_stops {a : Agent} {w : Nat} {cmd : Command} {rest : List Request} {i : Instr}
    (hc : s.cmd = .op a w cmd :: rest) (hi : decode cmd = .instr i) (hd : s.callbackDue = false)
    (ha : a ∈ holders i) (hstop : s.stopsStream i = true) : s.playing = false := by
  refine Bool.eq_false_iff.2 fun hp => ?_
  rw [(callbackDue_op hc hi).2 ⟨hp, .inr ⟨ha, hstop⟩⟩] at hd
  cases hd

theorem Inv.step (h : Inv s) (ht : step s = .next t) : Inv t := by
  obtain ⟨-, rfl⟩ | ⟨hd, ⟨-, rfl⟩ | ⟨rest, -, rfl⟩ | ⟨rest, -, rfl⟩ | ⟨a, w, c, rest, i, hc, hi, he⟩ |
    ⟨a, w, c, rest, -, -, rfl⟩⟩ := step_cases ht
  · exact h.finishCallback
  · exact h
  · exact h.resetWith rest
  · exact { h with }
  · refine (h.accept a w rest).exec he fun ha hstop => not_playing_of_stops (s := s) hc hi hd ha hstop
  · exact (h.accept a w rest).respond _ _

/-- Settles O52: by what a step can do, an operation by its effect. -/
theorem everyStepKeepsTheInvariant : Obligations.EveryStepKeepsTheInvariant := fun _ _ => Inv.step

end Machine
end Sys2Proof
end

section
/-!
PROOFS. Synchronize and demodulate (spec/41_codec_common.md R133, R134, R140 to R142, R146): what each computes of a
window, the phases and turns of their loops, and what the two operations answer.
-/

namespace Sys2Proof
namespace Machine

variable {s : State} {P : Params} {c : Codec}

/-! ### What is computed of a window -/

theorem sq_eq_pow (a : Int) : sq a = a ^ 2 := (pow_two a).symm

/-- R134 with `THRESH` one half. -/
theorem above_iff {w : List Sample} :
    above P c w = true ↔ ((c.symLen * c.fullScale * P.tabOne : Nat) : Int) ^ 2 < 16 * power2 c w := by
  simp [above, scale2, sq_eq_pow, Config.threshNum, Config.threshDen]

theorem below_iff {w : List Sample} :
    below P c w = true ↔ 16 * power2 c w < ((c.symLen * c.fullScale * P.tabOne : Nat) : Int) ^ 2 := by
  simp [below, scale2, sq_eq_pow, Config.threshNum, Config.threshDen]

theorem confirm_fsk (hk : c.kind = .fsk) {w : List Sample} : confirm c w = true ↔ lowMag2 c w < highMag2 c w := by
  rw [confirm, hk]
  exact decide_eq_true_iff

theorem confirm_qpsk (hk : c.kind = .qpsk) {w : List Sample} :
    confirm c w = true ↔ cosComp c w < 0 ∧ sinComp c w < 0 := by
  rw [confirm, hk]
  simp

theorem power2_fsk (hk : c.kind = .fsk) (w : List Sample) : power2 c w = max (lowMag2 c w) (highMag2 c w) := by
  rw [power2, hk]

theorem power2_qpsk (hk : c.kind = .qpsk) (w : List Sample) :
    power2 c w = cosComp c w ^ 2 + sinComp c w ^ 2 := by
  rw [power2, hk, ← sq_eq_pow, ← sq_eq_pow]

theorem decideBits_fsk (hk : c.kind = .fsk) (w : List Sample) :
    decideBits c w = [decide (lowMag2 c w < highMag2 c w)] := by
  rw [decideBits, hk]

theorem decideBits_qpsk (hk : c.kind = .qpsk) (w : List Sample) :
    decideBits c w = [decide (cosComp c w < 0), decide (sinComp c w < 0)] := by
  rw [decideBits, hk]

theorem CodecConstWf.symLen_pos (h : CodecConstWf P c) : 1 ≤ c.symLen := by
  obtain ⟨hL, -⟩ := h
  exact hL

/-- The four tables of an FSK instance have `L` entries. -/
theorem CodecConstWf.fsk_lengths (h : CodecConstWf P c) (hk : c.kind = .fsk) :
    c.tables.cosL.length = c.symLen ∧ c.tables.sinL.length = c.symLen ∧ c.tables.cosH.length = c.symLen ∧
      c.tables.sinH.length = c.symLen := by
  obtain ⟨-, -, -, -, ht⟩ := h
  rw [TablesWf, hk] at ht
  obtain ⟨⟨h1, -⟩, ⟨h2, -⟩, ⟨h3, -⟩, ⟨h4, -⟩⟩ := ht
  exact ⟨h1, h2, h3, h4⟩

/-- The two tables of a QPSK instance have `L` entries. -/
theorem CodecConstWf.qpsk_lengths (h : CodecConstWf P c) (hk : c.kind = .qpsk) :
    c.tables.cosC.length = c.symLen ∧ c.tables.sinC.length = c.symLen := by
  obtain ⟨-, -, -, -, ht⟩ := h
  rw [TablesWf, hk] at ht
  obtain ⟨⟨h1, -⟩, ⟨h2, -⟩⟩ := ht
  exact ⟨h1, h2⟩

/-- Over one symbol the entry `k mod L` is entry `k`. -/
theorem corr_symbol_eq_sum {x : List Sample} {T : List Int} (hx : c.symLen ≤ x.length) (hT : T.length = c.symLen) :
    corr x c.symLen T = ((List.range c.symLen).map fun k => (x.getD k 0).toInt * T.getD k 0).sum := by
  rw [corr_eq_sum x c.symLen T hx]
  refine congrArg List.sum (List.map_congr_left fun k hk => ?_)
  rw [hT, Nat.mod_eq_of_lt (List.mem_range.1 hk)]

/-! ### The phases of a synchronize -/

section
variable {w x : List Sample} (hL : 1 ≤ c.symLen)
include hL

/-- Phase 1 passes over the offsets below the threshold (R140). -/
theorem syncSamples_skip {k : Nat} (hscan : ∀ k', k' < k → k' * c.symLen + c.minWin < x.length)
    (hlow : ∀ k', k' < k → above P c (x.drop (k' * c.symLen)) = false) :
    syncSamples P c x = syncSamples P c (x.drop (k * c.symLen)) := by
  induction k with
  | zero => rw [Nat.zero_mul, List.drop_zero]
  | succ k ih =>
    have hlen : c.minWin < (x.drop (k * c.symLen)).length := by
      have := hscan k (Nat.lt_succ_self k)
      rw [List.length_drop]; omega
    rw [ih (fun k' h => hscan k' (Nat.lt_succ_of_lt h)) (fun k' h => hlow k' (Nat.lt_succ_of_lt h)),
      syncSamples_eq hL, if_pos hlen, if_neg (Bool.eq_false_iff.1 (hlow k (Nat.lt_succ_self k))), List.drop_drop,
      Nat.succ_mul]

/-- Phase 1 ends unlocked when too few samples are left (R140). -/
theorem syncSamples_not_found {k : Nat} (hend : x.length ≤ k * c.symLen + c.minWin)
    (hscan : ∀ k', k' < k → k' * c.symLen + c.minWin < x.length)
    (hlow : ∀ k', k' < k → above P c (x.drop (k' * c.symLen)) = false) :
    syncSamples P c x = { locked := false, rest := x.drop (k * c.symLen) } := by
  rw [syncSamples_skip hL hscan hlow, syncSamples_eq hL, if_neg]
  rw [List.length_drop]; omega

/-- Phases 1 and 2: the first offset above the threshold, moved on to the first maximum of the discriminant (R140). -/
theorem syncSamples_found {k d : Nat} (hlen : k * c.symLen + c.minWin < x.length)
    (hlow : ∀ k', k' < k → above P c (x.drop (k' * c.symLen)) = false)
    (habove : above P c (x.drop (k * c.symLen)) = true) (hd : d < c.symLen)
    (hmax : ∀ d', d' < c.symLen → disc c (x.drop (k * c.symLen + d')) ≤ disc c (x.drop (k * c.symLen + d)))
    (hfirst : ∀ d', d' < d → disc c (x.drop (k * c.symLen + d')) < disc c (x.drop (k * c.symLen + d))) :
    syncSamples P c x = confirmFrom c (x.drop (k * c.symLen + d)) := by
  have hscan : ∀ k', k' < k → k' * c.symLen + c.minWin < x.length := fun k' hk =>
    Nat.lt_of_le_of_lt (Nat.add_le_add_right (Nat.mul_le_mul_right _ (Nat.le_of_lt hk)) _) hlen
  have hrefine : refine c (x.drop (k * c.symLen)) = d :=
    refine_eq hd (fun d' h => by simpa only [List.drop_drop] using hmax d' h)
      (fun d' h => by simpa only [List.drop_drop] using hfirst d' h)
  rw [syncSamples_skip hL hscan hlow, syncSamples_eq hL, if_pos (by rw [List.length_drop]; omega), if_pos habove,
    hrefine, List.drop_drop]

/-- Phase 3 passes over the symbols that are no start symbol (R140). -/
theorem confirmFrom_skip {q : Nat} (hlen : q * c.symLen ≤ w.length)
    (hno : ∀ q', q' < q → confirm c (w.drop (q' * c.symLen)) = false) :
    confirmFrom c w = confirmFrom c (w.drop (q * c.symLen)) := by
  induction q with
  | zero => rw [Nat.zero_mul, List.drop_zero]
  | succ q ih =>
    rw [Nat.succ_mul] at hlen
    have hsym : c.symLen ≤ (w.drop (q * c.symLen)).length := by rw [List.length_drop]; omega
    rw [ih (by omega) (fun q' h => hno q' (Nat.lt_succ_of_lt h)), confirmFrom_eq hL, if_pos hsym,
      if_neg (Bool.eq_false_iff.1 (hno q (Nat.lt_succ_self q))), List.drop_drop, Nat.succ_mul]

/-- Phase 3 locks behind the first start symbol (R140). -/
theorem confirmFrom_locks {q : Nat} (hlen : q * c.symLen + c.symLen ≤ w.length)
    (hno : ∀ q', q' < q → confirm c (w.drop (q' * c.symLen)) = false)
    (hyes : confirm c (w.drop (q * c.symLen)) = true) :
    confirmFrom c w = { locked := true, rest := w.drop (q * c.symLen + c.symLen) } := by
  rw [confirmFrom_skip hL (by omega) hno, confirmFrom_eq hL, if_pos (by rw [List.length_drop]; omega), if_pos hyes,
    List.drop_drop]

/-- Phase 3 ends unlocked when no whole symbol is left (R140). -/
theorem confirmFrom_runs_out {q : Nat} (hlen : q * c.symLen ≤ w.length) (hend : w.length < q * c.symLen + c.symLen)
    (hno : ∀ q', q' < q → confirm c (w.drop (q' * c.symLen)) = false) :
    confirmFrom c w = { locked := false, rest := w.drop (q * c.symLen) } := by
  rw [confirmFrom_skip hL hlen hno, confirmFrom_eq hL, if_neg]
  rw [List.length_drop]; omega

end

/-- Settles O11: the sums of R133 in the five primitives, and the three phases one after the other. -/
theorem syncRunsTheThreePhases : Obligations.SyncRunsTheThreePhases := by
  refine ⟨fun P c x S hc hS => ?_, fun P c x k hL _ hlow => ⟨fun hend hscan =>
    syncSamples_not_found hL hend hscan hlow, fun d q hlen habove hd hmax hfirst hno => ?_⟩⟩
  · have hcorr : ∀ n T, n ≤ x.length → T.length = c.symLen → corr x n T = S n T := fun n T hn hT => by
      rw [corr_eq_sum x n T hn, hT, hS]
    refine ⟨fun hk => ?_, fun hk => ?_⟩
    · obtain ⟨h1, h2, h3, h4⟩ := hc.fsk_lengths hk
      refine ⟨fun hx => ?_, fun hx => ?_⟩
      · rw [above_iff, confirm_fsk hk, power2_fsk hk, lowMag2, highMag2, hcorr _ _ hx h1, hcorr _ _ hx h2,
          hcorr _ _ hx h3, hcorr _ _ hx h4, sq_eq_pow, sq_eq_pow, sq_eq_pow, sq_eq_pow]
        exact ⟨Iff.rfl, Iff.rfl⟩
      · rw [disc, hk, ← hcorr _ _ hx h1, ← hcorr _ _ hx h2]
    · obtain ⟨h1, h2⟩ := hc.qpsk_lengths hk
      refine ⟨fun hx => ?_, fun hx => ?_⟩
      · rw [above_iff, confirm_qpsk hk, power2_qpsk hk, cosComp, sinComp, hcorr _ _ hx h1, hcorr _ _ hx h2]
        exact ⟨Iff.rfl, Iff.rfl⟩
      · rw [disc, hk, ← hcorr _ _ hx h1, ← hcorr _ _ hx h2]
  · have hno' : ∀ q', q' < q → confirm c ((x.drop (k * c.symLen + d)).drop (q' * c.symLen)) = false := by
      intro q' h
      rw [List.drop_drop]
      exact hno q' h
    rw [syncSamples_found hL hlen hlow habove hd hmax hfirst]
    refine ⟨fun hj hyes => ?_, fun hj hend => ?_⟩
    · rw [confirmFrom_locks hL (by rw [List.length_drop]; omega) hno' (by rw [List.drop_drop]; exact hyes),
        List.drop_drop, Nat.add_assoc (k * c.symLen + d)]
    · rw [confirmFrom_runs_out hL (by rw [List.length_drop]; omega) (by rw [List.length_drop]; omega) hno',
        List.drop_drop]

/-- A synchronized instance is not synchronized again (D18). -/
theorem exec_codecSync_refused {x : List Sample} (hs : s.codec.synchronized = true) :
    exec (.codecSync x) s = refuse s := by
  rw [exec, execCodecSync, if_pos hs, withRight, ite_self]

theorem exec_codecSync {x : List Sample} (hi : s.issuer = .worker) (hs : s.codec.synchronized = false) :
    exec (.codecSync x) s =
      done { s with codec := codecAfterSync s.codec (syncSamples s.params s.codec x) }
        (.sync (syncSamples s.params s.codec x).locked (syncSamples s.params s.codec x).rest) := by
  rw [exec, execCodecSync, withRight_of_mem (by simp [hi, holders]), hs]
  rfl

/-- On an unsynchronized instance the flag is the lock (R140). -/
theorem codecAfterSync_of_unsynchronized (hs : c.synchronized = false) (r : SyncResult) :
    codecAfterSync c r = { c with synchronized := r.locked } := by
  rw [codecAfterSync, hs, Bool.false_or]

/-- Settles O12: the two cases of D18; what is left is a rest of the input. -/
theorem codecSyncSetsTheFlagOnLock : Obligations.CodecSyncSetsTheFlagOnLock := by
  refine fun s x hi => ⟨rfl, exec_codecSync_refused, fun hs => ⟨_, rfl, syncScan_suffix .., ?_⟩⟩
  rw [exec_codecSync hi hs, codecAfterSync_of_unsynchronized hs]
  rfl

/-- The number of scanned offsets of `n` samples: there is a first one with at most `MIN_WIN` samples left. -/
theorem exists_scanned (hL : 1 ≤ c.symLen) (n : Nat) :
    ∃ k, n ≤ k * c.symLen + c.minWin ∧ ∀ k', k' < k → k' * c.symLen + c.minWin < n := by
  have hex : ∃ k, n ≤ k * c.symLen + c.minWin := ⟨n, Nat.le_add_right_of_le (Nat.le_mul_of_pos_right n hL)⟩
  classical
  exact ⟨Nat.find hex, Nat.find_spec hex, fun k' h => Nat.not_le.1 (Nat.find_min hex h)⟩

/-- Settles O13: silence is never above the threshold, so every scanned offset is passed over. -/
theorem silenceNeverLocks : Obligations.SilenceNeverLocks := by
  intro P c n hc
  have hL := hc.symLen_pos
  have hdrop : ∀ m, (zeros n).drop m = zeros (n - m) := fun m => List.drop_replicate
  have hlen : (zeros n).length = n := List.length_replicate
  obtain ⟨k, hend, hscan⟩ := exists_scanned hL n
  refine ⟨k, ?_, hend, hscan⟩
  have hlow : ∀ k', k' < k → above P c ((zeros n).drop (k' * c.symLen)) = false := fun k' _ => by
    rw [hdrop]
    exact above_zeros P c _
  rw [syncSamples_not_found hL (by rwa [hlen]) (by rwa [hlen]) hlow, hdrop]

/-! ### Demodulate -/

theorem accumulate_bitVal (c : Codec) (b : Bool) :
    (accumulate c b).bitVal.toNat = (2 * c.bitVal.toNat + b.toNat) % 256 := by
  have key : ∀ (v : BitVec 8) (b : Bool),
      ((v <<< 1) ||| (if b then 1 else 0)).toNat = (2 * v.toNat + b.toNat) % 256 := by decide +kernel
  exact key c.bitVal b

/-- The bits of a byte, most significant first (R63). -/
def bitsOf (v : Byte) : List Bool := (List.range 8).map fun j => v.getLsbD (7 - j)

/-- The bit that is shifted in (R141) stands at position 0. -/
theorem getElem_insertedBit (b : Bool) {i : Nat} (hi : i < 8) :
    (if b then 1#8 else 0#8)[i] = (b && decide (i = 0)) := by
  cases b <;> simp

/-- Eight bits push out what the accumulator held before. -/
theorem accumulateAll_bitsOf (c : Codec) (v : Byte) : (accumulateAll c (bitsOf v)).bitVal = v := by
  simp only [bitsOf, accumulateAll, List.range_succ, List.range_zero, List.nil_append, List.cons_append, List.map_cons,
    List.map_nil, List.foldl_cons, List.foldl_nil, accumulate]
  ext i hi
  interval_cases i <;> simp [getElem_insertedBit]

/-- Settles O14: one bit by the shift, the byte bit by bit. -/
theorem bitAccumulatorShiftsFromTheRight : Obligations.BitAccumulatorShiftsFromTheRight := by
  refine ⟨fun c b => ⟨accumulate_bitVal c b, rfl⟩, fun c v hc => ⟨accumulateAll_bitsOf c v, ?_⟩⟩
  rw [accumulateAll_bitCnt, hc, List.length_map, List.length_range]

/-- Settles O15: the sums of R133 in the threshold and the decision, and the turn of the loop by its exits. -/
theorem demodRunsSymbolBySymbol : Obligations.DemodRunsSymbolBySymbol := by
  refine ⟨fun P c x S hc hx hS => ?_, fun P c x out hL hM => ?_⟩
  · have hcorr : ∀ T, T.length = c.symLen → corr x c.symLen T = S T := fun T hT => by
      rw [corr_symbol_eq_sum hx hT, hS]
    refine ⟨fun hk => ?_, fun hk => ?_⟩
    · obtain ⟨h1, h2, h3, h4⟩ := hc.fsk_lengths hk
      rw [below_iff, decideBits_fsk hk, power2_fsk hk, lowMag2, highMag2, hcorr _ h1, hcorr _ h2, hcorr _ h3,
        hcorr _ h4, sq_eq_pow, sq_eq_pow, sq_eq_pow, sq_eq_pow]
      exact ⟨Iff.rfl, by simp⟩
    · obtain ⟨h1, h2⟩ := hc.qpsk_lengths hk
      rw [below_iff, decideBits_qpsk hk, power2_qpsk hk, cosComp, sinComp, hcorr _ h1, hcorr _ h2]
      exact ⟨Iff.rfl, by simp⟩
  · have hturn := demodSamples_eq (P := P) hL (by omega : 1 ≤ c.minWin) x out
    refine ⟨fun hlen => ?_, fun hlen hb => ?_, fun c1 hlen hb hc1 =>
      ⟨fun h8 => ?_, fun h8 h128 => ?_, fun h8 h128 => ?_⟩⟩
    · rw [hturn, if_neg (Nat.not_le.2 hlen)]
    · rw [hturn, if_pos hlen, if_pos hb, clearSync]
    all_goals
      rw [← accumulateAll] at hc1
      rw [hturn, if_pos hlen, hb, ← hc1]
    · rw [if_neg h8]; rfl
    · rw [if_pos h8, if_neg h128]; rfl
    · rw [if_pos h8, if_pos h128]; rfl

/-- An unsynchronized instance demodulates nothing (D18). -/
theorem exec_codecDemod_refused {x : List Sample} {out : List Byte} (hs : s.codec.synchronized = false) :
    exec (.codecDemod x out) s = refuse s := by
  rw [exec, execCodecDemod, hs, withRight]
  exact ite_self _

theorem exec_codecDemod {x : List Sample} {out : List Byte} (hi : s.issuer = .worker)
    (hs : s.codec.synchronized = true) :
    exec (.codecDemod x out) s =
      done { s with codec := (demodSamples s.params s.codec x out).codec }
        (.demod (demodSamples s.params s.codec x out).lost (demodSamples s.params s.codec x out).rest
          (demodSamples s.params s.codec x out).out) := by
  rw [exec, execCodecDemod, withRight_of_mem (by simp [hi, holders]), if_pos hs]

/-- Settles O16: what a demodulation keeps and answers. -/
theorem codecDemodAppendsAndClearsOnLoss : Obligations.CodecDemodAppendsAndClearsOnLoss := by
  refine fun s x out hi => ⟨rfl, exec_codecDemod_refused, fun hs => ⟨_, rfl, exec_codecDemod hi hs, ?_⟩⟩
  obtain ⟨hconst, hrest, hout, hlost⟩ := demodLoop_spec s.params (x.length + 1) s.codec x out
  refine ⟨hconst, hrest, hout, fun h => ?_⟩
  obtain ⟨hclear, hlen, hbelow⟩ := hlost h
  rw [demodSamples, hclear]
  exact ⟨rfl, rfl, rfl, rfl, hlen, hbelow⟩

end Machine
end Sys2Proof
end

section
/-!
PROOFS. The link (spec/41_codec_common.md R143 to R145): a byte's symbols, the samples of a waveform, and the round trip
of modulated bytes.
-/

namespace Sys2Proof
namespace Machine

variable {P : Params} {c d : Codec}

/-! ### The symbols of a byte -/

/-- Settles O18: the bit groups of a byte, written out for each size. -/
theorem bytesGoOutMostSignificantBitFirst : Obligations.BytesGoOutMostSignificantBitFirst := by
  refine fun P c v => ⟨fun h => ?_, fun h => ?_⟩
  · simp [byteSymbols, bitGroups, bitGroup, h, List.range_succ]
  · simp [byteSymbols, bitGroups, bitGroup, h, List.range_succ]

theorem bitGroups_flatten {bps : Nat} (h : bps = 1 ∨ bps = 2) (v : Byte) : (bitGroups bps v).flatten = bitsOf v := by
  rcases h with rfl | rfl <;> simp [bitGroups, bitGroup, bitsOf, List.range_succ]

theorem length_of_mem_bitGroups {bps : Nat} {v : Byte} {g : List Bool} (h : g ∈ bitGroups bps v) :
    g.length = bps := by
  simp only [bitGroups, List.mem_map] at h
  obtain ⟨k, -, rfl⟩ := h
  simp [bitGroup]

theorem CodecConstWf.bps_eq (h : CodecConstWf P c) : c.bps = bpsOf c.kind := by
  obtain ⟨-, -, hbps, -⟩ := h
  exact hbps

/-- A symbol carries one bit or two (R11). -/
theorem CodecConstWf.bps_cases (h : CodecConstWf P c) : c.bps = 1 ∨ c.bps = 2 := by
  rw [h.bps_eq]
  cases c.kind
  · exact .inl rfl
  · exact .inr rfl

theorem CodecConstWf.minWin_pos (h : CodecConstWf P c) : 1 ≤ c.minWin := by
  obtain ⟨hL, hM, -⟩ := h
  simp only [hM, Config.minWinSyms]
  omega

/-! ### The samples of a waveform -/

theorem fullScaleOf_le (h : ParamsLegal P) (k : CodecType) : 0 < fullScaleOf P k ∧ fullScaleOf P k ≤ 32768 := by
  obtain ⟨-, -, hF, hQ, -⟩ := h
  cases k <;> simp only [fullScaleOf] <;> omega

/-- A sample stands for its exact value when that fits (R144). -/
theorem toSample_toInt {v : Int} (h : |v| < 29492) : (toSample v).toInt = v := by
  obtain ⟨hlo, hhi⟩ := abs_lt.1 h
  rw [toSample, if_pos (by omega), BitVec.toInt_ofInt, Int.bmod_eq_of_le] <;> omega

/-- Truncation toward zero makes a magnitude no larger. -/
theorem abs_tdiv_lt {a : Int} {b n : Nat} (h : |a| < n * b) : |a.tdiv b| < n := by
  rw [Int.abs_eq_natAbs] at h ⊢
  have hnat : a.natAbs < n * b := by exact_mod_cast h
  rw [Int.natAbs_tdiv, Int.natAbs_natCast]
  exact_mod_cast Nat.div_lt_of_lt_mul (by rwa [Nat.mul_comm])

/-- The product of R176 before truncation, for a combination `m` of the tables that stays in `[−1, 1]` up to one part
in 40000. -/
theorem qpsk_product_lt {fs k den tab : Nat} {m : Int} (hfs : fs ≤ 32768) (hden : 1 ≤ den) (htab : 1 ≤ tab)
    (hm : 0 ≤ m) (h : 40000 * (k : Int) * m ≤ 40001 * den * tab) :
    9 * (fs : Int) * k * m < 29492 * (10 * den * tab) := by
  have hscale : (1 : Int) ≤ den * tab := by exact_mod_cast Nat.mul_pos hden htab
  have hprod : (fs : Int) * (k * m) ≤ 32768 * (k * m) :=
    mul_le_mul_of_nonneg_right (by exact_mod_cast hfs) (by positivity)
  calc 9 * (fs : Int) * k * m = 9 * (fs * (k * m)) := by ring
    _ ≤ 9 * (32768 * (k * m)) := by linarith
    _ < 294920 * (den * tab) := by linarith
    _ = 29492 * (10 * den * tab) := by ring

/-- Settles O19: both magnitudes are below 29492 before truncation, full scale being at most 32768. -/
theorem waveSamplesAreTruncatedAndFit : Obligations.WaveSamplesAreTruncatedAndFit := by
  intro P c hP hc
  obtain ⟨hfs0, hfs⟩ := fullScaleOf_le hP c.kind
  obtain ⟨-, -, -, hfull, htables⟩ := hc
  rw [← hfull] at hfs hfs0
  obtain ⟨-, -, -, -, hT, -, hK, hD, -⟩ := hP
  refine ⟨fun hk b k t ht => ?_, fun hk b1 b0 k u v hu hv huv => ?_⟩
  · rw [TablesWf, hk] at htables
    obtain ⟨⟨-, hlow⟩, -, ⟨-, hhigh⟩, -⟩ := htables
    have hbound : |t| ≤ P.tabOne := by
      have hmem := List.mem_of_getElem? ht
      cases b
      · exact abs_le.2 (hlow t hmem)
      · exact abs_le.2 (hhigh t hmem)
    have habs : |((9 * c.fullScale : Nat) : Int) * t| < (29492 : Nat) * ((10 * P.tabOne : Nat) : Int) := by
      rw [abs_mul, Nat.abs_cast]
      push_cast
      nlinarith [abs_nonneg t]
    have hfit := abs_tdiv_lt habs
    refine ⟨fskSample P c t, ?_, ?_⟩
    · rw [wave, hk]
      simp [ht]
    · rw [fskSample, toSample_toInt hfit]
      exact ⟨by push_cast; rfl, hfit⟩
  · have habs : |((9 * c.fullScale * P.qpskKNum : Nat) : Int) * (signOf b1 * u + signOf b0 * v)| <
        (29492 : Nat) * ((10 * P.qpskKDen * P.tabOne : Nat) : Int) := by
      rw [abs_mul, Nat.abs_cast]
      push_cast
      exact qpsk_product_lt hfs hD hT (abs_nonneg _) huv
    have hfit := abs_tdiv_lt habs
    refine ⟨qpskSample P c b1 b0 u v, ?_, ?_⟩
    · rw [wave, hk]
      simp [List.getElem?_zipWith, hu, hv]
    · rw [qpskSample, toSample_toInt hfit]
      exact ⟨by push_cast; rfl, hfit⟩

/-! ### What an instance decides depends on its constants alone -/

theorem SameConst.trans {a b e : Codec} (h : SameConst a b) (h' : SameConst b e) : SameConst a e := by
  obtain ⟨h1, h2, h3, h4, h5, h6⟩ := h
  obtain ⟨g1, g2, g3, g4, g5, g6⟩ := h'
  exact ⟨h1.trans g1, h2.trans g2, h3.trans g3, h4.trans g4, h5.trans g5, h6.trans g6⟩

theorem SameConst.symLen_eq (h : SameConst d c) : d.symLen = c.symLen := by
  obtain ⟨-, hL, -⟩ := h
  exact hL

theorem SameConst.minWin_eq (h : SameConst d c) : d.minWin = c.minWin := by
  obtain ⟨-, -, hM, -⟩ := h
  exact hM

theorem SameConst.bps_eq (h : SameConst d c) : d.bps = c.bps := by
  obtain ⟨-, -, -, -, hbps, -⟩ := h
  exact hbps

theorem SameConst.wave_eq (h : SameConst d c) : wave P d = wave P c := by
  rw [h.eq_with]
  rfl

theorem SameConst.preamble_eq (h : SameConst d c) : preamble P d = preamble P c := by
  rw [h.eq_with]
  rfl

theorem SameConst.suitable (h : SameConst d c) (hs : Suitable P c) : Suitable P d := by
  rw [h.eq_with]
  exact ⟨hs.apart, hs.decides, hs.loud, hs.aligned⟩

/-- An instance with the constants of `c` that is ready for a synchronize: no bits held, no bytes counted (R34). -/
def Ready (c d : Codec) : Prop := SameConst d c ∧ d.synchronized = false ∧ d.bitCnt = 0 ∧ d.byteCnt = 0

theorem Ready.clearSync (h : Ready c d) : Ready c (clearSync d) := ⟨h.1, rfl, rfl, rfl⟩

/-! ### The receiver's instance on what is sent -/

section
variable (hc : CodecConstWf P c) (hs : Suitable P c)
include hc

theorem take_wave_append (bits : List Bool) (w : List Sample) :
    (wave P c bits ++ w).take c.symLen = wave P c bits :=
  List.take_left' (wave_length hc bits)

theorem drop_wave_append (bits : List Bool) (w : List Sample) : (wave P c bits ++ w).drop c.symLen = w :=
  List.drop_left' (wave_length hc bits)

include hs

theorem above_wave_append {bits : List Bool} (hb : bits.length = c.bps) (w : List Sample) :
    above P c (wave P c bits ++ w) = true := by
  rw [← above_take, take_wave_append hc, hs.loud bits hb]

theorem decideBits_wave_append {bits : List Bool} (hb : bits.length = c.bps) (w : List Sample) :
    decideBits c (wave P c bits ++ w) = bits := by
  rw [← decideBits_take, take_wave_append hc, hs.decides bits hb]

omit hc hs in
/-- A window is a start symbol's exactly if every bit decided is 1 (R154, R174). -/
theorem confirm_iff_decideBits {w : List Sample} :
    confirm c w = true ↔ decideBits c w = List.replicate (bpsOf c.kind) true := by
  cases hk : c.kind with
  | fsk => rw [confirm_fsk hk, decideBits_fsk hk]; simp [bpsOf]
  | qpsk => rw [confirm_qpsk hk, decideBits_qpsk hk]; simp [bpsOf, List.replicate_succ]

theorem confirm_idle_append (w : List Sample) : confirm c (idleSymbol P c ++ w) = false := by
  rw [← Bool.not_eq_true, confirm_iff_decideBits, idleSymbol,
    decideBits_wave_append hc hs (List.length_replicate), hc.bps_eq]
  cases c.kind <;> decide

theorem confirm_start_append (w : List Sample) : confirm c (startSymbol P c ++ w) = true := by
  rw [confirm_iff_decideBits, startSymbol, decideBits_wave_append hc hs (List.length_replicate), hc.bps_eq]

/-! ### Synchronization on a preamble -/

omit hc hs in
theorem rep_add (m n : Nat) (t : List Sample) : rep (m + n) t = rep m t ++ rep n t := by
  rw [rep, List.replicate_add, List.flatten_append, rep, rep]

omit hs in
theorem idleSymbol_length : (idleSymbol P c).length = c.symLen := wave_length hc _

omit hs in
/-- Behind `q` idle symbols of a run of `q + m` there are `m`. -/
theorem drop_rep_idle (q m : Nat) (w : List Sample) :
    (rep (q + m) (idleSymbol P c) ++ w).drop (q * c.symLen) = rep m (idleSymbol P c) ++ w := by
  rw [rep_add, List.append_assoc]
  exact List.drop_left' (by rw [rep_length, idleSymbol_length hc])

omit hs in
/-- Inside the first symbol of a run of idle symbols the discriminant sees idle symbols only (R153, R173). -/
theorem disc_inside_idle {k : Nat} (hk : k ≤ c.symLen) (w : List Sample) :
    disc c ((rep 3 (idleSymbol P c) ++ w).drop k) = disc c ((rep 3 (idleSymbol P c)).drop k) := by
  have hlen : (rep 3 (idleSymbol P c)).length = 3 * c.symLen := by rw [rep_length, idleSymbol_length hc]
  rw [← disc_take, ← disc_take c ((rep 3 (idleSymbol P c)).drop k), List.drop_append_of_le_length (by omega),
    List.take_append_of_le_length (by rw [List.length_drop]; omega)]

theorem above_preamble_append (w : List Sample) : above P c (preamble P c ++ w) = true := by
  rw [preamble_eq, rep_add 1 5, rep_one, List.append_assoc, List.append_assoc]
  exact above_wave_append hc hs (List.length_replicate) _

/-- R145: on a preamble and enough behind it the instance locks at the start symbol's end. -/
theorem syncSamples_preamble {w : List Sample} (hlen : c.minWin < (preamble P c ++ w).length) :
    syncSamples P c (preamble P c ++ w) = { locked := true, rest := w } := by
  have hL := hc.symLen_pos
  obtain ⟨w', hw'⟩ : ∃ w', preamble P c ++ w = rep 3 (idleSymbol P c) ++ w' :=
    ⟨rep 3 (idleSymbol P c) ++ startSymbol P c ++ w, by
      rw [preamble_eq, rep_add 3 3]; simp only [List.append_assoc]⟩
  have hdisc : ∀ k, k < c.symLen → disc c ((preamble P c ++ w).drop k) ≤ disc c (preamble P c ++ w) := by
    intro k hk
    have h0 : disc c (preamble P c ++ w) = disc c (rep 3 (idleSymbol P c)) := by
      rw [hw']; exact disc_inside_idle hc (Nat.zero_le _) w'
    rcases Nat.eq_zero_or_pos k with rfl | hpos
    · exact le_refl _
    · rw [h0, hw', disc_inside_idle hc (Nat.le_of_lt hk)]
      exact le_of_lt (hs.aligned k hpos hk)
  have hno : ∀ q, q < 6 → confirm c ((preamble P c ++ w).drop (q * c.symLen)) = false := by
    intro q hq
    have hsplit : 6 = q + (1 + (5 - q)) := by omega
    rw [preamble_eq, List.append_assoc, hsplit, drop_rep_idle hc, rep_add, rep_one, List.append_assoc]
    exact confirm_idle_append hc hs _
  have hbehind : (preamble P c ++ w).drop (6 * c.symLen) = startSymbol P c ++ w := by
    rw [preamble_eq, List.append_assoc]
    exact drop_rep_idle hc 6 0 _
  have hrest : (preamble P c ++ w).drop (6 * c.symLen + c.symLen) = w := by
    rw [← List.drop_drop, hbehind, startSymbol, drop_wave_append hc]
  have hseven : 6 * c.symLen + c.symLen ≤ (preamble P c ++ w).length := by
    rw [List.length_append, preamble_length hc]; omega
  rw [syncSamples_found hL (k := 0) (d := 0) (by simpa using hlen) (by simp)
    (by simpa using above_preamble_append hc hs w) hL (by simpa using hdisc) (by simp)]
  simp only [Nat.zero_mul, Nat.add_zero, List.drop_zero]
  rw [confirmFrom_locks hL hseven hno (by rw [hbehind]; exact confirm_start_append hc hs w), hrest]

/-! ### Demodulation of symbols -/

omit hc hs in
/-- Bits held leave no trace when the registers are cleared, or a byte is counted. -/
theorem clearSync_accumulateAll (bits : List Bool) :
    clearSync (accumulateAll c bits) = clearSync c ∧ countByte (accumulateAll c bits) = countByte c := by
  induction bits generalizing c with
  | nil => exact ⟨rfl, rfl⟩
  | cons b bits ih => exact ih (c := accumulate c b)

omit hc hs in
theorem accumulateAll_append (bits bits' : List Bool) :
    accumulateAll c (bits ++ bits') = accumulateAll (accumulateAll c bits) bits' :=
  List.foldl_append

/-- One turn of the loop on a symbol (R142). -/
theorem demodSamples_symbol {bits : List Bool} (hb : bits.length = c.bps) {w : List Sample} {out : List Byte}
    (hlen : c.minWin ≤ w.length + c.symLen) :
    demodSamples P c (wave P c bits ++ w) out =
      if (accumulateAll c bits).bitCnt = 8 then
        if c.byteCnt + 1 = 128 then
          { lost := false, codec := clearSync c, rest := w, out := out ++ [(accumulateAll c bits).bitVal] }
        else demodSamples P (countByte c) w (out ++ [(accumulateAll c bits).bitVal])
      else demodSamples P (accumulateAll c bits) w out := by
  obtain ⟨hclear, hcount⟩ := clearSync_accumulateAll (c := c) bits
  obtain ⟨-, -, hbytes, -⟩ := accumulateAll_const c bits
  have hloud := not_below_of_above (above_wave_append hc hs hb w)
  rw [demodSamples_eq hc.symLen_pos hc.minWin_pos, if_pos (by rw [List.length_append, wave_length hc]; omega),
    if_neg (Bool.eq_false_iff.1 hloud), decideBits_wave_append hc hs hb, drop_wave_append hc, hclear, hcount, hbytes]

/-- Symbols that do not fill a byte are accumulated. -/
theorem demodSamples_symbols {gs : List (List Bool)} (hg : ∀ g ∈ gs, g.length = c.bps) (hd : SameConst d c)
    (hfew : d.bitCnt + gs.flatten.length < 8) {w : List Sample} {out : List Byte}
    (hlen : c.minWin ≤ w.length + c.symLen) :
    demodSamples P d ((gs.map (wave P c)).flatten ++ w) out = demodSamples P (accumulateAll d gs.flatten) w out := by
  induction gs generalizing d with
  | nil => rfl
  | cons g gs ih =>
    obtain ⟨hconst, -, -, hcnt⟩ := accumulateAll_const d g
    rw [List.flatten_cons, List.length_append] at hfew
    have hturn := demodSamples_symbol (hd.const_wf hc) (hd.suitable hs) (bits := g)
      (w := (gs.map (wave P c)).flatten ++ w) (out := out) (by rw [hd.bps_eq]; exact hg g (List.mem_cons_self ..))
      (by rw [hd.symLen_eq, hd.minWin_eq, List.length_append]; omega)
    rw [hd.wave_eq] at hturn
    rw [List.map_cons, List.flatten_cons, List.append_assoc, hturn, if_neg (by omega),
      ih (fun g' h => hg g' (List.mem_cons_of_mem _ h)) (hconst.trans hd) (by omega), List.flatten_cons,
      accumulateAll_append]

omit hs in
/-- A byte's bit groups: some that do not fill it, and the last. -/
theorem exists_last_bitGroup (v : Byte) :
    ∃ gs g, bitGroups c.bps v = gs ++ [g] ∧ gs.flatten ++ g = bitsOf v ∧ gs.flatten.length + c.bps = 8 ∧
      g.length = c.bps ∧ ∀ g' ∈ gs, g'.length = c.bps := by
  have hflat := bitGroups_flatten hc.bps_cases v
  have hmem : ∀ g ∈ bitGroups c.bps v, g.length = c.bps := fun g => length_of_mem_bitGroups
  have height : (bitsOf v).length = 8 := by simp [bitsOf]
  obtain hnil | ⟨gs, g, hgs⟩ := List.eq_nil_or_concat (bitGroups c.bps v)
  · rw [← hflat, hnil] at height
    cases height
  · rw [List.concat_eq_append] at hgs
    rw [hgs] at hflat hmem
    rw [List.flatten_append, List.flatten_singleton] at hflat
    have hlast := hmem g (by simp)
    refine ⟨gs, g, hgs, hflat, ?_, hlast, fun g' h => hmem g' (List.mem_append_left _ h)⟩
    rw [← hlast, ← List.length_append, hflat, height]

/-- The symbols of a byte are that byte (R141 to R143). -/
theorem demodSamples_byte (hd : SameConst d c) (h0 : d.bitCnt = 0) (v : Byte) {w : List Sample} {out : List Byte}
    (hlen : c.minWin ≤ w.length + c.symLen) :
    demodSamples P d (byteSymbols P c v ++ w) out =
      if d.byteCnt + 1 = 128 then { lost := false, codec := clearSync d, rest := w, out := out ++ [v] }
      else demodSamples P (countByte d) w (out ++ [v]) := by
  obtain ⟨gs, g, hgs, hflat, hfew, hg, hmem⟩ := exists_last_bitGroup hc v
  obtain ⟨hclear, hcount⟩ := clearSync_accumulateAll (c := d) gs.flatten
  obtain ⟨hconst, -, hbytes, -⟩ := accumulateAll_const d gs.flatten
  have hlink := hconst.trans hd
  have hbits : accumulateAll (accumulateAll d gs.flatten) g = accumulateAll d (bitsOf v) := by
    rw [← accumulateAll_append, hflat]
  have hcnt : (accumulateAll d (bitsOf v)).bitCnt = 8 := by
    rw [accumulateAll_bitCnt, h0, ← hflat, List.length_append, hg, Nat.zero_add, hfew]
  have hturn := demodSamples_symbol (hlink.const_wf hc) (hlink.suitable hs) (bits := g) (w := w) (out := out)
    (by rw [hlink.bps_eq, hg]) (by rw [hlink.symLen_eq, hlink.minWin_eq]; exact hlen)
  rw [hlink.wave_eq, hbits, if_pos hcnt, accumulateAll_bitsOf, hclear, hcount, hbytes] at hturn
  have hbps_pos : 1 ≤ c.bps := by rcases hc.bps_cases with h | h <;> omega
  rw [byteSymbols, hgs, List.map_append, List.flatten_append, List.append_assoc,
    demodSamples_symbols hc hs hmem hd (by omega) (by rw [List.length_append]; omega), List.map_singleton,
    List.flatten_singleton, hturn]

/-! ### Demodulation of blocks -/

omit hc hs in
theorem iterate_countByte (n : Nat) (d : Codec) :
    SameConst (countByte^[n] d) d ∧ (d.bitCnt = 0 → (countByte^[n] d).bitCnt = 0) ∧
      (countByte^[n] d).byteCnt = d.byteCnt + n ∧ clearSync (countByte^[n] d) = clearSync d := by
  induction n generalizing d with
  | zero => exact ⟨SameConst.refl d, id, rfl, rfl⟩
  | succ n ih =>
    obtain ⟨hconst, hcnt, hbytes, hclear⟩ := ih (countByte d)
    rw [Function.iterate_succ_apply]
    refine ⟨hconst.trans (SameConst.refl d), fun _ => hcnt rfl, ?_, hclear⟩
    have hone : (countByte d).byteCnt = d.byteCnt + 1 := rfl
    rw [hbytes, hone]
    omega

/-- The symbols of bytes that do not end the block. -/
theorem demodSamples_bytes {b : List Byte} (hd : SameConst d c) (h0 : d.bitCnt = 0) (hb : d.byteCnt + b.length < 128)
    {w : List Sample} {out : List Byte} (hlen : c.minWin ≤ w.length + c.symLen) :
    demodSamples P d ((b.map (byteSymbols P c)).flatten ++ w) out =
      demodSamples P (countByte^[b.length] d) w (out ++ b) := by
  induction b generalizing d out with
  | nil => rw [List.append_nil]; rfl
  | cons v vs ih =>
    rw [List.length_cons] at hb
    have hcount : (countByte d).byteCnt = d.byteCnt + 1 := rfl
    rw [List.map_cons, List.flatten_cons, List.append_assoc,
      demodSamples_byte hc hs hd h0 v (by rw [List.length_append]; omega), if_neg (by omega),
      ih (d := countByte d) hd rfl (by omega), List.append_assoc, List.length_cons, Function.iterate_succ_apply]
    rfl

/-- The symbols of the bytes that end the block. -/
theorem demodSamples_full_block {b : List Byte} (hd : SameConst d c) (h0 : d.bitCnt = 0) (hne : b ≠ [])
    (hb : d.byteCnt + b.length = 128) {w : List Sample} {out : List Byte} (hlen : c.minWin ≤ w.length + c.symLen) :
    demodSamples P d ((b.map (byteSymbols P c)).flatten ++ w) out =
      { lost := false, codec := clearSync d, rest := w, out := out ++ b } := by
  obtain ⟨vs, v, rfl⟩ : ∃ vs v, b = vs ++ [v] := ⟨_, _, (List.dropLast_append_getLast hne).symm⟩
  rw [List.length_append, List.length_singleton] at hb
  obtain ⟨hconst, hcnt, hbytes, hclear⟩ := iterate_countByte vs.length d
  rw [List.map_append, List.flatten_append, List.append_assoc,
    demodSamples_bytes hc hs hd h0 (by omega) (by rw [List.length_append]; omega), List.map_singleton,
    List.flatten_singleton, demodSamples_byte hc hs (hconst.trans hd) (hcnt h0) v hlen, if_pos (by omega), hclear,
    List.append_assoc]

omit hs in
/-- Silence is below the threshold, full scale not being 0 (R134). -/
theorem below_zeros (hP : ParamsLegal P) (z : Nat) : below P c (zeros z) = true := by
  obtain ⟨hL, -, -, hfull, -⟩ := hc
  obtain ⟨hfs, -⟩ := fullScaleOf_le hP c.kind
  obtain ⟨-, -, -, -, hT, -⟩ := hP
  rw [← hfull] at hfs
  have hpos : 0 < c.symLen * c.fullScale * P.tabOne := Nat.mul_pos (Nat.mul_pos hL hfs) hT
  rw [below_iff, power2_zeros]
  positivity

/-- A block of fewer than 128 bytes ends in the silence behind its trailer. -/
theorem demodSamples_last_block (hP : ParamsLegal P) {b : List Byte} (hd : SameConst d c) (h0 : d.bitCnt = 0)
    (hb : d.byteCnt + b.length < 128) {z : Nat} (hz : c.minWin ≤ z) {out : List Byte} :
    (demodSamples P d ((b.map (byteSymbols P c)).flatten ++ (rep 2 (idleSymbol P c) ++ zeros z)) out).out =
      out ++ b := by
  obtain ⟨hconst, hcnt, -⟩ := iterate_countByte b.length d
  have hlen : (zeros z).length = z := List.length_replicate
  obtain ⟨hacc, -⟩ := accumulateAll_const (countByte^[b.length] d)
    (List.replicate 2 (List.replicate c.bps false)).flatten
  have hlink := hacc.trans (hconst.trans hd)
  have hfew : (List.replicate 2 (List.replicate c.bps false)).flatten.length < 8 := by
    rcases hc.bps_cases with h | h <;> simp [h]
  have htrailer : rep 2 (idleSymbol P c) =
      ((List.replicate 2 (List.replicate c.bps false)).map (wave P c)).flatten := by
    rw [List.map_replicate]
    rfl
  rw [demodSamples_bytes hc hs hd h0 hb (by rw [List.length_append, hlen]; omega), htrailer,
    demodSamples_symbols hc hs (fun g hg => by rw [List.eq_of_mem_replicate hg, List.length_replicate])
      (hconst.trans hd) (by rw [hcnt h0]; omega) (by rw [hlen]; omega),
    demodSamples_eq (hlink.const_wf hc).symLen_pos (hlink.const_wf hc).minWin_pos,
    if_pos (by rw [hlink.minWin_eq, hlen]; exact hz), if_pos (below_zeros (hlink.const_wf hc) hP z)]

/-! ### The receiver -/

/-- Two rounds on a block: it locks on the preamble, and demodulates what stands behind it (R145). -/
theorem receive_two_rounds (hd : SameConst d c) (hu : d.synchronized = false) {n : Nat} {w : List Sample}
    {out : List Byte} (hlen : c.minWin < (preamble P c ++ w).length) {r : DemodResult}
    (hr : demodSamples P { d with synchronized := true } w out = r) :
    receive P (n + 2) d (preamble P c ++ w) out = receive P n r.codec r.rest r.out := by
  have hsync := syncSamples_preamble (hd.const_wf hc) (hd.suitable hs) (w := w)
    (by rw [hd.preamble_eq, hd.minWin_eq]; exact hlen)
  rw [hd.preamble_eq] at hsync
  rw [receive, if_neg (by rw [hu]; decide), hsync, codecAfterSync_of_unsynchronized hu, receive, if_pos rfl, hr]

omit hs in
/-- A block with enough behind it is long enough to be scanned. -/
theorem minWin_lt_of_preamble {w : List Sample} (hw : c.minWin ≤ w.length) :
    c.minWin < (preamble P c ++ w).length := by
  have hL := hc.symLen_pos
  rw [List.length_append, preamble_length hc]
  omega

/-- Two rounds on a full block leave the instance cleared, before what stands behind the block. -/
theorem receive_full_block (hd : Ready c d) {n : Nat} {b : List Byte} (hb : b.length = 128) {w : List Sample}
    (hw : c.minWin ≤ w.length) {out : List Byte} :
    receive P (n + 2) d (preamble P c ++ ((b.map (byteSymbols P c)).flatten ++ w)) out =
      receive P n (clearSync d) w (out ++ b) := by
  obtain ⟨hconst, hu, h0, h0'⟩ := hd
  have hfull : ({ d with synchronized := true } : Codec).byteCnt + b.length = 128 := by
    rw [hb, show ({ d with synchronized := true } : Codec).byteCnt = 0 from h0']
  exact receive_two_rounds hc hs hconst hu
    (minWin_lt_of_preamble hc (by rw [List.length_append]; omega))
    (demodSamples_full_block hc hs (d := { d with synchronized := true }) hconst h0
      (List.ne_nil_of_length_pos (by omega)) hfull (by omega))

/-- Two rounds on a last block of fewer than 128 bytes. -/
theorem receive_last_block (hP : ParamsLegal P) (hd : Ready c d) {b : List Byte} (hb : b.length < 128) {z : Nat}
    (hz : c.minWin ≤ z) {out : List Byte} :
    receive P 2 d (preamble P c ++ ((b.map (byteSymbols P c)).flatten ++ (rep 2 (idleSymbol P c) ++ zeros z))) out =
      out ++ b := by
  obtain ⟨hconst, hu, h0, h0'⟩ := hd
  have hlen : (zeros z).length = z := List.length_replicate
  have hfew : ({ d with synchronized := true } : Codec).byteCnt + b.length < 128 := by
    rw [show ({ d with synchronized := true } : Codec).byteCnt = 0 from h0', Nat.zero_add]
    exact hb
  rw [receive_two_rounds hc hs hconst hu
    (minWin_lt_of_preamble hc (by simp only [List.length_append, hlen]; omega)) rfl, receive]
  exact demodSamples_last_block hc hs hP (d := { d with synchronized := true }) hconst h0 hfew hz

end

/-- R145 at a lead of no samples, block by block: a full one in front, until the last. -/
theorem receive_modulate (hP : ParamsLegal P) (hc : CodecConstWf P c) (hs : Suitable P c) {z : Nat} (hz : c.minWin ≤ z)
    {b : List Byte} (hb : 1 ≤ b.length) (hd : Ready c d) (out : List Byte) :
    receive P (2 * ((b.length + 127) / 128)) d (modulate P c b ++ zeros z) out = out ++ b := by
  have hlen : (zeros z).length = z := List.length_replicate
  induction hn : b.length using Nat.strong_induction_on generalizing b d out with
  | _ n ih =>
    subst hn
    rcases Nat.lt_or_ge 128 b.length with hlong | hshort
    · have hfull : (b.take 128).length = 128 := List.length_take_of_le (Nat.le_of_lt hlong)
      have hrest : (b.drop 128).length = b.length - 128 := List.length_drop
      have hrounds : 2 * ((b.length + 127) / 128) = 2 * (((b.drop 128).length + 127) / 128) + 2 := by
        rw [hrest]; omega
      have hsplit : modulate P c b ++ zeros z = preamble P c ++ (((b.take 128).map (byteSymbols P c)).flatten ++
          (modulate P c (b.drop 128) ++ zeros z)) := by
        conv_lhs => rw [← List.take_append_drop 128 b, modulate_full_block_append hfull, ← preamble_eq]
        simp only [List.append_assoc]
      rw [hrounds, hsplit, receive_full_block hc hs hd hfull (by rw [List.length_append, hlen]; omega),
        ih (b.drop 128).length (by omega) (by omega) hd.clearSync _ rfl, List.append_assoc, List.take_append_drop]
    · have hrounds : 2 * ((b.length + 127) / 128) = 0 + 2 := by omega
      have hsplit : modulate P c b ++ zeros z = preamble P c ++ ((b.map (byteSymbols P c)).flatten ++
          (rep 2 (idleSymbol P c) ++ zeros z)) := by
        rw [modulate_block hb hshort, ← preamble_eq]
        simp only [List.append_assoc]
      rw [hrounds, hsplit]
      rcases Nat.lt_or_eq_of_le hshort with hlt | heq
      · exact receive_last_block hc hs hP hd hlt hz
      · exact receive_full_block hc hs hd heq (by rw [List.length_append, hlen]; omega)

/-- Settles O20: the bytes are counted, and what follows is too short for another turn. -/
theorem dataSymbolsDemodulateToTheirBytes : Obligations.DataSymbolsDemodulateToTheirBytes := by
  intro P c b out rest hc hs _ h0 hb hlen hshort
  obtain ⟨hconst, -, hbytes, -⟩ := iterate_countByte b.length c
  have hwf := hconst.const_wf hc
  rw [demodSamples_bytes hc hs (SameConst.refl c) h0 hb hlen, demodSamples_eq hwf.symLen_pos
    hwf.minWin_pos, if_neg (by rw [hconst.minWin_eq]; omega)]
  exact ⟨rfl, rfl, rfl, hbytes⟩

/-- Settles O21: the receiver starts with the instance that sent. -/
theorem modulatedBytesAreReceived : Obligations.ModulatedBytesAreReceived := by
  intro P c b z hP hc hs hu h0 h0' hb hz
  exact receive_modulate hP hc hs hz hb ⟨SameConst.refl c, hu, h0, h0'⟩ []

end Machine
end Sys2Proof
end

section
/-!
PROOFS. Sequences of operations on the buffers (spec/40_buffers.md R113, R117), the properties of the checksum and of
the framer (spec/44_packet.md R198, R201, R202), and the delivery queue (R199, R262).
-/

namespace Sys2Proof
namespace Machine

/-! ### InboundRing -/

theorem ringContents_length (cap chunk : Nat) (r : Ring) : (ringContents cap chunk r).length = r.size := by
  simp [ringContents]

/-- The last `n` elements of a list do not depend on what stood before its last `n`, whatever follows. -/
theorem rtake_rtake_append {α : Type} (n : Nat) (l m : List α) : (l.rtake n ++ m).rtake n = (l ++ m).rtake n := by
  rcases Nat.le_total l.length n with h | h
  · rw [List.rtake.eq_def l n, Nat.sub_eq_zero_of_le h, List.drop_zero]
  · have hdrop : l.rtake n ++ m = (l ++ m).drop (l.length - n) := by
      rw [List.rtake, List.drop_append_of_le_length (Nat.sub_le _ _)]
    rw [hdrop, List.rtake, List.rtake, List.drop_drop]
    congr 1
    simp only [List.length_drop, List.length_append]
    omega

/-- A push keeps the newest `RING_CAP` chunks (R110). -/
theorem ringContents_pushed_eq_rtake {cap chunk : Nat} {r : Ring} (c : List Sample) (ht : r.tail < cap)
    (hs : r.size ≤ cap) :
    ringContents cap chunk (ringPushed cap r c) = (ringContents cap chunk r ++ [c]).rtake cap := by
  rw [ringContents_pushed c ht hs, List.rtake, List.length_append, ringContents_length, List.length_singleton,
    List.drop_append_of_le_length (by rw [ringContents_length]; omega)]
  congr 2
  omega

theorem ringContents_foldl_pushed {cap chunk : Nat} {r : Ring} (cs : List (List Sample)) (ht : r.tail < cap)
    (hs : r.size ≤ cap) :
    ringContents cap chunk (cs.foldl (ringPushed cap) r) = (ringContents cap chunk r ++ cs).rtake cap := by
  induction cs generalizing r with
  | nil =>
    rw [List.append_nil, List.rtake, ringContents_length, Nat.sub_eq_zero_of_le hs, List.drop_zero]
    rfl
  | cons c cs ih =>
    rw [List.foldl_cons, ih (Nat.mod_lt _ (by omega)) (Nat.min_le_right _ _), ringContents_pushed_eq_rtake c ht hs,
      rtake_rtake_append, List.append_assoc]
    rfl

/-- Settles O4: push by push, each keeping the newest; a pop takes the first of the contents. -/
theorem ringKeepsTheNewestInOrder : Obligations.RingKeepsTheNewestInOrder :=
  fun _ _ _ cs ht hs => ⟨ringContents_foldl_pushed cs ht hs, ringOldest_eq_head, ringContents_popped hs⟩

/-! ### OutboundQueue -/

/-- `m + 1` pops deliver what an entry holds from its cursor on, `m + 1` windows, and retire it (R115). -/
theorem playOut_entry {chunk : Nat} (hc : 1 ≤ chunk) (q : List OutEntry) {data : List Sample} (m : Nat) {cursor : Nat}
    (hlen : data.length = cursor + (m + 1) * chunk) :
    playOut chunk (m + 1) ({ data := data, cursor := cursor } :: q) = (data.drop cursor, q) := by
  induction m generalizing cursor with
  | zero =>
    have htake : (data.drop cursor).take chunk = data.drop cursor :=
      List.take_of_length_le (by rw [List.length_drop]; omega)
    rw [playOut, outqPopped, if_pos (show cursor + chunk = data.length by omega), outqWindow, htake, playOut,
      List.append_nil]
  | succ m ih =>
    rw [Nat.add_mul (m + 1), Nat.one_mul] at hlen
    have hmore : chunk ≤ (m + 1) * chunk := Nat.le_mul_of_pos_left _ (Nat.succ_pos m)
    have hnext : data.length = cursor + chunk + (m + 1) * chunk := by omega
    rw [playOut, outqPopped, if_neg (show ¬ cursor + chunk = data.length by omega), ih hnext, outqWindow,
      ← List.drop_drop, List.take_append_drop]

/-- Settles O8: the entry of a pushed sequence has `ceil(n / CHUNK)` windows in front of its cursor. -/
theorem outqReplaysPushedSamples : Obligations.OutqReplaysPushedSamples := by
  refine fun chunk x q dst hc hx => ⟨?_, rfl, rfl⟩
  obtain ⟨hle, -⟩ := windowsOf_bounds (n := x.length) hc
  obtain ⟨m, hm⟩ : ∃ m, windowsOf x.length chunk = m + 1 :=
    Nat.exists_eq_succ_of_ne_zero fun h0 => by rw [h0] at hle; omega
  have hlen : (padToChunk x chunk).length = 0 + (m + 1) * chunk := by rw [padToChunk_length hc, hm, Nat.zero_add]
  rw [outEntryOf, hm, playOut_entry hc q m hlen, List.drop_zero, padToChunk, hm]

/-! ### Checksum -/

/-- A byte's weight in the sum of R197: the byte at the lower offset of a word is less significant (R64). -/
def byteWeight (k : Nat) : Nat := if k % 2 = 0 then 1 else 256

/-- A byte that is replaced changes the sum by its weight. -/
theorem sumWords_set (q : List Byte) {k : Nat} (hk : k < q.length) (a : Byte) :
    sumWords (q.set k a) + byteWeight k * (byteAt q k).toNat = sumWords q + byteWeight k * a.toNat := by
  induction q using sumWords.induct generalizing k with
  | case1 => simp at hk
  | case2 b =>
    obtain rfl : k = 0 := by simpa using hk
    simp [sumWords, byteAt, byteWeight, Nat.add_comm]
  | case3 b c r ih =>
    match k with
    | 0 => simp [sumWords, byteAt, byteWeight, word16]; omega
    | 1 => simp [sumWords, byteAt, byteWeight, word16]; omega
    | k + 2 =>
      have hw : byteWeight (k + 2) = byteWeight k := by rw [byteWeight, Nat.add_mod_right, ← byteWeight]
      have hb : byteAt (b :: c :: r) (k + 2) = byteAt r k := rfl
      have hr := ih (k := k) (by simpa using hk)
      rw [List.set_cons_succ, List.set_cons_succ, sumWords, sumWords, hw, hb]
      omega

/-- A byte outside the checksum field is one of the summed buffer. -/
theorem zeroCksumField_set_other {p : List Byte} {k : Nat} (a : Byte) (h4 : k ≠ 4) (h5 : k ≠ 5) :
    zeroCksumField (p.set k a) = (zeroCksumField p).set k a := by
  rw [zeroCksumField, zeroCksumField, List.length_set]
  split
  · rw [List.set_comm a 0 h4, List.set_comm a 0 h5]
  · rfl

theorem byteAt_zeroCksumField {p : List Byte} {k : Nat} (h4 : k ≠ 4) (h5 : k ≠ 5) :
    byteAt (zeroCksumField p) k = byteAt p k := by
  rw [zeroCksumField]
  split
  · simp [byteAt, h4.symm, h5.symm]
  · rfl

/-- A header that declares a length makes the sum positive. -/
theorem totalOf_le_sumWords {p : List Byte} (h : 6 ≤ p.length) : totalOf p ≤ sumWords (zeroCksumField p) := by
  match p with
  | a :: b :: c :: d :: e :: f :: r =>
    rw [zeroCksumField, if_pos h]
    simp [totalOf, byteAt, sumWords]
    omega

/-- Settles O29: the field is read as zero; and a sum that is not 0 folds to a value that is not 0. -/
theorem checksumIgnoresItsOwnField : Obligations.ChecksumIgnoresItsOwnField := by
  refine fun p a b h => ⟨cksum16_set h a b, fun ht => ?_⟩
  have hle := totalOf_le_sumWords h
  have htotal : 6 ≤ totalOf p := ht
  obtain ⟨hlt, -⟩ := (cksum16_spec p).2 (by omega)
  omega

/-- Settles O30: one byte moves the sum by less than 65535, so its residue changes, or it leaves or reaches 0. -/
theorem checksumDetectsEverySingleByteChange : Obligations.ChecksumDetectsEverySingleByteChange := by
  intro p k a _ hk h4 h5 hne heq
  have hset := sumWords_set (zeroCksumField p) (k := k) (by rwa [zeroCksumField_length]) a
  rw [byteAt_zeroCksumField h4 h5, ← zeroCksumField_set_other a h4 h5] at hset
  have hdiff : (byteAt p k).toNat ≠ a.toNat := fun h => hne (BitVec.eq_of_toNat_eq h)
  have hold := (byteAt p k).isLt
  have hnew := a.isLt
  have hweight : byteWeight k = 1 ∨ byteWeight k = 256 := by rw [byteWeight]; split <;> simp
  obtain ⟨hzero, hpos⟩ := cksum16_spec p
  obtain ⟨hzero', hpos'⟩ := cksum16_spec (p.set k a)
  rcases Nat.eq_zero_or_pos (sumWords (zeroCksumField p)) with h | h <;>
    rcases Nat.eq_zero_or_pos (sumWords (zeroCksumField (p.set k a))) with h' | h'
  · rcases hweight with hw | hw <;> rw [h, h', hw] at hset <;> omega
  · have := hzero h; have := (hpos' h').1; omega
  · have := hzero' h'; have := (hpos h).1; omega
  · have := (hpos h).2; have := (hpos' h').2
    rcases hweight with hw | hw <;> rw [hw] at hset <;> omega

/-! ### Fragments -/

/-- What has been fed decides the framer, not how it was cut: a push on what the framer has and left is one push of
all of it (R192). -/
theorem pktPushed_append (y f : List Byte) :
    pktPushed (pktPushed [] y).1 ((pktPushed [] y).2 ++ f) = pktPushed [] (y ++ f) := by
  rcases Nat.lt_or_ge y.length 6 with hy | hy
  · rw [pktPushed_short rfl hy]
  · have hlen : 6 ≤ (y ++ f).length := by rw [List.length_append]; omega
    have htake : 6 ≤ (y.take (max 6 (totalOf y))).length := by rw [List.length_take]; omega
    have hne : y.take (max 6 (totalOf y)) ≠ [] := List.ne_nil_of_length_pos (by omega)
    have htotal : totalOf (y.take (max 6 (totalOf y))) = totalOf y := by
      rw [← totalOf_append htake (y.drop (max 6 (totalOf y))), List.take_append_drop]
    rw [pktPushed_first rfl hy, pktPushed_first rfl hlen, totalOf_append hy,
      pktPushed_next hne, htotal, List.length_take]
    rcases Nat.le_total (max 6 (totalOf y)) y.length with hfull | hpart
    · have hnone : totalOf y - min (max 6 (totalOf y)) y.length = 0 := by omega
      rw [hnone, List.take_zero, List.drop_zero, List.append_nil, List.take_append_of_le_length hfull,
        List.drop_append_of_le_length hfull]
    · have hmiss : totalOf y - min (max 6 (totalOf y)) y.length = max 6 (totalOf y) - y.length := by omega
      rw [hmiss, List.take_of_length_le hpart, List.drop_of_length_le hpart, List.nil_append, List.take_append,
        List.take_of_length_le hpart, List.drop_append, List.drop_of_length_le hpart, List.nil_append]

/-- R201: the framer after fragments is the framer after one push of their bytes. -/
theorem feedFragments_eq_pktPushed (frags : List (List Byte)) :
    feedFragments ([], []) frags = pktPushed [] frags.flatten := by
  have hfrom : ∀ y : List Byte, feedFragments (pktPushed [] y) frags = pktPushed [] (y ++ frags.flatten) := by
    induction frags with
    | nil => intro y; rw [List.flatten_nil, List.append_nil]; rfl
    | cons f fs ih => intro y; rw [feedFragments, pktPushed_append, ih, List.flatten_cons, List.append_assoc]
  exact hfrom []

/-- Settles O31: one push of a front part of a complete packet, and one of the packet with a surplus. -/
theorem fragmentsFinishThePacketOnce : Obligations.FragmentsFinishThePacketOnce := by
  intro p surplus frags hp
  obtain ⟨hhdr, htotal⟩ := finished_iff.1 hp
  refine ⟨fun k hk hfed => ?_, fun hfed => ?_⟩
  · have hlen : (p.take k).length = k := List.length_take_of_le hk
    rw [feedFragments_eq_pktPushed, hfed]
    rcases Nat.lt_or_ge k 6 with h6 | h6
    · rw [pktPushed_short rfl (by omega)]
      exact (decide_eq_false (by omega)).symm
    · have htake : totalOf (p.take k) = p.length := by
        rw [← totalOf_append (by omega) (p.drop k), List.take_append_drop, htotal]
      rw [pktPushed_first rfl (by omega), htake, List.take_of_length_le (by omega), finished_eq_decide, hlen, htake]
      exact decide_eq_decide.2 ⟨And.right, fun h => ⟨h6, h⟩⟩
  · have hmax : max 6 (totalOf (p ++ surplus)) = p.length := by rw [totalOf_append hhdr]; omega
    rw [feedFragments_eq_pktPushed, hfed, pktPushed_first rfl (by rw [List.length_append]; omega), hmax,
      List.take_left, List.drop_left]

/-! ### The delivery queue and its CONSUMERs -/

variable {s : State}

/-- A packet read of a CONSUMER is of the packet it holds (R262). -/
theorem readPacket_consumer {p : List Byte} (hi : s.issuer = .consumer) (hp : s.held.find s.who = some p)
    (f : List Byte → Result) : readPacket s f = done s (f p) := by
  rw [readPacket, State.packetInView, hi, hp]

/-- A CONSUMER that holds no packet reads none (log entry 11). -/
theorem readPacket_consumer_none (hi : s.issuer = .consumer) (hp : s.held.find s.who = none) (f : List Byte → Result) :
    readPacket s f = refuse s := by
  rw [readPacket, State.packetInView, hi, hp]

/-- Settles O27: the pop writes the CONSUMER's own number; the three reads go to the packet in its view. -/
theorem consumerReadsThePacketItGot : Obligations.ConsumerReadsThePacketItGot := by
  intro s hi
  have hright : ∀ i, i = .pktFinished ∨ i = .pktValid ∨ i = .pktChecksum → s.issuer ∈ holders i := by
    rintro i (rfl | rfl | rfl) <;> simp [hi, holders]
  refine ⟨fun p r hq => ⟨_, exec_pktqPop_oldest hi hq, Cells.find_write_self _ _ _,
    fun k hk => Cells.find_write_other _ _ hk⟩, fun p hp => ⟨?_, ?_, ?_⟩, fun hp i h => ?_⟩
  · rw [exec, execPktFinished, withRight_of_mem (hright _ (by simp)), readPacket_consumer hi hp]
    rfl
  · rw [exec, execPktValid, withRight_of_mem (hright _ (by simp)), readPacket_consumer hi hp]
    rfl
  · rw [exec, execPktChecksum, withRight_of_mem (hright _ (by simp)), readPacket_consumer hi hp]
    rfl
  · have hr := hright i h
    rcases h with rfl | rfl | rfl
    · rw [exec, execPktFinished, withRight_of_mem hr, readPacket_consumer_none hi hp]; rfl
    · rw [exec, execPktValid, withRight_of_mem hr, readPacket_consumer_none hi hp]; rfl
    · rw [exec, execPktChecksum, withRight_of_mem hr, readPacket_consumer_none hi hp]; rfl

/-- A complete packet that fits is appended (R199). -/
theorem exec_pktqPush_appends {p : List Byte} (hi : s.issuer = .worker) (hp : finished p = true)
    (hcap : withinCap s.params.pktqDepth (s.pktq.length + 1) = true) :
    exec (.pktqPush p) s = done { s with pktq := s.pktq ++ [p] } .none := by
  rw [exec, execPktqPush, withRight_of_mem (by simp [hi, holders]), hp, hcap]
  rfl

/-- Anything else is refused (D32, log entry 19). -/
theorem exec_pktqPush_refused {p : List Byte}
    (h : ¬ (finished p = true ∧ withinCap s.params.pktqDepth (s.pktq.length + 1) = true)) :
    exec (.pktqPush p) s = refuse s := by
  rw [exec, execPktqPush, if_neg (by rwa [Bool.and_eq_true]), withRight, ite_self]

theorem withinCap_iff {cap : Option Nat} {n : Nat} : withinCap cap n = true ↔ ∀ c, cap = some c → n ≤ c := by
  cases cap <;> simp [withinCap]

/-- Settles O32: complete and within the depth, or not. -/
theorem pktqPushAppends : Obligations.PktqPushAppends := by
  refine fun s p hi => ⟨rfl, fun h6 htotal hcap => ?_, fun h => ?_⟩
  · rw [exec_pktqPush_appends hi (finished_iff.2 ⟨h6, htotal⟩) (withinCap_iff.2 hcap)]
    rfl
  · refine exec_pktqPush_refused fun ⟨hp, hcap⟩ => ?_
    obtain ⟨h6, htotal⟩ := finished_iff.1 hp
    rcases h with h | h | ⟨d, hd, hfull⟩
    · omega
    · exact h htotal
    · have := withinCap_iff.1 hcap d hd
      omega

end Machine
end Sys2Proof
end

section
/-!
PROOFS. The worker iteration (spec/45_engine.md R226, D32, log entry 15) and the headers that declare less than a header
(spec/44_packet.md R193, log entry 16).
-/

namespace Sys2Proof
namespace Machine

variable {s t : State}

/-! ### The branches of an iteration -/

theorem workerStep_over_work (hw : withinCap s.params.workCap s.workerPop.work.length = false) :
    s.workerStep = none := by
  rw [State.workerStep, if_neg (by rw [hw]; decide)]

theorem workerStep_idle (hw : withinCap s.params.workCap s.workerPop.work.length = true)
    (hlen : s.workerPop.work.length < 4096) : s.workerStep = some s.workerPop := by
  rw [State.workerStep, if_pos hw, if_pos hlen]

theorem workerStep_sync (hw : withinCap s.params.workCap s.workerPop.work.length = true)
    (hlen : 4096 ≤ s.workerPop.work.length) (hs : s.codec.synchronized = false) :
    s.workerStep = some s.workerPop.workerSync := by
  rw [State.workerStep, if_pos hw, if_neg (Nat.not_lt.2 hlen), State.workerPop_codec, if_neg (by rw [hs]; decide)]

theorem workerStep_demod (hw : withinCap s.params.workCap s.workerPop.work.length = true)
    (hlen : 4096 ≤ s.workerPop.work.length) (hs : s.codec.synchronized = true) {r : DemodResult}
    (hr : r = demodSamples s.params s.codec s.workerPop.work s.pend) :
    s.workerStep =
      if withinCap s.params.pendCap r.out.length &&
        withinCap s.params.pktqDepth (s.workerPop.workerDemod r).pktq.length
      then some (s.workerPop.workerDemod r) else none := by
  subst hr
  rw [State.workerStep, if_pos hw, if_neg (Nat.not_lt.2 hlen), State.workerPop_codec, if_pos hs]
  rfl

/-! ### What the operation answers -/

/-- A worker that is not demodulating is refused, and so is an iteration over a capacity (R226, D32). -/
theorem exec_engWorkerStep_refused (h : s.demodulating = false ∨ s.workerStep = none) :
    exec .engWorkerStep s = refuse s := by
  rw [exec, execEngWorkerStep, withRight]
  rcases h with h | h
  · rw [h]; exact ite_self _
  · rw [h]; simp only [ite_self]

theorem exec_engWorkerStep_runs (hi : s.issuer = .worker) (hd : s.demodulating = true) (hw : s.workerStep = some t) :
    exec .engWorkerStep s = done t .none := by
  rw [exec, execEngWorkerStep, withRight_of_mem (by simp [hi, holders]), if_pos hd, hw]

/-- Settles O39: the iteration ends at the sizes of `work`, or with a synchronize. -/
theorem workerIdlesOrSynchronizes : Obligations.WorkerIdlesOrSynchronizes := by
  rintro s w hi rfl
  refine ⟨rfl, fun hd => exec_engWorkerStep_refused (.inl hd), fun hd hcap hlen => ?_, fun hd hcap hlen hs => ?_⟩
  · exact exec_engWorkerStep_runs hi hd (workerStep_idle hcap hlen)
  · rw [exec_engWorkerStep_runs hi hd (workerStep_sync hcap hlen hs), State.workerSync,
      codecAfterSync_of_unsynchronized (by exact hs)]
    rfl

/-- The whole state after a demodulating iteration (R226): what it does not write stays. -/
theorem workerDemod_eq (s : State) (r : DemodResult) :
    s.workerDemod r =
      { s with codec := r.codec, work := r.rest, pkt := (s.workerDemod r).pkt, pend := (s.workerDemod r).pend,
               pktq := (s.workerDemod r).pktq, evt := (s.workerDemod r).evt } := by
  simp only [State.workerDemod, State.workerLoss, State.workerDeliver, State.workerProgress]
  split_ifs <;> rfl

/-- Settles O40: the packet, the queue and the trace of a demodulating iteration, within the capacities. -/
theorem workerFramesDeliversThenDrops : Obligations.WorkerFramesDeliversThenDrops := by
  rintro s w r p rest hi hd rfl hcap hlen hs hr hpend hpkt hpktq
  obtain ⟨rfl, rfl⟩ : p = (pktPushed s.workerPop.pkt r.out).1 ∧ rest = (pktPushed s.workerPop.pkt r.out).2 :=
    ⟨congrArg Prod.fst hpkt, congrArg Prod.snd hpkt⟩
  obtain ⟨fpkt, fpend, fpktq⟩ := workerDemod_packet s.workerPop r
  have hdepth : withinCap s.params.pktqDepth (s.workerPop.workerDemod r).pktq.length = true := by
    rw [fpktq, apply_ite List.length, List.length_append]
    exact hpktq
  have hstep : s.workerStep = some (s.workerPop.workerDemod r) := by
    rw [workerStep_demod hcap hlen hs hr, if_pos (Bool.and_eq_true_iff.2 ⟨hpend, hdepth⟩)]
  rw [exec_engWorkerStep_runs hi hd hstep, workerDemod_eq, fpkt, fpend, fpktq, workerDemod_evt]
  simp only [hasHeader, decide_eq_true_eq]
  rfl

/-- Settles O41: `work` before the iteration, `pend` and the delivery queue after it. -/
theorem workerOverCapacityIsRefused : Obligations.WorkerOverCapacityIsRefused := by
  rintro s w r hi hd rfl hr
  refine ⟨fun hcap => exec_engWorkerStep_refused (.inr (workerStep_over_work hcap)), fun hlen hs hover =>
    exec_engWorkerStep_refused (.inr ?_)⟩
  cases hcap : withinCap s.params.workCap s.workerPop.work.length
  · exact workerStep_over_work hcap
  · obtain ⟨-, -, hpktq⟩ := workerDemod_packet s.workerPop r
    rw [workerStep_demod hcap hlen hs hr, if_neg]
    intro hfits
    obtain ⟨hpend, hdepth⟩ := Bool.and_eq_true_iff.1 hfits
    rcases hover with h | ⟨hfin, h⟩
    · rw [h] at hpend; cases hpend
    · rw [hpktq, State.workerPop_pkt, if_pos hfin, List.length_append, State.workerPop_pktq] at hdepth
      rw [show withinCap s.params.pktqDepth (s.pktq.length + 1) = true from hdepth] at h
      cases h

/-! ### Headers that declare less than a header -/

theorem malformedLength_iff {p : List Byte} : malformedLength p = true ↔ 6 ≤ p.length ∧ totalOf p < 6 := by
  simp [malformedLength, hasHeader]

theorem not_careful_of_refused {r : Result} (h : t.rsp = some ⟨.refused, r⟩) : ¬ Careful t :=
  fun ⟨hrsp, _⟩ => hrsp _ h rfl

theorem not_careful_of_tookMalformed (h : t.tookMalformed = true) : ¬ Careful t := by
  rintro ⟨-, hnot, -⟩
  rw [h] at hnot
  cases hnot

/-- An iteration that frames such a header reports it (R256), also when it drops the packet. -/
theorem tookMalformed_workerDemod (s : State) {r : DemodResult} (hp : 6 ≤ (pktPushed s.pkt r.out).1.length)
    (ht : totalOf (pktPushed s.pkt r.out).1 < 6) : (s.workerDemod r).tookMalformed = true := by
  have hhdr : hasHeader (pktPushed s.pkt r.out).1 = true := decide_eq_true hp
  have hevent : Event.malformed (.byteProgress (BitVec.ofNat 16 (pktPushed s.pkt r.out).1.length)
      (BitVec.ofNat 16 (totalOf (pktPushed s.pkt r.out).1))) = true := by
    simp only [Event.malformed, BitVec.toNat_ofNat, decide_eq_true_eq, Config.headerSize]
    omega
  rw [State.tookMalformed, workerDemod_evt, if_pos hhdr]
  simp [hevent]

/-- Settles O23: the push takes nothing; a push leaves the header in the packet, an iteration leaves its report in the
trace. -/
theorem malformedLengthTakesNothing : Obligations.MalformedLengthTakesNothing := by
  refine ⟨fun s b hi hlen ht => ⟨?_, ?_⟩, fun s t b p rest hi hpush h6 ht he => ?_,
    fun s t w p rest hi hd hw hlen hs hpush h6 ht he => ?_⟩
  · have hnone : totalOf s.pkt - s.pkt.length = 0 := by
      have : totalOf s.pkt < 6 := ht
      omega
    rw [exec_pktPush hi, pktPushed_next (List.ne_nil_of_length_pos (by omega)), hnone, List.take_zero, List.drop_zero,
      List.append_nil]
    rfl
  · have hnot : finished s.pkt = false := by
      rw [finished_eq_decide]
      have : totalOf s.pkt < 6 := ht
      exact decide_eq_false (by omega)
    rw [exec_pktFinished hi, hnot]
    rfl
  · rw [exec_pktPush hi, done_eq_next, ← hpush] at he
    subst he
    refine not_careful_of_tookMalformed ?_
    rw [State.tookMalformed, State.respond_pkt, malformedLength_iff.2 ⟨h6, ht⟩, Bool.true_or]
  · subst hw
    cases hu : s.workerStep with
    | none =>
      rw [exec_engWorkerStep_refused (.inr hu), refuse_eq_next] at he
      subst he
      exact not_careful_of_refused rfl
    | some u =>
      rw [exec_engWorkerStep_runs hi hd hu, done_eq_next] at he
      subst he
      refine not_careful_of_tookMalformed ?_
      obtain ⟨-, ⟨-, hshort⟩ | ⟨-, -, hns⟩ | ⟨r, hr, rfl, -⟩⟩ := workerStep_cases hu
      · exact absurd hlen (Nat.not_le.2 hshort)
      · rw [hs] at hns; cases hns
      · have hpkt : p = (pktPushed s.workerPop.pkt r.out).1 := by
          rw [hr, State.workerPop_pkt, State.workerPop_work, ← hpush]
        subst hpkt
        exact tookMalformed_workerDemod s.workerPop h6 ht

end Machine
end Sys2Proof
end

section
/-!
PROOFS. What every operation and step leaves unchanged (spec/60_exceptions.md R252, R257, R263, spec/10_state.md R30,
R31, R46, spec/45_engine.md R221, R233 (b), spec/70_reset_and_hazards.md R281).
-/

namespace Sys2Proof
namespace Machine

variable {s t : State} {i : Instr}

/-! ### Rights and failures -/

/-- An agent without the right to an operation is refused (R263). -/
theorem exec_of_not_mem (h : s.issuer ∉ holders i) : exec i s = refuse s := by
  cases i <;> exact if_neg h

/-- Settles O47: the agents excluded are those without the right. -/
theorem onlyTheListedAgentsAreServed : Obligations.OnlyTheListedAgentsAreServed := by
  intro i s h
  refine exec_of_not_mem (s := s) (i := i) ?_
  cases i <;> simp only [holders, List.mem_cons, List.not_mem_nil, or_false, not_or] <;> exact h

/-- Settles O46: a failure writes the response alone, and an answer of a served operation is `OK`. -/
theorem failuresChangeNothing : Obligations.FailuresChangeNothing := by
  intro i s t r h hr
  obtain ⟨st, r', ⟨-, hcorrupt, hflag⟩, rfl⟩ | ⟨-, -, ⟨r', rfl⟩ | ⟨c, rfl, rfl⟩⟩ := exec_cases h
  · obtain rfl : (⟨st, r'⟩ : Response) = r := by simpa using hr
    exact ⟨hcorrupt, fun _ => ⟨rfl, hflag⟩⟩
  · obtain rfl : (⟨.ok, r'⟩ : Response) = r := by simpa using hr
    exact ⟨Status.noConfusion, fun hne => absurd rfl hne⟩
  · cases hr

/-- But for its response, an operation leaves the state, or leaves its effect when it is served. -/
theorem exec_state (h : exec i s = .next t) :
    (∃ o, t = { s with rsp := o }) ∨ (served i s ∧ ∃ o, t = { effect i s with rsp := o }) := by
  obtain ⟨st, r, -, rfl⟩ | ⟨-, hv, ⟨r, rfl⟩ | ⟨c, rfl, rfl⟩⟩ := exec_cases h
  · exact .inl ⟨_, rfl⟩
  · exact .inr ⟨hv, _, rfl⟩
  · exact .inr ⟨hv, none, rfl⟩

/-! ### What an effect leaves -/

/-- A worker iteration leaves the parameters, the outbound side and the codec's constants, appends at most three events,
and removes no packet. -/
theorem workerStep_frame (h : s.workerStep = some t) :
    t.params = s.params ∧ t.outq = s.outq ∧ t.audOut = s.audOut ∧ SameConst t.codec s.codec ∧
      (∃ e : List Event, t.evt = s.evt ++ e ∧ e.length ≤ 3) ∧ s.pktq <+: t.pktq := by
  obtain ⟨-, ⟨rfl, -⟩ | ⟨rfl, -⟩ | ⟨r, rfl, rfl, -⟩⟩ := workerStep_cases h
  · exact ⟨rfl, rfl, rfl, SameConst.refl _, ⟨[], by simp, by simp⟩, List.prefix_refl _⟩
  · exact ⟨rfl, rfl, rfl, codecAfterSync_const .., ⟨[], by simp, by simp⟩, List.prefix_refl _⟩
  · obtain ⟨-, -, fpktq⟩ := workerDemod_packet s.workerPop (demodSamples s.params s.codec s.workerPop.work s.pend)
    obtain ⟨hconst, -⟩ := demodLoop_spec s.params (s.workerPop.work.length + 1) s.codec s.workerPop.work s.pend
    rw [workerDemod_eq]
    refine ⟨rfl, rfl, rfl, hconst, ?_, ?_⟩
    · rw [workerDemod_evt]
      refine ⟨_, by rw [List.append_assoc, List.append_assoc]; rfl, ?_⟩
      split_ifs <;> simp
    · show s.pktq <+: State.pktq _
      rw [fpktq]
      split
      · exact List.prefix_append ..
      · exact List.prefix_refl _

theorem effect_engWorkerStep (s : State) :
    effect .engWorkerStep s = s ∨ s.workerStep = some (effect .engWorkerStep s) := by
  rw [effect]
  cases s.workerStep with
  | none => exact .inl rfl
  | some u => exact .inr rfl

/-- No operation writes the parameters (R47), and none puts a block out: that is a callback's second access (R224). -/
theorem effect_params_audOut (i : Instr) (s : State) :
    (effect i s).params = s.params ∧ (effect i s).audOut = s.audOut := by
  cases i
  case engWorkerStep =>
    rcases effect_engWorkerStep s with h | h
    · rw [h]
      exact ⟨rfl, rfl⟩
    · obtain ⟨hparams, -, haud, -⟩ := workerStep_frame h
      exact ⟨hparams, haud⟩
  case engSetConfig n =>
    rw [effect, applyVolume_reconfigure]
    split <;> exact ⟨rfl, rfl⟩
  all_goals exact ⟨rfl, rfl⟩

/-- R30: only a construction and a reconfiguration make an instance of other constants. -/
theorem effect_codec_const (i : Instr) (s : State) :
    SameConst (effect i s).codec s.codec ∨ (∃ k r b, i = .codecNew k r b) ∨ ∃ n, i = .engSetConfig n := by
  cases i
  case codecNew k r b => exact .inr (.inl ⟨k, r, b, rfl⟩)
  case engSetConfig n => exact .inr (.inr ⟨n, rfl⟩)
  case codecSync x => exact .inl (codecAfterSync_const ..)
  case codecDemod x out =>
    obtain ⟨hconst, -⟩ := demodLoop_spec s.params (x.length + 1) s.codec x out
    exact .inl hconst
  case engWorkerStep =>
    rcases effect_engWorkerStep s with h | h
    · rw [h]; exact .inl (SameConst.refl _)
    · obtain ⟨-, -, -, hconst, -⟩ := workerStep_frame h
      exact .inl hconst
  all_goals exact .inl (SameConst.refl _)

/-- Settles O55: by the effect of a served operation. -/
theorem constantsChangeOnlyByConstruction : Obligations.ConstantsChangeOnlyByConstruction := by
  intro i s t h
  obtain ⟨o, rfl⟩ | ⟨-, o, rfl⟩ := exec_state h
  · exact ⟨rfl, .inl (SameConst.refl _)⟩
  · exact ⟨(effect_params_audOut i s).1, effect_codec_const i s⟩

/-! ### The synchronization flag -/

/-- R31, R233 (b): how an operation may move the flag. -/
def FlagMove (i : Instr) (before after : Bool) : Prop :=
  (before = false → after = true → (∃ x, i = .codecSync x) ∨ i = .engWorkerStep) ∧
    (before = true → after = false →
      (∃ x o, i = .codecDemod x o) ∨ i = .engWorkerStep ∨ (∃ k r b, i = .codecNew k r b) ∨ ∃ n, i = .engSetConfig n)

theorem flagMove_of_stays {before after : Bool} (h : after = before) : FlagMove i before after := by
  subst h
  exact ⟨fun h0 h1 => absurd (h0.symm.trans h1) Bool.false_ne_true,
    fun h1 h0 => absurd (h0.symm.trans h1) Bool.false_ne_true⟩

/-- A served operation moves the flag only as R233 (b) says: a synchronize is served on an unsynchronized instance, a
demodulation on a synchronized one, and a fresh instance is unsynchronized. -/
theorem effect_flagMove (hv : served i s) : FlagMove i s.codec.synchronized (effect i s).codec.synchronized := by
  cases i
  case codecSync x =>
    have hs : s.codec.synchronized = false := hv
    exact ⟨fun _ _ => .inl ⟨x, rfl⟩, fun h => absurd (hs.symm.trans h) Bool.false_ne_true⟩
  case codecDemod x out =>
    have hs : s.codec.synchronized = true := hv
    exact ⟨fun h => absurd (h.symm.trans hs) Bool.false_ne_true, fun _ _ => .inl ⟨x, out, rfl⟩⟩
  case engWorkerStep => exact ⟨fun _ _ => .inr rfl, fun _ _ => .inr (.inl rfl)⟩
  case codecNew k r b => exact ⟨nofun, fun _ _ => .inr (.inr (.inl ⟨k, r, b, rfl⟩))⟩
  case engSetConfig n =>
    rw [effect, applyVolume_reconfigure]
    split
    · exact flagMove_of_stays rfl
    · exact ⟨nofun, fun _ _ => .inr (.inr (.inr ⟨n, rfl⟩))⟩
  all_goals exact flagMove_of_stays rfl

/-- Settles O57: by the effect of a served operation. -/
theorem synchronizedMovesOnlyByTheCodec : Obligations.SynchronizedMovesOnlyByTheCodec := by
  intro i s t h
  obtain ⟨o, rfl⟩ | ⟨hv, o, rfl⟩ := exec_state h
  · exact flagMove_of_stays (i := i) (before := s.codec.synchronized) rfl
  · exact effect_flagMove hv

/-! ### The event trace -/

theorem effect_evt (i : Instr) (s : State) :
    (effect i s).evt = s.evt ∨ (i = .engWorkerStep ∧ ∃ e, (effect i s).evt = s.evt ++ e ∧ e.length ≤ 3) ∨
      ∃ n, i = .engSetConfig n ∧ (effect i s).evt = s.evt ++ [.configChanged] := by
  cases i
  case engWorkerStep =>
    rcases effect_engWorkerStep s with h | h
    · rw [h]; exact .inl rfl
    · obtain ⟨-, -, -, -, hevt, -⟩ := workerStep_frame h
      exact .inr (.inl ⟨rfl, hevt⟩)
  case engSetConfig n =>
    rw [effect, applyVolume_reconfigure]
    split
    · exact .inl rfl
    · exact .inr (.inr ⟨n, rfl, rfl⟩)
  all_goals exact .inl rfl

theorem exec_evt (h : exec i s = .next t) :
    t.evt = s.evt ∨ (i = .engWorkerStep ∧ ∃ e, t.evt = s.evt ++ e ∧ e.length ≤ 3) ∨
      ∃ n, i = .engSetConfig n ∧ t.evt = s.evt ++ [.configChanged] := by
  obtain ⟨o, rfl⟩ | ⟨-, o, rfl⟩ := exec_state h
  · exact .inl rfl
  · exact effect_evt i s

/-- R257: the events of a step stand behind the old ones; a reset keeps the trace (log entry 13). -/
theorem step_evt (h : step s = .next t) : ∃ e : List Event, t.evt = s.evt ++ e ∧ e.length ≤ 3 := by
  have hnone : t.evt = s.evt → ∃ e : List Event, t.evt = s.evt ++ e ∧ e.length ≤ 3 := fun h =>
    ⟨[], by rw [h, List.append_nil], Nat.zero_le _⟩
  obtain ⟨-, rfl⟩ | ⟨-, ⟨-, rfl⟩ | ⟨rest, -, rfl⟩ | ⟨rest, -, rfl⟩ | ⟨a, w, c, rest, i, -, -, he⟩ |
    ⟨a, w, c, rest, -, -, rfl⟩⟩ := step_cases h
  · exact hnone rfl
  · exact hnone rfl
  · exact hnone rfl
  · exact hnone rfl
  · rcases exec_evt he with h | ⟨-, h⟩ | ⟨n, -, h⟩
    · exact hnone h
    · exact h
    · exact ⟨_, h, by decide⟩
  · exact hnone rfl

/-- Settles O58: by what a step appends, and the two operations that emit. -/
theorem eventsAreOnlyAppended : Obligations.EventsAreOnlyAppended := by
  refine ⟨fun s t => step_evt, fun i s t h => ?_⟩
  rcases exec_evt h with h | ⟨hi, -⟩ | h
  · exact .inl h
  · exact .inr (.inl hi)
  · exact .inr (.inr h)

/-! ### The delivery queue -/

theorem effect_pktq (i : Instr) (s : State) :
    s.pktq <+: (effect i s).pktq ∨ (i = .pktqPop ∧ ∃ p, s.pktq = p :: (effect i s).pktq) := by
  cases i
  case pktqPop =>
    rw [effect]
    cases hq : s.pktq with
    | nil => exact .inl (List.prefix_refl _)
    | cons p r => exact .inr ⟨rfl, p, rfl⟩
  case pktqPush p => exact .inl (List.prefix_append ..)
  case engWorkerStep =>
    rcases effect_engWorkerStep s with h | h
    · rw [h]; exact .inl (List.prefix_refl _)
    · obtain ⟨-, -, -, -, -, hpktq⟩ := workerStep_frame h
      exact .inl hpktq
  case engSetConfig n =>
    rw [effect, applyVolume_reconfigure]
    split <;> exact .inl (List.prefix_refl _)
  all_goals exact .inl (List.prefix_refl _)

/-- Settles O59: of the steps only a reset and a pop of the queue remove a packet. -/
theorem deliveredPacketsSurvive : Obligations.DeliveredPacketsSurvive := by
  intro s t h
  obtain ⟨-, rfl⟩ | ⟨-, ⟨-, rfl⟩ | ⟨rest, hc, -⟩ | ⟨rest, -, rfl⟩ | ⟨a, w, c, rest, i, hc, hi, he⟩ |
    ⟨a, w, c, rest, -, -, rfl⟩⟩ := step_cases h
  · exact .inl (List.prefix_refl _)
  · exact .inl (List.prefix_refl _)
  · exact .inr (.inl ⟨rest, hc⟩)
  · exact .inl (List.prefix_refl _)
  · obtain ⟨o, rfl⟩ | ⟨-, o, rfl⟩ := exec_state he
    · exact .inl (List.prefix_refl _)
    · rcases effect_pktq i (s.accept a w rest) with hpre | ⟨rfl, p, hp⟩
      · exact .inl hpre
      · exact .inr (.inr ⟨a, w, c, rest, p, hc, hi, hp⟩)
  · exact .inl (List.prefix_refl _)

/-! ### Without a stream -/

theorem exec_engStopStream_stops (hi : s.issuer = .caller) (hs : s.streaming = true) :
    exec .engStopStream s = done s.stopStream (.flag true) := by
  rw [exec, execEngStopStream, withRight_of_mem (by simp [hi, holders]), if_pos hs]

/-- A stream that does not run is not stopped (R221). -/
theorem exec_engStopStream_fails (hi : s.issuer = .caller) (hs : ¬ s.streaming = true) :
    exec .engStopStream s = failWith s .state := by
  rw [exec, execEngStopStream, withRight_of_mem (by simp [hi, holders]), if_neg hs]

/-- Without a stream no operation begins a callback (R258). -/
theorem effect_playing_of_not_streaming (hv : served i s) (hs : s.streaming = false) :
    (effect i s).playing = s.playing := by
  cases i
  case engCallback c =>
    obtain ⟨h, -⟩ := hv
    rw [hs] at h
    cases h
  case engWorkerStep =>
    rcases effect_engWorkerStep s with h | h
    · rw [h]
    · exact workerStep_playing h
  case engSetConfig n =>
    rw [effect, applyVolume_reconfigure]
    split <;> rfl
  all_goals rfl

/-- Without a stream what is queued stays, but for the operations on the queue and a reconfiguration (R228). -/
theorem effect_outq_of_not_streaming (hv : served i s) (hs : s.streaming = false) :
    s.outq <+: (effect i s).outq ∨ i = .outqClear ∨ (∃ dst, i = .outqPop dst) ∨ ∃ n, i = .engSetConfig n := by
  cases i
  case outqClear => exact .inr (.inl rfl)
  case outqPop dst => exact .inr (.inr (.inl ⟨dst, rfl⟩))
  case engSetConfig n => exact .inr (.inr (.inr ⟨n, rfl⟩))
  case outqPush x => exact .inl (List.prefix_append ..)
  case engTransmit b => exact .inl (List.prefix_append ..)
  case engStopStream =>
    have h : s.streaming = true := hv
    rw [hs] at h
    cases h
  case engWorkerStep =>
    rcases effect_engWorkerStep s with h | h
    · rw [h]; exact .inl (List.prefix_refl _)
    · obtain ⟨-, houtq, -⟩ := workerStep_frame h
      rw [houtq]
      exact .inl (List.prefix_refl _)
  all_goals exact .inl (List.prefix_refl _)

/-- Settles O35: the two cases of the stop; and with neither a stream nor a callback, what each step can do. -/
theorem stopStreamClearsBothBuffers : Obligations.StopStreamClearsBothBuffers := by
  refine ⟨fun s hi => ⟨rfl, ?_⟩, fun s t hs hp h => ?_⟩
  · split_ifs with hs
    · exact exec_engStopStream_fails hi (Bool.eq_false_iff.1 hs)
    · exact exec_engStopStream_stops hi (Bool.eq_true_of_not_eq_false hs)
  · obtain ⟨hd, -⟩ | ⟨-, ⟨-, rfl⟩ | ⟨rest, hc, rfl⟩ | ⟨rest, -, rfl⟩ | ⟨a, w, c, rest, i, hc, hi, he⟩ |
      ⟨a, w, c, rest, -, -, rfl⟩⟩ := step_cases h
    · rw [callbackDue_of_not_playing hp] at hd
      cases hd
    · exact ⟨hp, .inl rfl, .inl (List.prefix_refl _)⟩
    · exact ⟨rfl, .inr ⟨rest, hc⟩, .inr (.inl ⟨rest, hc⟩)⟩
    · exact ⟨hp, .inl rfl, .inl (List.prefix_refl _)⟩
    · obtain ⟨o, rfl⟩ | ⟨hv, o, rfl⟩ := exec_state he
      · exact ⟨hp, .inl rfl, .inl (List.prefix_refl _)⟩
      · refine ⟨(effect_playing_of_not_streaming hv hs).trans hp, .inl (effect_params_audOut i _).2, ?_⟩
        rcases effect_outq_of_not_streaming hv hs with hpre | hqueue
        · exact .inl hpre
        · exact .inr (.inr ⟨a, w, c, rest, i, hc, hi, hqueue⟩)
    · exact ⟨hp, .inl rfl, .inl (List.prefix_refl _)⟩

/-! ### What the other agents see -/

/-- The elements that agents other than the WORKER can see, but for the response (R46). -/
def view (s : State) :
    Option (List Sample) × List Event × Option (U16 × U16) × List (List Byte) × List OutEntry × Ring × ModemConfig ×
      Cells (List Byte) × Bool :=
  (s.audOut, s.evt, s.mix, s.pktq, s.outq, s.ring, s.config, s.held, s.playing)

/-- Two answers that look the same from outside. -/
def Alike (a a' : Answer) : Prop :=
  ∃ t t', a = .next t ∧ a' = .next t' ∧ t'.rsp = t.rsp ∧ view t' = view t

variable {s' : State}

theorem done_alike {r : Result} (h : view s' = view s) : Alike (done s r) (done s' r) := ⟨_, _, rfl, rfl, rfl, h⟩

theorem refuse_alike (h : view s' = view s) : Alike (refuse s) (refuse s') := ⟨_, _, rfl, rfl, rfl, h⟩

theorem failWith_alike {st : Status} (h : view s' = view s) : Alike (failWith s st) (failWith s' st) :=
  ⟨_, _, rfl, rfl, rfl, h⟩

theorem ite_alike {p : Prop} [Decidable p] {a b a' b' : Answer} (ha : Alike a a') (hb : Alike b b') :
    Alike (if p then a else b) (if p then a' else b') := by
  split
  · exact ha
  · exact hb

theorem withRight_alike {k k' : Answer} (hi : s'.issuer = s.issuer) (hv : view s' = view s) (hk : Alike k k') :
    Alike (withRight i s k) (withRight i s' k') := by
  rw [withRight, withRight, hi]
  exact ite_alike hk (refuse_alike hv)

theorem readPacket_alike {f : List Byte → Result} (hp : s'.packetInView = s.packetInView) (hv : view s' = view s) :
    Alike (readPacket s f) (readPacket s' f) := by
  rw [readPacket, readPacket, hp]
  cases s.packetInView with
  | none => exact refuse_alike hv
  | some p => exact done_alike hv

theorem SameConst.dataSymbols_eq {P : Params} {c d : Codec} (h : SameConst d c) (k : Nat) (b : List Byte) :
    dataSymbols P d k b = dataSymbols P c k b := by
  have hbyte : byteSymbols P d = byteSymbols P c := by
    rw [h.eq_with]
    rfl
  induction b generalizing k with
  | nil => rfl
  | cons v vs ih => rw [dataSymbols, dataSymbols, h.preamble_eq, hbyte, ih]

/-- What an instance modulates depends on its constants alone (R76, R143). -/
theorem SameConst.modulate_eq {P : Params} {c d : Codec} (h : SameConst d c) (b : List Byte) :
    modulate P d b = modulate P c b := by
  have hidle : idleSymbol P d = idleSymbol P c := by
    rw [h.eq_with]
    rfl
  rw [modulate, modulate, h.dataSymbols_eq, hidle]

/-- R46: an operation of another agent than the WORKER reads neither `work` nor `pend`, and of the codec its constants
alone. -/
theorem exec_alike {c : Codec} (w : List Sample) (p : List Byte) (hi : s.issuer ∈ holders i) (hw : s.issuer ≠ .worker)
    (hc : SameConst c s.codec) : Alike (exec i s) (exec i { s with codec := c, work := w, pend := p }) := by
  cases i
  case ringPop | codecSync | codecDemod | pktPush | pktNew | pktqPush | engWorkerStep =>
    exact absurd (List.mem_singleton.1 hi) hw
  case pktqPop =>
    have hcons : s.issuer = .consumer := List.mem_singleton.1 hi
    obtain hq | ⟨q, r, hq⟩ : s.pktq = [] ∨ ∃ q r, s.pktq = q :: r := by cases s.pktq <;> simp
    · rw [exec_pktqPop_absent hcons hq, exec_pktqPop_absent (by exact hcons) (by exact hq)]
      exact done_alike rfl
    · rw [exec_pktqPop_oldest hcons hq, exec_pktqPop_oldest (by exact hcons) (by exact hq)]
      exact done_alike rfl
  all_goals refine withRight_alike rfl rfl ?_
  case pktFinished | pktValid | pktChecksum => exact readPacket_alike rfl rfl
  case codecMod b =>
    show Alike _ (done _ (.samples (modulate s.params c b)))
    rw [hc.modulate_eq]
    exact done_alike rfl
  case codecType =>
    obtain ⟨hkind, -⟩ := hc
    show Alike _ (done _ (.kind (codeOfKind c.kind)))
    rw [hkind]
    exact done_alike rfl
  case engTransmit b =>
    show Alike _ (if _ then if outqRefuses s.params s.chunkLen s.outq (modulate s.params c b) then _ else
      done { s with codec := c, work := w, pend := p,
                    outq := outqPushed s.chunkLen s.outq (modulate s.params c b) } _ else _)
    rw [hc.modulate_eq]
    exact ite_alike (ite_alike (failWith_alike rfl) (done_alike rfl)) (failWith_alike rfl)
  case ringPush | outqPop => exact ite_alike (done_alike rfl) (refuse_alike rfl)
  case outqPush => exact ite_alike (refuse_alike rfl) (done_alike rfl)
  case codecNew => exact ite_alike (refuse_alike rfl) (ite_alike (done_alike rfl) (refuse_alike rfl))
  case pktBuild => exact ite_alike (done_alike rfl) ⟨_, _, rfl, rfl, rfl, rfl⟩
  case engStartStream =>
    exact ite_alike (failWith_alike rfl)
      (ite_alike (ite_alike (done_alike rfl) (failWith_alike rfl)) (failWith_alike rfl))
  case engStopStream => exact ite_alike (done_alike rfl) (failWith_alike rfl)
  case engStartDemod =>
    exact ite_alike (ite_alike (failWith_alike rfl) (done_alike rfl)) (failWith_alike rfl)
  case engCallback =>
    exact ite_alike (ite_alike ⟨_, _, rfl, rfl, rfl, rfl⟩ (refuse_alike rfl)) (refuse_alike rfl)
  case engSetConfig =>
    refine ite_alike (ite_alike (done_alike rfl) (done_alike ?_)) (refuse_alike rfl)
    rw [applyVolume_reconfigure, applyVolume_reconfigure]
    rfl
  all_goals exact done_alike rfl

/-- Settles O60: without the right both are refused; with it the two answers look the same. -/
theorem hiddenStateIsNotObservable : Obligations.HiddenStateIsNotObservable := by
  intro i s t t' c w p hw hc h h'
  obtain ⟨u, u', hu, hu', hrsp, hview⟩ : Alike (exec i s) (exec i { s with codec := c, work := w, pend := p }) := by
    by_cases hi : s.issuer ∈ holders i
    · exact exec_alike w p hi hw hc
    · rw [exec_of_not_mem hi, exec_of_not_mem (by exact hi)]
      exact refuse_alike rfl
  rw [hu] at h
  rw [hu'] at h'
  cases h
  cases h'
  simp only [view, Prod.mk.injEq] at hview
  exact ⟨hrsp, hview⟩

end Machine
end Sys2Proof
end
